-- ==== Sys2Proof/Word.lean ====
section
/-!
DEFINITION. The words of the RSFC block and the fixed sets of names the spec uses: bytes and byte sequences
(10_state.md R39), the three header fields with their widths (00_scope.md R9), the wire types in the two classes
of 40_frame_types.md R111 and R112, the eighteen mnemonics (30_encoding.md R86, R87), the five error kinds
(60_exceptions.md R260), the five refusal reasons (60_exceptions.md R272) and the operand records of a frame.
-/

namespace Sys2Proof

/-- One 8-bit byte of a buffer. -/
abbrev Byte := BitVec 8

/-- A buffer: a finite sequence of bytes, offset 0 first (10_state.md R39). -/
abbrev Bytes := List Byte

/-- A stream id, 31 bits (00_scope.md R9). -/
abbrev StreamId := BitVec 31

/-- The ten flag bits of a header, bit 0 the least significant (00_scope.md R12, R16). -/
abbrev Flags := BitVec 10

/-- The 6-bit frame type of a header. -/
abbrev TypeCode := BitVec 6

/-- The five fragmentable wire types (40_frame_types.md R111; 30_encoding.md R91). -/
inductive FragType where
  | requestResponse
  | requestFnf
  | requestStream
  | requestChannel
  | payload
  deriving DecidableEq, Repr

/-- The ten non-fragmentable wire types, whose body is opaque to this block (40_frame_types.md R112). -/
inductive OtherType where
  | setup
  | lease
  | keepalive
  | requestN
  | cancel
  | error
  | metadataPush
  | resume
  | resumeOk
  | ext
  deriving DecidableEq, Repr

/-- The fifteen wire types, by class. -/
inductive WireType where
  | frag (t : FragType)
  | other (t : OtherType)
  deriving DecidableEq, Repr

/-- The eighteen mnemonics: the fifteen wire types and the three aliases of PAYLOAD (30_encoding.md R86, R87). -/
inductive Mnemonic where
  | setup
  | lease
  | keepalive
  | requestResponse
  | requestFnf
  | requestStream
  | requestChannel
  | requestN
  | cancel
  | payload
  | error
  | metadataPush
  | resume
  | resumeOk
  | ext
  | nextPayload
  | complete
  | nextComplete
  deriving DecidableEq, Repr

/-- The header fields a frame carries beside its type (30_encoding.md R82): the reserved bit (ignored, but kept by a
frame that passes through, R92), the stream id and the ten flags. -/
structure Head where
  reserved : Bool
  sid      : StreamId
  flags    : Flags
  deriving DecidableEq, Repr

/-- The operands of a format P frame, the bytes after its header (30_encoding.md R89). `full`: the optional metadata
(`none` is absent, `some []` is present and empty, 00_scope.md R15) and the data. `cut`: the raw bytes after the header
when they are too few for the metadata length or the declared metadata. Such a frame is still a frame: where the block
does not look inside it, it passes (43_reassembler.md R202; 44_adapter_ops.md R242 (f)), and it is MalformedFrame only
where the block must (60_exceptions.md R262 (b)). -/
inductive Payload where
  | full (md : Option Bytes) (data : Bytes)
  | cut (raw : Bytes)
  deriving DecidableEq, Repr

/-- The operands of a format NP frame (30_encoding.md R88, R89): `full` with `initial_request_n`, optional metadata and
data; `cut` as for `Payload`, the four bytes of the type prefix being among those that may be missing. -/
inductive NPayload where
  | full (n : BitVec 32) (md : Option Bytes) (data : Bytes)
  | cut (raw : Bytes)
  deriving DecidableEq, Repr

/-- The five error kinds (60_exceptions.md R260). -/
inductive ErrorKind where
  | invalidFrameType
  | malformedFrame
  | reassemblyProtocolViolation
  | reassemblyTooLarge
  | transportFailure
  deriving DecidableEq, Repr

/-- The five refusal reasons (60_exceptions.md R272). -/
inductive RefuseReason where
  | disposed
  | mtuTooSmall
  | fieldOverflow
  | unsupportedLayout
  | noSequence
  deriving DecidableEq, Repr

/-- What a pure function of the codec answers (00_scope.md R19; 41_codec_ops.md R140): a value, an error kind with the
stream id it concerns (absent when the header could not be read, 10_state.md R37), or a refusal. -/
inductive Codec (α : Type) where
  | ok (a : α)
  | raised (k : ErrorKind) (sid : Option StreamId)
  | refused (r : RefuseReason)
  deriving DecidableEq, Repr

/-- One codec function after another: an error or a refusal ends the operation (00_scope.md R14). -/
@[inline] def Codec.bind {α β : Type} (x : Codec α) (f : α → Codec β) : Codec β :=
  match x with
  | .ok a => f a
  | .raised k sid => .raised k sid
  | .refused r => .refused r

@[simp] theorem Codec.bind_ok {α β : Type} (a : α) (f : α → Codec β) : (Codec.ok a).bind f = f a := rfl
@[simp] theorem Codec.bind_raised {α β : Type} (k : ErrorKind) (sid : Option StreamId) (f : α → Codec β) :
    (Codec.raised k sid : Codec α).bind f = .raised k sid := rfl
@[simp] theorem Codec.bind_refused {α β : Type} (r : RefuseReason) (f : α → Codec β) :
    (Codec.refused r : Codec α).bind f = .refused r := rfl

end Sys2Proof
end

