-- ==== Sys2Proof/Config.lean ====
section
/-!
DEFINITION. The constants D0 fixes (00_scope.md R9) and the two parameters it leaves to the implementation
(00_scope.md R11). The three configuration REGISTERS (MTU, ENCODE_LENGTH, MAX_REASSEMBLY_SIZE) are state:
Machine/State.lean.
-/

namespace Sys2Proof.Config

/-- Bytes of a frame header (00_scope.md R9). -/
abbrev headerSize : Nat := 6

/-- Bytes of the metadata-length field (00_scope.md R9). -/
abbrev mdlenSize : Nat := 3

/-- Bytes of the frame-length prefix of a wire buffer (00_scope.md R9). -/
abbrev framelenSize : Nat := 3

/-- Bytes of the `initial_request_n` prefix of REQUEST_STREAM and REQUEST_CHANNEL (00_scope.md R9). -/
abbrev irnSize : Nat := 4

/-- The largest value of a 24-bit length field (20_memory.md R55). -/
abbrev maxU24 : Nat := 0xFFFFFF

/-- `LEN_BITS`, the width of an implementation's length, offset and budget registers: OPEN (00_scope.md R11;
92_eei_decisions.md D10). A constant without a body. The rules compute in naturals, so no definition of the machine
reads it; Safety.lean says what fitting in it means. -/
opaque lenBits : Nat

/-- `REASM_SLOTS`, how many streams may be in reassembly at once: OPEN (00_scope.md R11; 92_eei_decisions.md D12). A
constant without a body. The map of this model is unbounded, so no definition of the machine reads it. -/
opaque reasmSlots : Nat

@[simp] theorem headerSize_eq : headerSize = 6 := rfl
@[simp] theorem mdlenSize_eq : mdlenSize = 3 := rfl
@[simp] theorem framelenSize_eq : framelenSize = 3 := rfl
@[simp] theorem irnSize_eq : irnSize = 4 := rfl
@[simp] theorem maxU24_eq : maxU24 = 16777215 := rfl

end Sys2Proof.Config
end

