-- ==== Sys2Proof/Machine/Bytes.lean ====
section
/-!
DEFINITION. Byte order and slices: every multi-byte field is an unsigned big-endian number (00_scope.md R13;
20_memory.md R50), and a view of a buffer is the value `bs[a..b)` (00_scope.md R14; 20_memory.md R56).
-/

namespace Sys2Proof

/-- `be(bs)`: the value of a byte sequence read most significant byte first (00_scope.md R13). -/
def be (bs : Bytes) : Nat := bs.foldl (fun acc b => acc * 256 + b.toNat) 0

/-- The `n`-byte big-endian sequence of `v` (`u16be`, `u24be`, `u32be` of 00_scope.md R13 for `n` = 2, 3, 4), most
significant byte first. -/
def ube : Nat → Nat → Bytes
  | 0, _ => []
  | n + 1, v => BitVec.ofNat 8 (v / 256 ^ n) :: ube n v

/-- `bs[a..b)` (00_scope.md R14); every rule that uses it has shown `a <= b <= len(bs)`. -/
def slice (bs : Bytes) (a b : Nat) : Bytes := (bs.drop a).take (b - a)

end Sys2Proof
end

