-- ==== Sys2Proof/Machine/Flags.lean ====
section
/-!
DEFINITION. The flag bits of a header (30_encoding.md R85), their masks and every flag computation the spec gives:
the M bit forced by ENCODE (41_codec_ops.md R144), `OTHER` (00_scope.md R16), the flags of a fragment
(42_fragmenter.md R176) and the flags of a reassembled frame (43_reassembler.md R210).
-/

namespace Sys2Proof

/-- M, "metadata present": 0x100, flag bit 8 (30_encoding.md R85). -/
def flagM : Flags := 0x100#10

/-- F, "follows": 0x080, flag bit 7 (30_encoding.md R85). -/
def flagF : Flags := 0x080#10

/-- C, "complete": 0x040, flag bit 6 (30_encoding.md R85). -/
def flagC : Flags := 0x040#10

/-- N, "next": 0x020, flag bit 5 (30_encoding.md R85). -/
def flagN : Flags := 0x020#10

/-- Whether M is set. -/
def mSet (fl : Flags) : Bool := fl.getLsbD 8

/-- Whether F is set. -/
def fSet (fl : Flags) : Bool := fl.getLsbD 7

/-- Whether C is set. -/
def cSet (fl : Flags) : Bool := fl.getLsbD 6

/-- Whether N is set. -/
def nSet (fl : Flags) : Bool := fl.getLsbD 5

/-- `OTHER(fl) = fl & 0x27F`: every flag bit except M and F (00_scope.md R16). -/
def otherFlags (fl : Flags) : Flags := fl &&& 0x27F#10

/-- `(fl & ~M) | (M if b else 0)`: ENCODE's M bit agrees with the presence of metadata (41_codec_ops.md R144). -/
def withM (fl : Flags) (b : Bool) : Flags := (fl &&& ~~~flagM) ||| (if b then flagM else 0#10)

/-- Whether a fragment carries the logical frame's `OTHER` flags: the first one of a request chain, the terminal one of a
PAYLOAD chain (42_fragmenter.md R176; 90_conflicts.md C1, C2). -/
def carriesOther (t : FragType) (isFirst more : Bool) : Bool :=
  match t with
  | .payload => !more
  | .requestResponse | .requestFnf | .requestStream | .requestChannel => isFirst

/-- FLAGS: the ten flags of a fragment before ENCODE forces M (42_fragmenter.md R176). -/
def fragmentFlags (t : FragType) (oflags : Flags) (isFirst more : Bool) : Flags :=
  (if more then flagF else 0#10) ||| (if carriesOther t isFirst more then otherFlags oflags else 0#10)

/-- The flags of a reassembled frame other than M: F cleared, the rest from the first fragment for a request chain and
from the terminal fragment for a PAYLOAD chain (43_reassembler.md R210, R212). -/
def emittedFlags (t : FragType) (firstFlags terminalFlags : Flags) : Flags :=
  match t with
  | .payload => otherFlags terminalFlags
  | .requestResponse | .requestFnf | .requestStream | .requestChannel => otherFlags firstFlags

end Sys2Proof
end

