-- ==== Sys2Proof/Syntax.lean ====
section
/-!
DEFINITION. The "instructions" of the block: its frames (30_encoding.md R80, 40_frame_types.md R110), one constructor
of `Instr` for each of the eighteen rows of spec/opcode_table.json. The operands are those of the type's own rule:
stream id and flags for every type, the opaque body for the ten non-fragmentable types (R112), `initial_request_n` for
the two types with a prefix (R118, R119), optional metadata and data for the fragmentable types (R111).
-/

namespace Sys2Proof

/-- The eighteen frame types of spec/opcode_table.json. -/
inductive Instr where
  /-- SETUP, code 1 (R113) -/
  | setup (h : Head) (body : Bytes)
  /-- LEASE, code 2 (R114) -/
  | lease (h : Head) (body : Bytes)
  /-- KEEPALIVE, code 3 (R115) -/
  | keepalive (h : Head) (body : Bytes)
  /-- REQUEST_RESPONSE, code 4 (R116) -/
  | requestResponse (h : Head) (p : Payload)
  /-- REQUEST_FNF, code 5 (R117) -/
  | requestFnf (h : Head) (p : Payload)
  /-- REQUEST_STREAM, code 6 (R118) -/
  | requestStream (h : Head) (p : NPayload)
  /-- REQUEST_CHANNEL, code 7 (R119) -/
  | requestChannel (h : Head) (p : NPayload)
  /-- REQUEST_N, code 8 (R120) -/
  | requestN (h : Head) (body : Bytes)
  /-- CANCEL, code 9 (R121) -/
  | cancel (h : Head) (body : Bytes)
  /-- PAYLOAD, code 10 with N and C clear (R122) -/
  | payload (h : Head) (p : Payload)
  /-- ERROR, code 11 (R123) -/
  | error (h : Head) (body : Bytes)
  /-- METADATA_PUSH, code 12 (R124) -/
  | metadataPush (h : Head) (body : Bytes)
  /-- RESUME, code 13 (R125) -/
  | resume (h : Head) (body : Bytes)
  /-- RESUME_OK, code 14 (R126) -/
  | resumeOk (h : Head) (body : Bytes)
  /-- EXT, code 63 (R127) -/
  | ext (h : Head) (body : Bytes)
  /-- NEXT, code 10 with N set and C clear (R128) -/
  | next (h : Head) (p : Payload)
  /-- COMPLETE, code 10 with C set and N clear (R129) -/
  | complete (h : Head) (p : Payload)
  /-- NEXT_COMPLETE, code 10 with N and C set (R130) -/
  | nextComplete (h : Head) (p : Payload)
  deriving DecidableEq, Repr

end Sys2Proof
end

