-- ==== Sys2Proof/Decode.lean ====
section
/-!
DEFINITION. The frame codec C1: type codes, PARSE_HEADER, CLASSIFY, OFFSETS, SPLIT, ENCODE and the other codec
functions of 41_codec_ops.md, the decoder from any bytes to an `Instr` (or an error by name) built on them, after it
the encoder, and last the text form of 30_encoding.md R98 and R99. Every function here is pure
(41_codec_ops.md R140).
-/

namespace Sys2Proof

/-! ### Type codes -/

/-- The code of a fragmentable type (30_encoding.md R86). -/
def FragType.code : FragType → TypeCode
  | .requestResponse => 4#6
  | .requestFnf => 5#6
  | .requestStream => 6#6
  | .requestChannel => 7#6
  | .payload => 10#6

/-- The code of a non-fragmentable type (30_encoding.md R86). -/
def OtherType.code : OtherType → TypeCode
  | .setup => 1#6
  | .lease => 2#6
  | .keepalive => 3#6
  | .requestN => 8#6
  | .cancel => 9#6
  | .error => 11#6
  | .metadataPush => 12#6
  | .resume => 13#6
  | .resumeOk => 14#6
  | .ext => 63#6

/-- The numeric code of a wire type (30_encoding.md R86). -/
def WireType.code : WireType → TypeCode
  | .frag t => t.code
  | .other t => t.code

/-- The wire type of a code; `none` for code 0 and codes 15 to 62 (30_encoding.md R93). -/
def WireType.ofCode (c : TypeCode) : Option WireType :=
  match c.toNat with
  | 1 => some (.other .setup)
  | 2 => some (.other .lease)
  | 3 => some (.other .keepalive)
  | 4 => some (.frag .requestResponse)
  | 5 => some (.frag .requestFnf)
  | 6 => some (.frag .requestStream)
  | 7 => some (.frag .requestChannel)
  | 8 => some (.other .requestN)
  | 9 => some (.other .cancel)
  | 10 => some (.frag .payload)
  | 11 => some (.other .error)
  | 12 => some (.other .metadataPush)
  | 13 => some (.other .resume)
  | 14 => some (.other .resumeOk)
  | 63 => some (.other .ext)
  | _ => none

/-- `prefix_size`: 4 for REQUEST_STREAM and REQUEST_CHANNEL, 0 for the other fragmentable types (30_encoding.md R91). -/
def FragType.prefixSize : FragType → Nat
  | .requestStream | .requestChannel => Config.irnSize
  | .requestResponse | .requestFnf | .payload => 0

/-- `fragmentable` (30_encoding.md R91). -/
def WireType.fragmentable : WireType → Bool
  | .frag _ => true
  | .other _ => false

/-! ### PARSE_HEADER and CLASSIFY -/

/-- What PARSE_HEADER returns (41_codec_ops.md R141). -/
structure Header where
  sid   : StreamId
  type  : WireType
  flags : Flags
  deriving DecidableEq, Repr

/-- The stream-id word `w`, offsets 0..3 (30_encoding.md R83). -/
def headerWord (bs : Bytes) : Nat := be (slice bs 0 4)

/-- The type/flags field `t`, offsets 4..5 (30_encoding.md R84). -/
def headerTypeFlags (bs : Bytes) : Nat := be (slice bs 4 6)

/-- PARSE_HEADER (41_codec_ops.md R141): the reserved bit `w[31]` is ignored (30_encoding.md R92). -/
def parseHeader (bs : Bytes) : Codec Header :=
  if bs.length < Config.headerSize then .raised .malformedFrame none
  else
    let sid := BitVec.ofNat 31 (headerWord bs)
    match WireType.ofCode (BitVec.ofNat 6 (headerTypeFlags bs / 1024)) with
    | none => .raised .invalidFrameType (some sid)
    | some ty => .ok { sid := sid, type := ty, flags := BitVec.ofNat 10 (headerTypeFlags bs) }

/-- CLASSIFY (41_codec_ops.md R142): the mnemonic, the alias of a PAYLOAD frame read from N and C. -/
def classify (t : WireType) (fl : Flags) : Mnemonic :=
  match t with
  | .other .setup => .setup
  | .other .lease => .lease
  | .other .keepalive => .keepalive
  | .other .requestN => .requestN
  | .other .cancel => .cancel
  | .other .error => .error
  | .other .metadataPush => .metadataPush
  | .other .resume => .resume
  | .other .resumeOk => .resumeOk
  | .other .ext => .ext
  | .frag .requestResponse => .requestResponse
  | .frag .requestFnf => .requestFnf
  | .frag .requestStream => .requestStream
  | .frag .requestChannel => .requestChannel
  | .frag .payload =>
    match nSet fl, cSet fl with
    | false, false => .payload
    | true, false => .nextPayload
    | false, true => .complete
    | true, true => .nextComplete

/-! ### OFFSETS and the slicing accessors -/

/-- What OFFSETS returns (41_codec_ops.md R143); `md` is `md_lo` and `md_hi` when M is set. -/
structure Offsets where
  prefixLen : Nat
  pl        : Nat
  md        : Option (Nat × Nat)
  dataLo    : Nat
  dataHi    : Nat
  deriving DecidableEq, Repr

/-- OFFSETS (41_codec_ops.md R143). `sid` is what the caller has from PARSE_HEADER and goes into the error. -/
def offsets (sid : StreamId) (bs : Bytes) (type : WireType) (fl : Flags) : Codec Offsets :=
  match type with
  | .other _ => .refused .unsupportedLayout
  | .frag t =>
    let pl := Config.headerSize + t.prefixSize
    if bs.length < pl then .raised .malformedFrame (some sid)
    else if mSet fl then
      if bs.length < pl + Config.mdlenSize then .raised .malformedFrame (some sid)
      else
        let lo := pl + Config.mdlenSize
        let hi := lo + be (slice bs pl lo)
        if bs.length < hi then .raised .malformedFrame (some sid)
        else .ok { prefixLen := t.prefixSize, pl := pl, md := some (lo, hi), dataLo := hi, dataHi := bs.length }
    else .ok { prefixLen := t.prefixSize, pl := pl, md := none, dataLo := pl, dataHi := bs.length }

/-- The metadata bytes OFFSETS has located (41_codec_ops.md R146, R149). -/
def sliceAt (bs : Bytes) (loHi : Option (Nat × Nat)) : Option Bytes :=
  match loHi with
  | some (lo, hi) => some (slice bs lo hi)
  | none => none

/-- SLICE_METADATA (41_codec_ops.md R146). -/
def sliceMetadata (bs : Bytes) (type : WireType) : Codec (Option Bytes) :=
  (parseHeader bs).bind fun h => (offsets h.sid bs type h.flags).bind fun o => .ok (sliceAt bs o.md)

/-- SLICE_DATA (41_codec_ops.md R147). -/
def sliceData (bs : Bytes) (type : WireType) : Codec Bytes :=
  (parseHeader bs).bind fun h => (offsets h.sid bs type h.flags).bind fun o => .ok (slice bs o.dataLo bs.length)

/-- INITIAL_REQUEST_N (41_codec_ops.md R148): unsigned, no range check. -/
def initialRequestN (bs : Bytes) : Codec (BitVec 32) :=
  (parseHeader bs).bind fun h =>
    match h.type with
    | .frag .requestStream | .frag .requestChannel =>
      if bs.length < Config.headerSize + Config.irnSize then .raised .malformedFrame (some h.sid)
      else .ok (BitVec.ofNat 32 (be (slice bs 6 10)))
    | _ => .refused .unsupportedLayout

/-- The parts of a fragmentable frame (41_codec_ops.md R149): type prefix, optional metadata, data. -/
structure Parts where
  pre  : Bytes
  md   : Option Bytes
  data : Bytes
  deriving DecidableEq, Repr

/-- The parts of a frame whose header is known: OFFSETS, then the three slices (41_codec_ops.md R149). -/
def splitAt (h : Header) (bs : Bytes) : Codec Parts :=
  (offsets h.sid bs h.type h.flags).bind fun o =>
    .ok { pre := slice bs Config.headerSize (Config.headerSize + o.prefixLen), md := sliceAt bs o.md,
          data := slice bs o.dataLo bs.length }

/-- SPLIT, the full parse (41_codec_ops.md R149). -/
def split (bs : Bytes) : Codec (Header × Parts) :=
  (parseHeader bs).bind fun h => (splitAt h bs).bind fun p => .ok (h, p)

/-! ### ENCODE and the frame-length prefix -/

/-- A 6-byte header (30_encoding.md R82): the stream-id word, then `frame_type << 10 | flags`. The block itself always
writes the reserved bit 0 (30_encoding.md R92). -/
def headerBytes (reserved : Bool) (sid : StreamId) (code : TypeCode) (fl : Flags) : Bytes :=
  ube 4 ((if reserved then 2 ^ 31 else 0) + sid.toNat) ++ ube 2 (code.toNat * 1024 + fl.toNat)

/-- The metadata field of a payload region (30_encoding.md R89): length and bytes when present, nothing when absent. -/
def metadataField : Option Bytes → Bytes
  | none => []
  | some m => ube Config.mdlenSize m.length ++ m

/-- ENCODE (41_codec_ops.md R144). -/
def encodeFrame (sid : StreamId) (type : WireType) (fl : Flags) (pre : Bytes) (md : Option Bytes) (data : Bytes) :
    Codec Bytes :=
  match type with
  | .other _ => .refused .unsupportedLayout
  | .frag t =>
    if pre.length ≠ t.prefixSize then .refused .unsupportedLayout
    else if Config.maxU24 < (md.getD []).length then .refused .fieldOverflow
    else .ok (headerBytes false sid t.code (withM fl md.isSome) ++ pre ++ metadataField md ++ data)

/-- ENCODE_OPAQUE (41_codec_ops.md R145). -/
def encodeOpaque (sid : StreamId) (t : OtherType) (fl : Flags) (body : Bytes) : Bytes :=
  headerBytes false sid t.code fl ++ body

/-- LEN_ENCODE (41_codec_ops.md R150). -/
def lenEncode (bs : Bytes) : Codec Bytes :=
  if Config.maxU24 < bs.length then .refused .fieldOverflow else .ok (ube Config.framelenSize bs.length ++ bs)

/-- LEN_DECODE (41_codec_ops.md R151): bytes beyond the declared length are ignored. -/
def lenDecode (buf : Bytes) : Codec Bytes :=
  if buf.length < Config.framelenSize then .raised .malformedFrame none
  else
    let hi := Config.framelenSize + be (slice buf 0 Config.framelenSize)
    if buf.length < hi then .raised .malformedFrame none else .ok (slice buf Config.framelenSize hi)

/-- FRAME_LENGTH, the wire length that SEND compares with MTU (41_codec_ops.md R152). -/
def frameLength (bs : Bytes) : Nat := bs.length

/-- WRAP (41_codec_ops.md R153), with the register ENCODE_LENGTH as its first argument. -/
def wrap (encodeLength : Bool) (bs : Bytes) : Codec Bytes := if encodeLength then lenEncode bs else .ok bs

/-- UNWRAP (41_codec_ops.md R154), with the register ENCODE_LENGTH as its first argument. -/
def unwrap (encodeLength : Bool) (buf : Bytes) : Codec Bytes := if encodeLength then lenDecode buf else .ok buf

/-! ### The decoder -/

/-- The bytes after the header: the opaque body of a non-fragmentable frame (20_memory.md R54). -/
def bodyOf (bs : Bytes) : Bytes := bs.drop Config.headerSize

/-- The header fields of a parsed frame together with its reserved bit (30_encoding.md R82). -/
def headOf (h : Header) (bs : Bytes) : Head :=
  { reserved := (headerWord bs).testBit 31, sid := h.sid, flags := h.flags }

/-- The operands of a format P frame: SPLIT where the bytes are there, else the raw bytes. -/
def payloadOf (h : Header) (bs : Bytes) : Payload :=
  match splitAt h bs with
  | .ok p => .full p.md p.data
  | _ => .cut (bodyOf bs)

/-- The operands of a format NP frame; `initial_request_n` is unsigned big-endian (30_encoding.md R88). -/
def nPayloadOf (h : Header) (bs : Bytes) : NPayload :=
  match splitAt h bs with
  | .ok p => .full (BitVec.ofNat 32 (be p.pre)) p.md p.data
  | _ => .cut (bodyOf bs)

/-- The instruction of a frame whose header has been parsed: its mnemonic by CLASSIFY, its operands by format
(30_encoding.md R80, R86, R87). -/
def instrOf (h : Header) (bs : Bytes) : Instr :=
  match classify h.type h.flags with
  | .setup => .setup (headOf h bs) (bodyOf bs)
  | .lease => .lease (headOf h bs) (bodyOf bs)
  | .keepalive => .keepalive (headOf h bs) (bodyOf bs)
  | .requestResponse => .requestResponse (headOf h bs) (payloadOf h bs)
  | .requestFnf => .requestFnf (headOf h bs) (payloadOf h bs)
  | .requestStream => .requestStream (headOf h bs) (nPayloadOf h bs)
  | .requestChannel => .requestChannel (headOf h bs) (nPayloadOf h bs)
  | .requestN => .requestN (headOf h bs) (bodyOf bs)
  | .cancel => .cancel (headOf h bs) (bodyOf bs)
  | .payload => .payload (headOf h bs) (payloadOf h bs)
  | .error => .error (headOf h bs) (bodyOf bs)
  | .metadataPush => .metadataPush (headOf h bs) (bodyOf bs)
  | .resume => .resume (headOf h bs) (bodyOf bs)
  | .resumeOk => .resumeOk (headOf h bs) (bodyOf bs)
  | .ext => .ext (headOf h bs) (bodyOf bs)
  | .nextPayload => .next (headOf h bs) (payloadOf h bs)
  | .complete => .complete (headOf h bs) (payloadOf h bs)
  | .nextComplete => .nextComplete (headOf h bs) (payloadOf h bs)

/-- The decoder, total on any bytes: a frame shorter than its header is `MalformedFrame`, an unrecognised type code is
`InvalidFrameType` (41_codec_ops.md R141); every other byte sequence is a frame. -/
def decode (bs : Bytes) : Codec Instr := (parseHeader bs).bind fun h => .ok (instrOf h bs)

/-! ### The encoder -/

/-- The header fields of an instruction. -/
def Instr.head : Instr → Head
  | .setup h _ | .lease h _ | .keepalive h _ | .requestN h _ | .cancel h _ | .error h _ | .metadataPush h _
  | .resume h _ | .resumeOk h _ | .ext h _ => h
  | .requestResponse h _ | .requestFnf h _ | .payload h _ | .next h _ | .complete h _ | .nextComplete h _ => h
  | .requestStream h _ | .requestChannel h _ => h

/-- The wire type of an instruction; the aliases are type PAYLOAD (30_encoding.md R87). -/
def Instr.type : Instr → WireType
  | .setup _ _ => .other .setup
  | .lease _ _ => .other .lease
  | .keepalive _ _ => .other .keepalive
  | .requestResponse _ _ => .frag .requestResponse
  | .requestFnf _ _ => .frag .requestFnf
  | .requestStream _ _ => .frag .requestStream
  | .requestChannel _ _ => .frag .requestChannel
  | .requestN _ _ => .other .requestN
  | .cancel _ _ => .other .cancel
  | .payload _ _ => .frag .payload
  | .error _ _ => .other .error
  | .metadataPush _ _ => .other .metadataPush
  | .resume _ _ => .other .resume
  | .resumeOk _ _ => .other .resumeOk
  | .ext _ _ => .other .ext
  | .next _ _ => .frag .payload
  | .complete _ _ => .frag .payload
  | .nextComplete _ _ => .frag .payload

/-- The mnemonic of an instruction (30_encoding.md R86, R87). -/
def Instr.mnemonic : Instr → Mnemonic
  | .setup _ _ => .setup
  | .lease _ _ => .lease
  | .keepalive _ _ => .keepalive
  | .requestResponse _ _ => .requestResponse
  | .requestFnf _ _ => .requestFnf
  | .requestStream _ _ => .requestStream
  | .requestChannel _ _ => .requestChannel
  | .requestN _ _ => .requestN
  | .cancel _ _ => .cancel
  | .payload _ _ => .payload
  | .error _ _ => .error
  | .metadataPush _ _ => .metadataPush
  | .resume _ _ => .resume
  | .resumeOk _ _ => .resumeOk
  | .ext _ _ => .ext
  | .next _ _ => .nextPayload
  | .complete _ _ => .complete
  | .nextComplete _ _ => .nextComplete

/-- The bytes of a format P payload region (30_encoding.md R89). -/
def Payload.bytes : Payload → Bytes
  | .full md data => metadataField md ++ data
  | .cut raw => raw

/-- The bytes of a format NP frame after its header (30_encoding.md R88, R89). -/
def NPayload.bytes : NPayload → Bytes
  | .full n md data => ube Config.irnSize n.toNat ++ metadataField md ++ data
  | .cut raw => raw

/-- The bytes of an instruction after its header. -/
def Instr.body : Instr → Bytes
  | .setup _ b | .lease _ b | .keepalive _ b | .requestN _ b | .cancel _ b | .error _ b | .metadataPush _ b
  | .resume _ b | .resumeOk _ b | .ext _ b => b
  | .requestResponse _ p | .requestFnf _ p | .payload _ p | .next _ p | .complete _ p | .nextComplete _ p => p.bytes
  | .requestStream _ p | .requestChannel _ p => p.bytes

/-- The encoder: the wire frame of an instruction (30_encoding.md R82 to R89). -/
def encode (i : Instr) : Bytes := headerBytes i.head.reserved i.head.sid i.type.code i.head.flags ++ i.body

/-! ### Table words -/

/-- The wire frame of a table word. spec/opcode_table.json numbers a frame's bits as the 48-bit header number
`hdr = be(frame[0..6))` (30_encoding.md R82, R87), so bits 15:10 are the type and bits 46:16 the stream id. The bytes
after the header are the operand bytes of zeros that the type and its M bit call for: the type prefix and the metadata
length. -/
def tableFrame (nbits w : Nat) : Bytes :=
  let hdr := ube Config.headerSize (w % 2 ^ nbits)
  match parseHeader hdr with
  | .ok h =>
    match h.type with
    | .frag t => hdr ++ List.replicate (t.prefixSize + if mSet h.flags then Config.mdlenSize else 0) 0#8
    | .other _ => hdr
  | _ => hdr

/-- The instruction this decoder reads from a table word. -/
def decodeTableWord (nbits w : Nat) : Option Instr :=
  match decode (tableFrame nbits w) with
  | .ok i => some i
  | _ => none

/-! ### The text form -/

/-- A frame in the text form of 30_encoding.md R98, after its characters have been read: the TYPE, `sid=`, and what
was written of `fl=`, `n=`, `md=`, `data=` and `body=`. -/
structure TextFrame where
  mnemonic : Mnemonic
  sid      : StreamId
  fl       : Option Flags := none
  n        : Option (BitVec 32) := none
  md       : Option Bytes := none
  data     : Option Bytes := none
  body     : Option Bytes := none
  deriving DecidableEq, Repr

/-- The wire type a mnemonic stands for, with the N and C bits an alias adds (30_encoding.md R87, R99). -/
def Mnemonic.wire : Mnemonic → WireType × Flags
  | .setup => (.other .setup, 0#10)
  | .lease => (.other .lease, 0#10)
  | .keepalive => (.other .keepalive, 0#10)
  | .requestResponse => (.frag .requestResponse, 0#10)
  | .requestFnf => (.frag .requestFnf, 0#10)
  | .requestStream => (.frag .requestStream, 0#10)
  | .requestChannel => (.frag .requestChannel, 0#10)
  | .requestN => (.other .requestN, 0#10)
  | .cancel => (.other .cancel, 0#10)
  | .payload => (.frag .payload, 0#10)
  | .error => (.other .error, 0#10)
  | .metadataPush => (.other .metadataPush, 0#10)
  | .resume => (.other .resume, 0#10)
  | .resumeOk => (.other .resumeOk, 0#10)
  | .ext => (.other .ext, 0#10)
  | .nextPayload => (.frag .payload, flagN)
  | .complete => (.frag .payload, flagC)
  | .nextComplete => (.frag .payload, flagN ||| flagC)

/-- The type prefix `n=` gives: present exactly for the two types that have one (30_encoding.md R98). -/
def textPrefix (t : FragType) (n : Option (BitVec 32)) : Option Bytes :=
  match t.prefixSize, n with
  | 0, none => some []
  | 0, some _ => none
  | _, some v => some (ube Config.irnSize v.toNat)
  | _, none => none

/-- The wire frame a text frame stands for; `none` when the text is ill-formed (30_encoding.md R98, R99): fields of the
other class, `n=` missing or out of place, an alias with an `fl=` that sets the N or C the alias clears, or M written in
`fl=` of a frame without `md=`. M follows from `md=`. -/
def assemble (x : TextFrame) : Option Bytes :=
  match x.mnemonic.wire with
  | (.other t, _) =>
    if x.n.isSome || x.md.isSome || x.data.isSome then none
    else some (encodeOpaque x.sid t (x.fl.getD 0#10) (x.body.getD []))
  | (.frag t, aliasFlags) =>
    let fl := x.fl.getD 0#10
    if x.body.isSome || mSet fl then none
    else if aliasFlags ≠ 0#10 && (fl &&& (flagN ||| flagC) &&& ~~~aliasFlags) ≠ 0#10 then none
    else
      match textPrefix t x.n with
      | none => none
      | some pre =>
        match encodeFrame x.sid (.frag t) (fl ||| aliasFlags) pre x.md (x.data.getD []) with
        | .ok bs => some bs
        | _ => none

end Sys2Proof
end

