-- ==== Sys2Proof/Machine/State.lean ====
section
/-!
DEFINITION. The state of one RSFC instance (10_state.md R20): the three configuration registers, the fragmenter register
file, the reassembler table, `DISPOSED` and the send queue; beside them the model's own fields, which hold as plain data
what the spec passes in and out of a step (10_state.md R21, R37; 00_scope.md R14): the operation in hand, the events
waiting to be taken, and what has been handed to the neighbours. INVENTORY.md lists each field with its rule.
-/

namespace Sys2Proof.Machine

/-- The fragmenter registers `FR.*` other than `FR.busy`, while a sequence is in progress (10_state.md R27 to R31). -/
structure FragSeq where
  /-- `FR.sid` (R27) -/
  sid     : StreamId
  /-- `FR.type` (R27), one of the codes 4, 5, 6, 7, 10 -/
  type    : FragType
  /-- `FR.oflags` (R27) -/
  oflags  : Flags
  /-- `FR.prefix` (R28) -/
  pre     : Bytes
  /-- `FR.md` (R29) -/
  md      : Bytes
  /-- `FR.md_off` (R29) -/
  mdOff   : Nat
  /-- `FR.md_open` (R29) -/
  mdOpen  : Bool
  /-- `FR.data` (R30) -/
  data    : Bytes
  /-- `FR.data_off` (R30) -/
  dataOff : Nat
  /-- `FR.first` (R31) -/
  isFirst : Bool
  deriving DecidableEq, Repr

/-- An entry of `REASM` (10_state.md R32). -/
structure Entry where
  /-- `e.type`: the wire type of the first fragment -/
  type    : FragType
  /-- `e.flags`: the flags of the first fragment as received -/
  flags   : Flags
  /-- `e.prefix`: the first fragment's type prefix, bit-exact -/
  pre     : Bytes
  /-- `e.md_acc`: the metadata accumulator -/
  mdAcc   : Bytes
  /-- `e.data_acc`: the data accumulator -/
  dataAcc : Bytes
  /-- `e.any_md`: whether a fragment of the chain so far had M set -/
  anyMd   : Bool
  deriving DecidableEq, Repr

/-- The reassembler table `REASM`, a finite partial map (10_state.md R32) as a list of key and entry in one canonical
form: strictly rising stream ids (`Table.wf` of Machine/Ops.lean). -/
abbrev Table := List (StreamId × Entry)

/-- An error event `(kind, sid)` on the block's error output (10_state.md R37). -/
structure ErrorEvent where
  kind : ErrorKind
  sid  : Option StreamId
  deriving DecidableEq, Repr

/-- The stateful operations that act on one frame: what a frame is being executed for. -/
inductive FrameOp where
  | send        -- SEND (44_adapter_ops.md R242)
  | reassemble  -- REASSEMBLE (43_reassembler.md R201), of which RECEIVE is UNWRAP and then this (R246)
  | fragStart   -- FRAG_START (42_fragmenter.md R171)
  deriving DecidableEq, Repr

/-- A call of a codec function by the upstream engine (60_exceptions.md R276; 41_codec_ops.md). -/
inductive CodecCall where
  | parseHeader (bs : Bytes)
  | classify (type : WireType) (fl : Flags)
  | offsets (sid : StreamId) (bs : Bytes) (type : WireType) (fl : Flags)
  | encode (sid : StreamId) (type : WireType) (fl : Flags) (pre : Bytes) (md : Option Bytes) (data : Bytes)
  | encodeOpaque (sid : StreamId) (type : OtherType) (fl : Flags) (body : Bytes)
  | sliceMetadata (bs : Bytes) (type : WireType)
  | sliceData (bs : Bytes) (type : WireType)
  | initialRequestN (bs : Bytes)
  | split (bs : Bytes)
  | lenEncode (bs : Bytes)
  | lenDecode (buf : Bytes)
  | frameLength (bs : Bytes)
  | wrap (bs : Bytes)
  | unwrap (buf : Bytes)
  deriving DecidableEq, Repr

/-- What a codec function or `is_disposed` returns to its caller. -/
inductive Reply where
  | header (h : Header)
  | mnemonic (m : Mnemonic)
  | offsets (o : Offsets)
  | bytes (bs : Bytes)
  | metadata (md : Option Bytes)
  | irn (n : BitVec 32)
  | parts (h : Header) (p : Parts)
  | length (n : Nat)
  | isDisposed (b : Bool)
  | raised (k : ErrorKind) (sid : Option StreamId)
  | refused (r : RefuseReason)
  deriving DecidableEq, Repr

/-- The events a neighbour can cause (60_exceptions.md R273; 70_reset_and_hazards.md R315), with the direct calls of the
units' own operations that 42_fragmenter.md R172 and 43_reassembler.md R201 speak of, and the codec calls. -/
inductive Event where
  | send (bs : Bytes)             -- SEND (R242)
  | sendMany (frames : List Bytes) -- SEND_MANY (R244)
  | pull                          -- PULL (R245)
  | receive (buf : Bytes)         -- RECEIVE (R246)
  | close                         -- CLOSE (R247)
  | transportFailure              -- TRANSPORT_FAILURE (R248)
  | cancelTx                      -- CANCEL_TX (R185)
  | cancelRx                      -- CANCEL_RX (R250)
  | dispose                       -- DISPOSE (R215)
  | isDisposed                    -- is_disposed (R251)
  | reassemble (bs : Bytes)       -- REASSEMBLE (R201)
  | fragStart (bs : Bytes)        -- FRAG_START (R171)
  | fragNext                      -- FRAG_NEXT (R174)
  | codec (c : CodecCall)         -- the codec functions (R140 to R154)
  deriving DecidableEq, Repr

/-- The state of one instance. -/
structure State where
  /-- `MTU` (10_state.md R22); 0 is "fragmentation disabled" -/
  mtu               : Nat
  /-- `ENCODE_LENGTH` (R23) -/
  encodeLength      : Bool
  /-- `MAX_REASSEMBLY_SIZE` (R24); 0 is "no cap" -/
  maxReassemblySize : Nat
  /-- The fragmenter: `FR.busy` is whether a sequence is there, and the other `FR.*` have a value only then (R25, R26) -/
  fr                : Option FragSeq
  /-- `REASM` (R32) -/
  reasm             : Table
  /-- `DISPOSED` (R35) -/
  disposed          : Bool
  /-- `SQ`, oldest first (R36) -/
  sq                : List Bytes
  /-- Model's own: the operation the frame in hand was given to (R21) -/
  op                : FrameOp
  /-- Model's own: events that have occurred and are not yet taken, oldest first (60_exceptions.md R273) -/
  inbox             : List Event
  /-- Model's own: the wire buffers handed over by `emit_down`, oldest first (00_scope.md R14) -/
  down              : List Bytes
  /-- Model's own: the logical frames handed over by `emit_up`, oldest first (00_scope.md R14) -/
  up                : List Bytes
  /-- Model's own: the error events raised, oldest first (R37) -/
  errors            : List ErrorEvent
  /-- Model's own: the marks that refusals leave on the run, oldest first (70_reset_and_hazards.md R317) -/
  refusals          : List RefuseReason
  /-- Model's own: what codec functions and `is_disposed` returned, oldest first -/
  replies           : List Reply
  deriving DecidableEq, Repr

/-- Reasons to stop with a fault: there is none. Every error kind of the spec is an error event with its state change and
the block goes on (60_exceptions.md R270), so no instruction and no event stops this machine (log entry 6). -/
inductive Fault where
  deriving DecidableEq, Repr

/-- Reasons to stop for want of a meaning. -/
inductive Refusal where
  /-- An instruction without a meaning yet, by its mnemonic: raised only by an arm of `exec` that rejects its instruction.
  No arm does, so nothing raises it. Safe: a run that stops proves nothing about the block. -/
  | notModelled (mnemonic : String)
  deriving DecidableEq, Repr

/-- The machine right after reset, which is construction (70_reset_and_hazards.md R300; 10_state.md R41): no sequence in
progress, an empty table, not disposed, an empty queue, and nothing waiting or handed over. The configuration registers
hold the constructor's arguments; D0 gives no default for `mtu` and `encode_length` (R41), so this state takes 0, false
and no cap (log entry 1: DESIGN CHOICE). `State.construct` of Machine/Ops.lean is reset for every argument. -/
def State.reset : State where
  mtu := 0
  encodeLength := false
  maxReassemblySize := 0
  fr := none
  reasm := []
  disposed := false
  sq := []
  op := .reassemble
  inbox := []
  down := []
  up := []
  errors := []
  refusals := []
  replies := []

end Sys2Proof.Machine
end

