-- ==== Sys2Proof/Machine/Ops.lean ====
section
/-!
DEFINITION. The named operations over the state: construction (reset for every argument), the reassembler table as a
canonical finite map, the two outputs, DISPOSE, RAISING AN ERROR as one operation for all five kinds
(60_exceptions.md R260 to R267), and refusing (60_exceptions.md R272). There is no return from an error
(60_exceptions.md R271).
-/

namespace Sys2Proof.Machine

/-! ### Construction -/

/-- The value of `MTU` for the constructor's `mtu`: every non-positive argument means 0 (10_state.md R22). -/
def mtuOfArgument (mtu : Int) : Nat := mtu.toNat

/-- The value of `MAX_REASSEMBLY_SIZE` for the optional argument: absent means 0 (10_state.md R24). -/
def maxSizeOfArgument (max : Option Nat) : Nat := max.getD 0

/-- The configurations the spec admits: with `ENCODE_LENGTH = 1`, `MTU <= 0xFFFFFF` (70_reset_and_hazards.md R303). -/
def admitted (mtu : Nat) (encodeLength : Bool) : Bool := !encodeLength || mtu ≤ Config.maxU24

/-- Construction of an instance (44_adapter_ops.md R241; 70_reset_and_hazards.md R300): `none` for a configuration the
spec does not admit, "the model has no reset to such a configuration" (93_implementation_defined.md U16). -/
def State.construct (mtu : Int) (encodeLength : Bool) (max : Option Nat) : Option State :=
  if admitted (mtuOfArgument mtu) encodeLength then
    some { State.reset with
      mtu := mtuOfArgument mtu, encodeLength := encodeLength, maxReassemblySize := maxSizeOfArgument max }
  else none

/-! ### The reassembler table -/

/-- `REASM[sid]`, `none` when `sid` is IDLE (10_state.md R33). -/
def Table.lookup (sid : StreamId) : Table → Option Entry
  | [] => none
  | (k, e) :: t => if k = sid then some e else Table.lookup sid t

/-- `REASM[sid] <- e`: `phase(sid) <- COLLECTING` (10_state.md R33), keeping the keys strictly rising. -/
def Table.insert (sid : StreamId) (e : Entry) : Table → Table
  | [] => [(sid, e)]
  | (k, d) :: t =>
    if sid.toNat < k.toNat then (sid, e) :: (k, d) :: t
    else if k = sid then (sid, e) :: t
    else (k, d) :: Table.insert sid e t

/-- `phase(sid) <- IDLE`: remove the entry for `sid` (10_state.md R33). -/
def Table.erase (sid : StreamId) : Table → Table
  | [] => []
  | (k, d) :: t => if k = sid then Table.erase sid t else (k, d) :: Table.erase sid t

/-- The canonical form: stream ids strictly rising, so that equal maps are equal lists. -/
def Table.wf : Table → Bool
  | [] => true
  | [_] => true
  | (k, _) :: (k', e') :: t => k.toNat < k'.toNat && Table.wf ((k', e') :: t)

/-- The states of D0's per-stream state machine (10_state.md R33). -/
inductive Phase where
  | idle
  | collecting
  deriving DecidableEq, Repr

/-- `phase(sid)`, derived and not stored (10_state.md R33). -/
def State.phase (s : State) (sid : StreamId) : Phase :=
  if (Table.lookup sid s.reasm).isSome then .collecting else .idle

/-- `FR.busy` (10_state.md R26). -/
def State.busy (s : State) : Bool := s.fr.isSome

/-! ### Outputs -/

/-- `emit_down(buf)`: hand one wire buffer to the downstream channel (00_scope.md R14). -/
def emitDown (buf : Bytes) (s : State) : State := { s with down := s.down ++ [buf] }

/-- `emit_up(bs)`: hand one logical frame to the upstream engine (00_scope.md R14). -/
def emitUp (bs : Bytes) (s : State) : State := { s with up := s.up ++ [bs] }

/-- Return a value to the caller of a codec function or of `is_disposed`. -/
def reply (r : Reply) (s : State) : State := { s with replies := s.replies ++ [r] }

/-! ### DISPOSE, raising and refusing -/

/-- DISPOSE (43_reassembler.md R215): a second one changes nothing. -/
def dispose (s : State) : State := { s with reasm := [], fr := none, sq := [], disposed := true }

/-- The numeric code of an error kind (60_exceptions.md R266). -/
def errorCode : ErrorKind → Nat
  | .invalidFrameType => 1
  | .malformedFrame => 2
  | .reassemblyProtocolViolation => 3
  | .reassemblyTooLarge => 4
  | .transportFailure => 5

/-- The per-connection kinds, whose effect is a full DISPOSE (60_exceptions.md R267). -/
def perConnection : ErrorKind → Bool
  | .malformedFrame | .transportFailure => true
  | .invalidFrameType | .reassemblyProtocolViolation | .reassemblyTooLarge => false

/-- Remove the entry of the stream an error concerns. -/
def abortStream (sid : Option StreamId) (s : State) : State :=
  match sid with
  | some k => { s with reasm := Table.erase k s.reasm }
  | none => s

/-- The state changes an error kind's rule lists, and no others (60_exceptions.md R261 to R268). -/
def errorEffect (k : ErrorKind) (sid : Option StreamId) (s : State) : State :=
  match k with
  | .invalidFrameType => s
  | .malformedFrame => dispose s
  | .reassemblyProtocolViolation => abortStream sid s
  | .reassemblyTooLarge => abortStream sid s
  | .transportFailure => dispose s

/-- `raise k(sid)`: the state changes of the kind's rule and one error event (00_scope.md R14; 10_state.md R37). This is
all there is to "taking an exception" in this block: no handler, saved state, vector or mode (60_exceptions.md R270). -/
def raiseError (k : ErrorKind) (sid : Option StreamId) (s : State) : State :=
  let t := errorEffect k sid s
  { t with errors := t.errors ++ [{ kind := k, sid := sid }] }

/-- `refuse r`: no state change and no output; the refusal is kept as a mark on the run (00_scope.md R14;
60_exceptions.md R272; 70_reset_and_hazards.md R317). -/
def refuse (r : RefuseReason) (s : State) : State := { s with refusals := s.refusals ++ [r] }

/-- Go on with the value of a codec function, or take what it raised or refused in state `s`
(41_codec_ops.md R140: the state changes of an error are made by the stateful operation that called the function). -/
def onCodec {α : Type} (x : Codec α) (s : State) (k : α → State) : State :=
  match x with
  | .ok a => k a
  | .raised e sid => raiseError e sid s
  | .refused r => refuse r s

/-- Every operation but DISPOSE, CLOSE and `is_disposed` is refused on a disposed block (10_state.md R35). -/
def unlessDisposed (s : State) (t : State) : State := if s.disposed then refuse .disposed s else t

end Sys2Proof.Machine
end

