-- ==== Sys2Proof/Machine/CodecCalls.lean ====
section
/-!
DEFINITION. The codec functions as calls of the upstream engine (60_exceptions.md R276): each answers its caller and
changes no register of the block (41_codec_ops.md R140). An error is only reported to the caller; a refusal is also
marked on the run (70_reset_and_hazards.md R317).
-/

namespace Sys2Proof.Machine

/-- What a codec function returns to its caller. -/
def codecReply (encodeLength : Bool) : CodecCall → Codec Reply
  | .parseHeader bs => (parseHeader bs).bind fun h => .ok (.header h)
  | .classify t fl => .ok (.mnemonic (classify t fl))
  | .offsets sid bs t fl => (offsets sid bs t fl).bind fun o => .ok (.offsets o)
  | .encode sid t fl pre md data => (encodeFrame sid t fl pre md data).bind fun bs => .ok (.bytes bs)
  | .encodeOpaque sid t fl body => .ok (.bytes (encodeOpaque sid t fl body))
  | .sliceMetadata bs t => (sliceMetadata bs t).bind fun md => .ok (.metadata md)
  | .sliceData bs t => (sliceData bs t).bind fun d => .ok (.bytes d)
  | .initialRequestN bs => (initialRequestN bs).bind fun n => .ok (.irn n)
  | .split bs => (split bs).bind fun r => .ok (.parts r.1 r.2)
  | .lenEncode bs => (lenEncode bs).bind fun b => .ok (.bytes b)
  | .lenDecode buf => (lenDecode buf).bind fun b => .ok (.bytes b)
  | .frameLength bs => .ok (.length (frameLength bs))
  | .wrap bs => (wrap encodeLength bs).bind fun b => .ok (.bytes b)
  | .unwrap buf => (unwrap encodeLength buf).bind fun b => .ok (.bytes b)

/-- A codec call: the reply, and the mark of a refusal. -/
def callCodec (c : CodecCall) (s : State) : State :=
  match codecReply s.encodeLength c with
  | .ok r => reply r s
  | .raised k sid => reply (.raised k sid) s
  | .refused r => refuse r (reply (.refused r) s)

end Sys2Proof.Machine
end

