-- ==== Sys2Proof/Machine/Operands.lean ====
section
/-!
DEFINITION. The operand forms of a frame as the operations see them: its bytes as they arrived, its header fields, and
for a fragmentable frame its parts where the bytes are there (what SPLIT gives, 41_codec_ops.md R149).
-/

namespace Sys2Proof.Machine

/-- What follows the header: nothing the block reads, for a non-fragmentable type (40_frame_types.md R112); the parts for
a fragmentable type, `none` when the bytes are cut short (60_exceptions.md R262 (b)). -/
inductive FrameBody where
  | other (t : OtherType)
  | frag (t : FragType) (parts : Option Parts)
  deriving DecidableEq, Repr

/-- A frame handed to an operation. -/
structure Frame where
  bytes : Bytes
  sid   : StreamId
  flags : Flags
  body  : FrameBody
  deriving DecidableEq, Repr

/-- The parts of format P operands: no type prefix (30_encoding.md R88). -/
def payloadParts : Payload → Option Parts
  | .full md data => some { pre := [], md := md, data := data }
  | .cut _ => none

/-- The parts of format NP operands: `initial_request_n` as its four bytes, bit-exact (10_state.md R28). -/
def nPayloadParts : NPayload → Option Parts
  | .full n md data => some { pre := ube Config.irnSize n.toNat, md := md, data := data }
  | .cut _ => none

/-- A frame of a non-fragmentable type: header and opaque body (40_frame_types.md R112). -/
def otherFrame (t : OtherType) (h : Head) (body : Bytes) : Frame :=
  { bytes := headerBytes h.reserved h.sid t.code h.flags ++ body, sid := h.sid, flags := h.flags, body := .other t }

/-- A frame of format P (30_encoding.md R80). -/
def payloadFrame (t : FragType) (h : Head) (p : Payload) : Frame :=
  { bytes := headerBytes h.reserved h.sid t.code h.flags ++ p.bytes, sid := h.sid, flags := h.flags,
    body := .frag t (payloadParts p) }

/-- A frame of format NP (30_encoding.md R80). -/
def nPayloadFrame (t : FragType) (h : Head) (p : NPayload) : Frame :=
  { bytes := headerBytes h.reserved h.sid t.code h.flags ++ p.bytes, sid := h.sid, flags := h.flags,
    body := .frag t (nPayloadParts p) }

/-- The frame of an instruction; the aliases are PAYLOAD frames (30_encoding.md R87). -/
def frameOf : Instr → Frame
  | .setup h b => otherFrame .setup h b
  | .lease h b => otherFrame .lease h b
  | .keepalive h b => otherFrame .keepalive h b
  | .requestResponse h p => payloadFrame .requestResponse h p
  | .requestFnf h p => payloadFrame .requestFnf h p
  | .requestStream h p => nPayloadFrame .requestStream h p
  | .requestChannel h p => nPayloadFrame .requestChannel h p
  | .requestN h b => otherFrame .requestN h b
  | .cancel h b => otherFrame .cancel h b
  | .payload h p => payloadFrame .payload h p
  | .error h b => otherFrame .error h b
  | .metadataPush h b => otherFrame .metadataPush h b
  | .resume h b => otherFrame .resume h b
  | .resumeOk h b => otherFrame .resumeOk h b
  | .ext h b => otherFrame .ext h b
  | .next h p => payloadFrame .payload h p
  | .complete h p => payloadFrame .payload h p
  | .nextComplete h p => payloadFrame .payload h p

/-- A frame read from bytes by the decoder. -/
def parseFrame (bs : Bytes) : Codec Frame := (decode bs).bind fun i => .ok (frameOf i)

end Sys2Proof.Machine
end

