-- ==== Sys2Proof/Machine/Fragmenter.lean ====
section
/-!
DEFINITION. The fragmenter C2 (42_fragmenter.md): FRAG_START loads a logical frame into the fragmenter registers,
FRAG_NEXT produces the next wire fragment by BUDGET, FLAGS, ENCODE and WRAP, CANCEL_TX idles it.
-/

namespace Sys2Proof.Machine

/-- The smallest `MTU` a type can be fragmented under (42_fragmenter.md R173). -/
def mtuFloor (t : FragType) : Nat := Config.headerSize + t.prefixSize + 4

/-- FRAG_START's checks and the registers it loads (42_fragmenter.md R171 to R173). The frame's own F bit is captured with
the other flags and never read. -/
def loadSequence (mtu : Nat) (f : Frame) : Codec FragSeq :=
  match f.body with
  | .other _ => .raised .invalidFrameType (some f.sid)
  | .frag t parts =>
    if mtu < mtuFloor t then .refused .mtuTooSmall
    else
      match parts with
      | none => .raised .malformedFrame (some f.sid)
      | some p =>
        .ok { sid := f.sid, type := t, oflags := f.flags, pre := p.pre, md := p.md.getD [], mdOff := 0,
              mdOpen := mSet f.flags, data := p.data, dataOff := 0, isFirst := true }

/-- What BUDGET gives (42_fragmenter.md R175): the fragment's metadata and data, and the cursors after it. -/
structure Budget where
  fmd     : Option Bytes
  fdata   : Bytes
  mdOff   : Nat
  mdOpen  : Bool
  dataOff : Nat
  deriving DecidableEq, Repr

/-- Steps 1 and 2 of the MTU accounting: what is left of `MTU` after the header and, on the first fragment, the type
prefix (42_fragmenter.md R175). -/
def budgetAfterHeader (mtu : Nat) (q : FragSeq) : Nat :=
  mtu - Config.headerSize - (if q.isFirst then q.pre.length else 0)

/-- How many metadata bytes the fragment takes when metadata remains: step 3 (42_fragmenter.md R175). -/
def metadataTaken (mtu : Nat) (q : FragSeq) : Nat :=
  min (budgetAfterHeader mtu q - Config.mdlenSize) (q.md.length - q.mdOff)

/-- Step 4 with `m` bytes left: the data the fragment takes and the new `FR.data_off` (42_fragmenter.md R175). -/
def dataTaken (m : Nat) (q : FragSeq) : Nat :=
  if 0 < m ∧ q.dataOff < q.data.length then min m (q.data.length - q.dataOff) else 0

/-- BUDGET, the MTU accounting (42_fragmenter.md R175). -/
def budget (mtu : Nat) (q : FragSeq) : Budget :=
  let m := budgetAfterHeader mtu q
  if q.mdOpen then
    let r := metadataTaken mtu q
    let d := dataTaken (m - Config.mdlenSize - r) q
    { fmd := some (slice q.md q.mdOff (q.mdOff + r)), fdata := slice q.data q.dataOff (q.dataOff + d),
      mdOff := q.mdOff + r, mdOpen := q.mdOff + r < q.md.length, dataOff := q.dataOff + d }
  else
    let d := dataTaken m q
    { fmd := none, fdata := slice q.data q.dataOff (q.dataOff + d),
      mdOff := q.mdOff, mdOpen := false, dataOff := q.dataOff + d }

/-- Whether more fragments follow this one (42_fragmenter.md R174). -/
def moreAfter (q : FragSeq) (b : Budget) : Bool := b.mdOpen || b.dataOff < q.data.length

/-- The wire type of the fragment (42_fragmenter.md R177). -/
def fragmentType (q : FragSeq) : FragType := if q.isFirst then q.type else .payload

/-- The type prefix of the fragment (42_fragmenter.md R177). -/
def fragmentPrefix (q : FragSeq) : Bytes := if q.isFirst then q.pre else []

/-- The bytes of the next fragment, a wire frame (42_fragmenter.md R178). -/
def fragmentFrame (mtu : Nat) (q : FragSeq) : Codec Bytes :=
  let b := budget mtu q
  encodeFrame q.sid (.frag (fragmentType q)) (fragmentFlags q.type q.oflags q.isFirst (moreAfter q b))
    (fragmentPrefix q) b.fmd b.fdata

/-- The registers after the fragment, `none` when the sequence is over (42_fragmenter.md R179). -/
def advance (mtu : Nat) (q : FragSeq) : Option FragSeq :=
  let b := budget mtu q
  if moreAfter q b then
    some { q with mdOff := b.mdOff, mdOpen := b.mdOpen, dataOff := b.dataOff, isFirst := false }
  else none

/-- The wire buffer FRAG_NEXT emits: the fragment, wrapped (42_fragmenter.md R174, R178). -/
def fragmentBuffer (mtu : Nat) (encodeLength : Bool) (q : FragSeq) : Codec Bytes :=
  (fragmentFrame mtu q).bind (wrap encodeLength)

/-- One element of the sequence `q` (42_fragmenter.md R174): emit the buffer, then update the registers. -/
def produceFragment (q : FragSeq) (s : State) : State :=
  onCodec (fragmentBuffer s.mtu s.encodeLength q) s fun buf => { emitDown buf s with fr := advance s.mtu q }

/-- FRAG_NEXT (42_fragmenter.md R174). -/
def fragNext (s : State) : State :=
  unlessDisposed s <|
    match s.fr with
    | none => refuse .noSequence s
    | some q => produceFragment q s

/-- FRAG_START of a frame whose header has been read (42_fragmenter.md R171). It is enabled only while no sequence is in
progress: while one is, the operation is held and nothing has happened (44_adapter_ops.md R243; log entry 8). -/
def fragStartFrame (f : Frame) (s : State) : State :=
  unlessDisposed s <|
    if s.busy then s else onCodec (loadSequence s.mtu f) s fun q => { s with fr := some q }

/-- CANCEL_TX (42_fragmenter.md R185): the sequence in progress and the queue are dropped, `DISPOSED` is not set. -/
def cancelTx (s : State) : State := unlessDisposed s { s with fr := none, sq := [] }

end Sys2Proof.Machine
end

