-- ==== Sys2Proof/Machine/Reassembler.lean ====
section
/-!
DEFINITION. The reassembler C3 (43_reassembler.md): the per-stream state machine of REASSEMBLE with its cases PASS, OPEN,
APPEND, EMIT, VIOLATION and TOO_LARGE. DISPOSE is in Machine/Ops.lean.
-/

namespace Sys2Proof.Machine

/-- TOO_LARGE(e) (43_reassembler.md R214): equality with the cap is allowed, 0 is no cap, and metadata that no 24-bit
length can describe is too large whatever the cap. -/
def tooLarge (maxSize : Nat) (e : Entry) : Bool :=
  (0 < maxSize && maxSize < e.mdAcc.length + e.dataAcc.length) || Config.maxU24 < e.mdAcc.length

/-- The entry OPEN records for a first fragment (43_reassembler.md R204). -/
def openEntry (t : FragType) (fl : Flags) (p : Parts) : Entry :=
  { type := t, flags := fl, pre := p.pre, mdAcc := p.md.getD [], dataAcc := p.data, anyMd := mSet fl }

/-- The entry after APPEND of a continuation (43_reassembler.md R208): only the metadata bytes are appended, not their
length. -/
def appendEntry (e : Entry) (p : Parts) : Entry :=
  { e with mdAcc := e.mdAcc ++ p.md.getD [], dataAcc := e.dataAcc ++ p.data, anyMd := e.anyMd || p.md.isSome }

/-- The logical frame EMIT builds (43_reassembler.md R209 to R212): type, stream id and prefix of the first fragment, F
cleared, M set iff a fragment of the chain had M set, never a frame-length prefix. -/
def reassembledFrame (sid : StreamId) (e : Entry) (terminalFlags : Flags) : Codec Bytes :=
  encodeFrame sid (.frag e.type) (emittedFlags e.type e.flags terminalFlags) e.pre
    (if e.anyMd then some e.mdAcc else none) e.dataAcc

/-- OPEN: IDLE, F set, fragmentable type (43_reassembler.md R204). -/
def openChain (t : FragType) (parts : Option Parts) (f : Frame) (s : State) : State :=
  match parts with
  | none => raiseError .malformedFrame (some f.sid) s
  | some p =>
    let e := openEntry t f.flags p
    if tooLarge s.maxReassemblySize e then raiseError .reassemblyTooLarge (some f.sid) s
    else { s with reasm := Table.insert f.sid e s.reasm }

/-- COLLECTING and type PAYLOAD: APPEND, and with F clear EMIT after it (43_reassembler.md R205, R206, R208, R212). -/
def continueChain (e : Entry) (parts : Option Parts) (f : Frame) (s : State) : State :=
  match parts with
  | none => raiseError .malformedFrame (some f.sid) s
  | some p =>
    let e' := appendEntry e p
    if tooLarge s.maxReassemblySize e' then raiseError .reassemblyTooLarge (some f.sid) s
    else if fSet f.flags then { s with reasm := Table.insert f.sid e' s.reasm }
    else
      onCodec (reassembledFrame f.sid e' f.flags) s fun out =>
        emitUp out { s with reasm := Table.erase f.sid s.reasm }

/-- REASSEMBLE on an IDLE stream: PASS or OPEN (43_reassembler.md R202 to R204). -/
def reassembleIdle (f : Frame) (s : State) : State :=
  match f.body with
  | .other _ => emitUp f.bytes s
  | .frag t parts => if fSet f.flags then openChain t parts f s else emitUp f.bytes s

/-- REASSEMBLE on a COLLECTING stream: a continuation, or VIOLATION (43_reassembler.md R205 to R207). -/
def reassembleCollecting (e : Entry) (f : Frame) (s : State) : State :=
  match f.body with
  | .frag .payload parts => continueChain e parts f s
  | .other _ | .frag .requestResponse _ | .frag .requestFnf _ | .frag .requestStream _ | .frag .requestChannel _ =>
    raiseError .reassemblyProtocolViolation (some f.sid) s

/-- REASSEMBLE of a frame whose header has been read (43_reassembler.md R201). -/
def reassembleFrame (f : Frame) (s : State) : State :=
  unlessDisposed s <|
    match Table.lookup f.sid s.reasm with
    | none => reassembleIdle f s
    | some e => reassembleCollecting e f s

end Sys2Proof.Machine
end

