-- ==== Sys2Proof/Machine/Adapter.lean ====
section
/-!
DEFINITION. The host contract C4 around the block (44_adapter_ops.md): SEND's dispatch, PULL, CLOSE, TRANSPORT_FAILURE,
CANCEL_RX and `is_disposed`; and `onFrame`, which runs one frame for the operation in hand.
-/

namespace Sys2Proof.Machine

/-- `use_c2` for a frame (44_adapter_ops.md R242): fragmentable, fragmentation enabled, strictly longer than `MTU`. -/
def useC2 (mtu : Nat) (f : Frame) : Bool :=
  match f.body with
  | .other _ => false
  | .frag _ _ => 0 < mtu && mtu < frameLength f.bytes

/-- The checks SEND makes when it accepts a frame, so that nothing queued can fail later (44_adapter_ops.md R242). -/
def sendCheck (mtu : Nat) (encodeLength : Bool) (f : Frame) : Codec Unit :=
  if useC2 mtu f then (loadSequence mtu f).bind fun _ => .ok ()
  else if encodeLength && Config.maxU24 < f.bytes.length then .refused .fieldOverflow
  else .ok ()

/-- SEND of a frame whose header has been read (44_adapter_ops.md R242). -/
def sendFrame (f : Frame) (s : State) : State :=
  unlessDisposed s <|
    onCodec (sendCheck s.mtu s.encodeLength f) s fun _ => { s with sq := s.sq ++ [f.bytes] }

/-- Run a frame for the operation in hand. -/
def onFrame (f : Frame) (s : State) : State :=
  match s.op with
  | .send => sendFrame f s
  | .reassemble => reassembleFrame f s
  | .fragStart => fragStartFrame f s

/-- PULL starting the frame `f` that has left the queue (44_adapter_ops.md R245): FRAG_START and FRAG_NEXT, or one write.
What a check refuses or raises here, which SEND has ruled out, is taken in the state `s` before the PULL
(60_exceptions.md R268). -/
def startQueued (f : Frame) (rest : List Bytes) (s : State) : State :=
  if useC2 s.mtu f then
    onCodec ((loadSequence s.mtu f).bind fun q => (fragmentBuffer s.mtu s.encodeLength q).bind fun buf => .ok (q, buf)) s
      fun r => { emitDown r.2 s with sq := rest, fr := advance s.mtu r.1 }
  else
    onCodec (wrap s.encodeLength f.bytes) s fun buf => { emitDown buf s with sq := rest }

/-- PULL, one demand signal (44_adapter_ops.md R245): continue the chain, else start the next queued frame, else nothing.
A frame leaves the queue only while the fragmenter is idle (R243). -/
def pull (s : State) : State :=
  unlessDisposed s <|
    match s.fr with
    | some q => produceFragment q s
    | none =>
      match s.sq with
      | [] => s
      | bs :: rest => onCodec (parseFrame bs) s fun f => startQueued f rest s

/-- CLOSE is DISPOSE (44_adapter_ops.md R247). -/
def close (s : State) : State := dispose s

/-- TRANSPORT_FAILURE (44_adapter_ops.md R248): DISPOSE and one error event without a stream id. -/
def transportFailure (s : State) : State := unlessDisposed s (raiseError .transportFailure none s)

/-- CANCEL_RX (44_adapter_ops.md R250): the table is emptied and nothing else changes. -/
def cancelRx (s : State) : State := unlessDisposed s { s with reasm := [] }

/-- `is_disposed` reads `DISPOSED` (44_adapter_ops.md R251); it is never refused (10_state.md R35). -/
def isDisposed (s : State) : State := reply (.isDisposed s.disposed) s

end Sys2Proof.Machine
end

