-- ==== Sys2Proof/Machine/OtherFrames.lean ====
section
/-!
DEFINITION. The meanings of the ten non-fragmentable frame types (40_frame_types.md R112 to R115, R120, R121, R123 to
R127): SEND enqueues the frame as it is whatever `MTU` is, REASSEMBLE passes it up on an IDLE stream and raises
ReassemblyProtocolViolation on a COLLECTING one, and a direct FRAG_START raises InvalidFrameType.
-/

namespace Sys2Proof.Machine

/-- SETUP (40_frame_types.md R113). -/
def execSetup (h : Head) (body : Bytes) (s : State) : Host.Outcome State Fault Refusal :=
  .next (onFrame (otherFrame .setup h body) s)

/-- LEASE (40_frame_types.md R114). -/
def execLease (h : Head) (body : Bytes) (s : State) : Host.Outcome State Fault Refusal :=
  .next (onFrame (otherFrame .lease h body) s)

/-- KEEPALIVE (40_frame_types.md R115). -/
def execKeepalive (h : Head) (body : Bytes) (s : State) : Host.Outcome State Fault Refusal :=
  .next (onFrame (otherFrame .keepalive h body) s)

/-- REQUEST_N (40_frame_types.md R120). -/
def execRequestN (h : Head) (body : Bytes) (s : State) : Host.Outcome State Fault Refusal :=
  .next (onFrame (otherFrame .requestN h body) s)

/-- CANCEL (40_frame_types.md R121). -/
def execCancel (h : Head) (body : Bytes) (s : State) : Host.Outcome State Fault Refusal :=
  .next (onFrame (otherFrame .cancel h body) s)

/-- ERROR (40_frame_types.md R123). -/
def execError (h : Head) (body : Bytes) (s : State) : Host.Outcome State Fault Refusal :=
  .next (onFrame (otherFrame .error h body) s)

/-- METADATA_PUSH (40_frame_types.md R124). -/
def execMetadataPush (h : Head) (body : Bytes) (s : State) : Host.Outcome State Fault Refusal :=
  .next (onFrame (otherFrame .metadataPush h body) s)

/-- RESUME (40_frame_types.md R125). -/
def execResume (h : Head) (body : Bytes) (s : State) : Host.Outcome State Fault Refusal :=
  .next (onFrame (otherFrame .resume h body) s)

/-- RESUME_OK (40_frame_types.md R126). -/
def execResumeOk (h : Head) (body : Bytes) (s : State) : Host.Outcome State Fault Refusal :=
  .next (onFrame (otherFrame .resumeOk h body) s)

/-- EXT (40_frame_types.md R127). -/
def execExt (h : Head) (body : Bytes) (s : State) : Host.Outcome State Fault Refusal :=
  .next (onFrame (otherFrame .ext h body) s)

end Sys2Proof.Machine
end

