-- ==== Sys2Proof/Machine/PayloadFrames.lean ====
section
/-!
DEFINITION. The meanings of PAYLOAD and its three aliases (40_frame_types.md R111, R122, R128 to R130). On the wire and in
every rule the four are type code 10 and have the semantics of R122: on an IDLE stream a PAYLOAD frame passes up or opens
a PAYLOAD chain, on a COLLECTING stream it continues or completes the chain.
-/

namespace Sys2Proof.Machine

/-- PAYLOAD (40_frame_types.md R122). -/
def execPayload (h : Head) (p : Payload) (s : State) : Host.Outcome State Fault Refusal :=
  .next (onFrame (payloadFrame .payload h p) s)

/-- NEXT (40_frame_types.md R128). -/
def execNext (h : Head) (p : Payload) (s : State) : Host.Outcome State Fault Refusal :=
  .next (onFrame (payloadFrame .payload h p) s)

/-- COMPLETE (40_frame_types.md R129). -/
def execComplete (h : Head) (p : Payload) (s : State) : Host.Outcome State Fault Refusal :=
  .next (onFrame (payloadFrame .payload h p) s)

/-- NEXT_COMPLETE (40_frame_types.md R130). -/
def execNextComplete (h : Head) (p : Payload) (s : State) : Host.Outcome State Fault Refusal :=
  .next (onFrame (payloadFrame .payload h p) s)

end Sys2Proof.Machine
end

