-- ==== Sys2Proof/Machine/RequestFrames.lean ====
section
/-!
DEFINITION. The meanings of the four request types (40_frame_types.md R111, R116 to R119): SEND enqueues the frame, which
PULL writes whole or fragments; REASSEMBLE passes it up or opens a request chain on an IDLE stream and raises
ReassemblyProtocolViolation on a COLLECTING one; a direct FRAG_START loads it.
-/

namespace Sys2Proof.Machine

/-- REQUEST_RESPONSE (40_frame_types.md R116). -/
def execRequestResponse (h : Head) (p : Payload) (s : State) : Host.Outcome State Fault Refusal :=
  .next (onFrame (payloadFrame .requestResponse h p) s)

/-- REQUEST_FNF (40_frame_types.md R117). -/
def execRequestFnf (h : Head) (p : Payload) (s : State) : Host.Outcome State Fault Refusal :=
  .next (onFrame (payloadFrame .requestFnf h p) s)

/-- REQUEST_STREAM (40_frame_types.md R118). -/
def execRequestStream (h : Head) (p : NPayload) (s : State) : Host.Outcome State Fault Refusal :=
  .next (onFrame (nPayloadFrame .requestStream h p) s)

/-- REQUEST_CHANNEL (40_frame_types.md R119). -/
def execRequestChannel (h : Head) (p : NPayload) (s : State) : Host.Outcome State Fault Refusal :=
  .next (onFrame (nPayloadFrame .requestChannel h p) s)

end Sys2Proof.Machine
end

