-- ==== Sys2Proof/Machine/Dispatch.lean ====
section
/-!
DEFINITION. The dispatch: one arm per frame type, each one call of its meaning. The operation the frame is executed for
is `State.op`.
-/

namespace Sys2Proof.Machine

def exec (i : Instr) (s : State) : Host.Outcome State Fault Refusal :=
  match i with
  | .setup h body => Sys2Proof.Machine.execSetup h body s
  | .lease h body => Sys2Proof.Machine.execLease h body s
  | .keepalive h body => Sys2Proof.Machine.execKeepalive h body s
  | .requestResponse h p => Sys2Proof.Machine.execRequestResponse h p s
  | .requestFnf h p => Sys2Proof.Machine.execRequestFnf h p s
  | .requestStream h p => Sys2Proof.Machine.execRequestStream h p s
  | .requestChannel h p => Sys2Proof.Machine.execRequestChannel h p s
  | .requestN h body => Sys2Proof.Machine.execRequestN h body s
  | .cancel h body => Sys2Proof.Machine.execCancel h body s
  | .payload h p => Sys2Proof.Machine.execPayload h p s
  | .error h body => Sys2Proof.Machine.execError h body s
  | .metadataPush h body => Sys2Proof.Machine.execMetadataPush h body s
  | .resume h body => Sys2Proof.Machine.execResume h body s
  | .resumeOk h body => Sys2Proof.Machine.execResumeOk h body s
  | .ext h body => Sys2Proof.Machine.execExt h body s
  | .next h p => Sys2Proof.Machine.execNext h p s
  | .complete h p => Sys2Proof.Machine.execComplete h p s
  | .nextComplete h p => Sys2Proof.Machine.execNextComplete h p s

end Sys2Proof.Machine
end

