-- ==== Sys2Proof/Machine/Events.lean ====
section
/-!
DEFINITION. Taking one event of the neighbours (60_exceptions.md R273): which waiting event is taken, reading a frame and
running its instruction, RECEIVE, SEND_MANY, and the table of all events.
-/

namespace Sys2Proof.Machine

/-- Whether an event is held: a direct FRAG_START while a sequence is in progress is not enabled and has not started
(42_fragmenter.md R171; 44_adapter_ops.md R243; 00_scope.md R19). -/
def held (s : State) : Event → Bool
  | .fragStart _ => s.busy && !s.disposed
  | _ => false

/-- The event taken next: the oldest one that is not held, with those that stay (20_memory.md R62). -/
def takeEvent (s : State) : List Event → Option (Event × List Event)
  | [] => none
  | e :: es =>
    if held s e then (takeEvent s es).map fun r => (r.1, e :: r.2) else some (e, es)

/-- A frame given to an operation: read its header, then run its instruction. A header that cannot be read raises its
error (41_codec_ops.md R141), after the disposed refusal (60_exceptions.md R269). -/
def runFrame (op : FrameOp) (bs : Bytes) (s : State) : Host.Outcome State Fault Refusal :=
  match decode bs with
  | .ok i => exec i { s with op := op }
  | .raised k sid => .next (unlessDisposed s (raiseError k sid s))
  | .refused r => .next (unlessDisposed s (refuse r s))

/-- RECEIVE (44_adapter_ops.md R246): UNWRAP, then REASSEMBLE. -/
def receive (buf : Bytes) (s : State) : Host.Outcome State Fault Refusal :=
  if s.disposed then .next (refuse .disposed s)
  else
    match unwrap s.encodeLength buf with
    | .ok bs => runFrame .reassemble bs s
    | .raised k sid => .next (raiseError k sid s)
    | .refused r => .next (refuse r s)

/-- SEND_MANY: SEND applied to each frame in order (44_adapter_ops.md R244). -/
def sendMany : List Bytes → State → Host.Outcome State Fault Refusal
  | [], s => .next s
  | bs :: rest, s =>
    match runFrame .send bs s with
    | .next t => sendMany rest t
    | .fault r => .fault r
    | .refused r => .refused r

/-- What taking an event does. -/
def runEvent (e : Event) (s : State) : Host.Outcome State Fault Refusal :=
  match e with
  | .send bs => runFrame .send bs s
  | .sendMany frames => sendMany frames s
  | .pull => .next (pull s)
  | .receive buf => receive buf s
  | .close => .next (close s)
  | .transportFailure => .next (transportFailure s)
  | .cancelTx => .next (cancelTx s)
  | .cancelRx => .next (cancelRx s)
  | .dispose => .next (dispose s)
  | .isDisposed => .next (isDisposed s)
  | .reassemble bs => runFrame .reassemble bs s
  | .fragStart bs => runFrame .fragStart bs s
  | .fragNext => .next (fragNext s)
  | .codec c => .next (callCodec c s)

/-- A wire buffer holding one wire frame, as the downstream channel delivers it (44_adapter_ops.md R246;
70_reset_and_hazards.md R315): length-prefixed iff `ENCODE_LENGTH = 1`. -/
def wireBuffer (encodeLength : Bool) (bs : Bytes) : Bytes :=
  if encodeLength then ube Config.framelenSize bs.length ++ bs else bs

end Sys2Proof.Machine
end

