-- ==== Sys2Proof/Machine/Step.lean ====
section
/-!
DEFINITION. One step of the block: take one waiting event (60_exceptions.md R273) and run it whole (20_memory.md R62);
with none to take the block does nothing (44_adapter_ops.md R254). And where the next frame to run is read from.
-/

namespace Sys2Proof.Machine

/-- One step. -/
def step (s : State) : Host.Outcome State Fault Refusal :=
  match takeEvent s s.inbox with
  | none => .next s
  | some (e, rest) => runEvent e { s with inbox := rest }

/-- `s` with the frame of a table word delivered by the downstream channel as its next event, a RECEIVE. -/
def State.withFetchWord (s : State) (nbits w : Nat) : State :=
  { s with inbox := .receive (wireBuffer s.encodeLength (tableFrame nbits w)) :: s.inbox }

end Sys2Proof.Machine
end

