-- ==== Sys2Proof/WellFormed.lean ====
section
/-!
DEFINITION. Which instructions are well formed: those some byte sequence decodes to. For each constructor the N and C
bits its mnemonic stands for (30_encoding.md R87), the M bit in agreement with the metadata (00_scope.md R15,
30_encoding.md R89), metadata that a 24-bit length can describe (20_memory.md R55), and a `cut` region that is indeed
too short (60_exceptions.md R262 (b)).
-/

namespace Sys2Proof

/-- Whether `raw`, the bytes after the header, are too few for a type prefix of `p` bytes and, with M set, a metadata
length and the metadata it declares (60_exceptions.md R262 (b)). -/
def cutShort (p : Nat) (fl : Flags) (raw : Bytes) : Bool :=
  raw.length < p || (mSet fl && (raw.length < p + Config.mdlenSize
    || raw.length < p + Config.mdlenSize + be (slice raw p (p + Config.mdlenSize))))

/-- The metadata agrees with the M bit and fits a 24-bit length. -/
def metadataWf (fl : Flags) (md : Option Bytes) : Bool :=
  md.isSome == mSet fl && (md.getD []).length ≤ Config.maxU24

/-- Well-formed operands of a format P frame. -/
def Payload.wf (fl : Flags) : Payload → Bool
  | .full md _ => metadataWf fl md
  | .cut raw => cutShort 0 fl raw

/-- Well-formed operands of a format NP frame. -/
def NPayload.wf (fl : Flags) : NPayload → Bool
  | .full _ md _ => metadataWf fl md
  | .cut raw => cutShort Config.irnSize fl raw

/-- The N and C bits are those of the mnemonic (30_encoding.md R87). -/
def aliasWf (n c : Bool) (fl : Flags) : Bool := nSet fl == n && cSet fl == c

/-- Well-formed instructions. -/
def Instr.wf : Instr → Bool
  | .setup _ _ | .lease _ _ | .keepalive _ _ | .requestN _ _ | .cancel _ _ | .error _ _ | .metadataPush _ _
  | .resume _ _ | .resumeOk _ _ | .ext _ _ => true
  | .requestResponse h p | .requestFnf h p => p.wf h.flags
  | .requestStream h p | .requestChannel h p => p.wf h.flags
  | .payload h p => aliasWf false false h.flags && p.wf h.flags
  | .next h p => aliasWf true false h.flags && p.wf h.flags
  | .complete h p => aliasWf false true h.flags && p.wf h.flags
  | .nextComplete h p => aliasWf true true h.flags && p.wf h.flags

end Sys2Proof
end

