-- ==== Sys2Proof/Safety.lean ====
section
/-!
DEFINITION. The terms claims about the block use: the well-formed states (an invariant that every step keeps), the
configurations and launch premises of 70_reset_and_hazards.md R303 and R317, quiescence (R314), a clean run, the two OPEN
parameters, and the whole fragment sequence of a loaded frame.
-/

namespace Sys2Proof.Machine

/-! ### Configurations -/

/-- The `MTU` software must configure (70_reset_and_hazards.md R307): 0, or large enough for every fragmentable type. -/
def softwareMtu (mtu : Nat) : Prop := mtu = 0 ∨ 14 ≤ mtu

/-- The state's configuration is one the spec admits (70_reset_and_hazards.md R303). -/
def State.Admitted (s : State) : Prop := admitted s.mtu s.encodeLength = true

/-- The legal values of `MTU` (10_state.md R22; 70_reset_and_hazards.md R303): 0, or large enough for a type without
prefix. A block constructed with 1 to 9 exists and refuses every frame that is longer; it is no legal configuration. -/
def legalMtu (mtu : Nat) : Prop := mtu = 0 ∨ 10 ≤ mtu

/-- The state's configuration is one of the legal ones (70_reset_and_hazards.md R303). -/
def State.Legal (s : State) : Prop := legalMtu s.mtu ∧ s.Admitted

/-! ### Well-formed states -/

/-- A fragment sequence as FRAG_START and FRAG_NEXT leave it (10_state.md R27 to R31; 42_fragmenter.md R173, R179). -/
structure FragSeq.Wf (mtu : Nat) (q : FragSeq) : Prop where
  /-- `FR.prefix` has the length its type gives it (R28). -/
  prefixLength : q.pre.length = q.type.prefixSize
  /-- `MTU` is at least the floor of the type (R173). -/
  mtuFloor : mtuFloor q.type ≤ mtu
  /-- The metadata was sliced by a 24-bit length (R178). -/
  metadataLength : q.md.length ≤ Config.maxU24
  /-- `FR.md_off <= len(FR.md)` (R29). -/
  mdOff : q.mdOff ≤ q.md.length
  /-- `FR.data_off <= len(FR.data)` (R30). -/
  dataOff : q.dataOff ≤ q.data.length
  /-- With `FR.md_open` clear no metadata remains (R29). -/
  closed : q.mdOpen = false → q.mdOff = q.md.length
  /-- Data is taken only after the metadata is exhausted (R175). -/
  metadataFirst : 0 < q.dataOff → q.mdOpen = false
  /-- Nothing has been emitted before the first fragment (R31). -/
  fresh : q.isFirst = true → q.mdOff = 0 ∧ q.dataOff = 0
  /-- After the first fragment something remains to be emitted (R179). -/
  pending : q.isFirst = false →
    (q.mdOpen = true → q.mdOff < q.md.length) ∧ (q.mdOpen = true ∨ q.dataOff < q.data.length)

/-- An entry of the table as OPEN and APPEND leave it (10_state.md R32; 43_reassembler.md R204, R208, R214). -/
structure Entry.Wf (maxSize : Nat) (e : Entry) : Prop where
  /-- `e.prefix` has the length its type gives it. -/
  prefixLength : e.pre.length = e.type.prefixSize
  /-- The entry is within the size cap, and its metadata within a 24-bit length. -/
  size : tooLarge maxSize e = false
  /-- Metadata was accumulated only from fragments with M set. -/
  metadata : e.anyMd = false → e.mdAcc = []
  /-- The first fragment's M counts. -/
  firstM : mSet e.flags = true → e.anyMd = true
  /-- The first fragment had F set. -/
  followed : fSet e.flags = true

/-- A byte sequence that SEND accepts in a given configuration (44_adapter_ops.md R242). -/
def Sendable (mtu : Nat) (encodeLength : Bool) (bs : Bytes) : Prop :=
  ∃ f, parseFrame bs = .ok f ∧ sendCheck mtu encodeLength f = .ok ()

/-- The invariant of the block. -/
structure State.Inv (s : State) : Prop where
  /-- A disposed block holds nothing (10_state.md R35). -/
  disposed : s.disposed = true → s.reasm = [] ∧ s.fr = none ∧ s.sq = []
  /-- The table is in canonical form. -/
  table : Table.wf s.reasm = true
  /-- Every entry is well formed. -/
  entries : ∀ p ∈ s.reasm, p.2.Wf s.maxReassemblySize
  /-- The sequence in progress is well formed. -/
  sequence : ∀ q, s.fr = some q → q.Wf s.mtu
  /-- Everything queued was accepted by SEND's checks (44_adapter_ops.md R242). -/
  queue : ∀ bs ∈ s.sq, Sendable s.mtu s.encodeLength bs

/-! ### Runs -/

/-- Every accepted frame has been written out in full (70_reset_and_hazards.md R314). -/
def State.Quiescent (s : State) : Prop := s.fr = none ∧ s.sq = []

/-- A bound on the PULLs that a block still needs to be quiescent: one a byte that is queued or loaded, and one more for a
loaded sequence. -/
def State.work (s : State) : Nat :=
  (match s.fr with
    | some q => q.md.length + q.data.length + 1
    | none => 0) + (s.sq.map List.length).sum

/-- No error event was recorded and no refusal marked (70_reset_and_hazards.md R317). -/
def State.Clean (s : State) : Prop := s.errors = [] ∧ s.refusals = []

/-- The launch premises (70_reset_and_hazards.md R317); that no refusal is marked is `State.Clean`. -/
def State.Launch (s : State) : Prop :=
  s.disposed = false ∧ s.fr = none ∧ s.sq = [] ∧ s.reasm = [] ∧ s.errors = [] ∧ s.Legal

/-! ### The OPEN parameters -/

/-- Every length the rules compute fits the implementation's registers (00_scope.md R11; 42_fragmenter.md R183). -/
def State.FitsLenBits (s : State) : Prop :=
  s.mtu < 2 ^ Config.lenBits ∧ s.maxReassemblySize < 2 ^ Config.lenBits ∧
  (∀ bs ∈ s.sq, bs.length < 2 ^ Config.lenBits) ∧
  (∀ q, s.fr = some q → q.md.length < 2 ^ Config.lenBits ∧ q.data.length < 2 ^ Config.lenBits) ∧
  ∀ p ∈ s.reasm, p.2.mdAcc.length + p.2.dataAcc.length < 2 ^ Config.lenBits

/-- No more chains are in progress than the implementation has slots for (92_eei_decisions.md D12). -/
def State.WithinSlots (s : State) : Prop := s.reasm.length ≤ Config.reasmSlots

/-! ### The whole fragment sequence -/

/-- The first `n` wire frames of the sequence that `q` is the start of, stopping after the terminal one. -/
def sequenceFrom (mtu : Nat) : Nat → FragSeq → List Bytes
  | 0, _ => []
  | n + 1, q =>
    match fragmentFrame mtu q with
    | .ok out =>
      match advance mtu q with
      | some q' => out :: sequenceFrom mtu n q'
      | none => [out]
    | _ => []

/-- The wire frames of a loaded frame: at most `1 + len(FR.md) + len(FR.data)` of them (42_fragmenter.md R179). -/
def fragmentsOf (mtu : Nat) (q : FragSeq) : List Bytes := sequenceFrom mtu (1 + q.md.length + q.data.length) q

/-! ### Rows of the opcode table, and what APPEND makes of an entry -/

/-- The rows of spec/opcode_table.json: mask and match over the type/flags field. -/
def tableRow : Mnemonic → Nat × Nat
  | .setup => (0xFC00, 0x0400)
  | .lease => (0xFC00, 0x0800)
  | .keepalive => (0xFC00, 0x0C00)
  | .requestResponse => (0xFC00, 0x1000)
  | .requestFnf => (0xFC00, 0x1400)
  | .requestStream => (0xFC00, 0x1800)
  | .requestChannel => (0xFC00, 0x1C00)
  | .requestN => (0xFC00, 0x2000)
  | .cancel => (0xFC00, 0x2400)
  | .payload => (0xFC60, 0x2800)
  | .error => (0xFC00, 0x2C00)
  | .metadataPush => (0xFC00, 0x3000)
  | .resume => (0xFC00, 0x3400)
  | .resumeOk => (0xFC00, 0x3800)
  | .ext => (0xFC00, 0xFC00)
  | .nextPayload => (0xFC60, 0x2820)
  | .complete => (0xFC60, 0x2840)
  | .nextComplete => (0xFC60, 0x2860)

/-- The entry a chain holds after a continuation has been appended (43_reassembler.md R208). -/
def afterAppend (e : Entry) (p : Parts) : Entry :=
  { e with mdAcc := e.mdAcc ++ p.md.getD [], dataAcc := e.dataAcc ++ p.data, anyMd := e.anyMd || p.md.isSome }

/-! ### Runs of REASSEMBLE -/

/-- REASSEMBLE applied to frames one after another (43_reassembler.md R201). -/
def reassembleAll : List Instr → State → Host.Outcome State Fault Refusal
  | [], s => .next s
  | i :: rest, s =>
    match exec i { s with op := .reassemble } with
    | .next t => reassembleAll rest t
    | .fault r => .fault r
    | .refused r => .refused r

/-- The stream id in the header of a frame (30_encoding.md R83). -/
def sidOf (bs : Bytes) : StreamId := BitVec.ofNat 31 (headerWord bs)

end Sys2Proof.Machine
end

