-- ==== Sys2Proof/Certificates/Slice0/Obligations.lean ====
section
/-!
DEFINITION. The statements for the provers, one `def Obligations.<Name> : Prop` each. `exec i s` executes the frame `i`
for the operation `s.op`; `encode i` is its wire frame; `(frameOf i).body` is `.other t` for the ten non-fragmentable
frame types (SETUP, LEASE, KEEPALIVE, REQUEST_N, CANCEL, ERROR, METADATA_PUSH, RESUME, RESUME_OK, EXT), and
`.frag t parts` for the eight fragmentable ones: REQUEST_RESPONSE, REQUEST_FNF, REQUEST_STREAM, REQUEST_CHANNEL with their
own `t`, and PAYLOAD, NEXT, COMPLETE, NEXT_COMPLETE with `t = .payload`; `parts` is `none` when the frame is cut short. In every
statement a raise and a refusal are next states, a refusal one more mark: the model's reading (log entries 5 and 6).
-/

open Sys2Proof Sys2Proof.Machine

/-! ## Encoding -/

/-- Words written out from the encodings of 30_encoding.md R82 to R87 and the examples of 40_frame_types.md. -/
def Obligations.SpecExamplesDecode : Prop :=
  decode [0x00, 0x00, 0x00, 0x00, 0x0C, 0x80, 0x00] = .ok (.keepalive ⟨false, 0#31, 0x080#10⟩ [0x00]) ∧
  decode [0x00, 0x00, 0x00, 0x01, 0x11, 0x00, 0x00, 0x00, 0x02, 0x6D, 0x64, 0x68] =
    .ok (.requestResponse ⟨false, 1#31, 0x100#10⟩ (.full (some [0x6D, 0x64]) [0x68])) ∧
  decode [0x00, 0x00, 0x00, 0x07, 0x18, 0x00, 0x00, 0x00, 0x00, 0x2A, 0x00] =
    .ok (.requestStream ⟨false, 7#31, 0#10⟩ (.full 42#32 none [0x00])) ∧
  decode [0x7F, 0xFF, 0xFF, 0xFF, 0x1F, 0x40, 0x7F, 0xFF, 0xFF, 0xFF, 0x00, 0x00, 0x01, 0xAA, 0x01] =
    .ok (.requestChannel ⟨false, 0x7FFFFFFF#31, 0x340#10⟩ (.full 0x7FFFFFFF#32 (some [0xAA]) [0x01])) ∧
  decode [0x00, 0x00, 0x00, 0x05, 0x24, 0x00] = .ok (.cancel ⟨false, 5#31, 0#10⟩ []) ∧
  decode [0x00, 0x00, 0x00, 0x03, 0x28, 0x80, 0x08, 0x09] =
    .ok (.payload ⟨false, 3#31, 0x080#10⟩ (.full none [0x08, 0x09])) ∧
  decode [0x00, 0x00, 0x00, 0x09, 0x28, 0x60, 0x10] =
    .ok (.nextComplete ⟨false, 9#31, 0x060#10⟩ (.full none [0x10])) ∧
  decode [0x00, 0x00, 0x00, 0x01, 0xFF, 0xFF] = .ok (.ext ⟨false, 1#31, 0x3FF#10⟩ [])

/-- Decoding an encoded well-formed instruction gives it back, for all eighteen frame types and every operand the
encoding admits. -/
def Obligations.DecodeOfEncode : Prop := ∀ i : Instr, i.wf = true → decode (encode i) = .ok i

/-- Every byte sequence the decoder accepts is the encoding of the well-formed instruction it reads, to the last bit: the
reserved bit, the unnamed flags and regions that are cut short are kept. -/
def Obligations.EncodeOfDecode : Prop := ∀ (bs : Bytes) (i : Instr), decode bs = .ok i → encode i = bs ∧ i.wf = true

/-- The header read byte by byte (20_memory.md R51). -/
def Obligations.HeaderByBytes : Prop :=
  ∀ (b0 b1 b2 b3 b4 b5 : Byte) (rest : Bytes),
    headerWord (b0 :: b1 :: b2 :: b3 :: b4 :: b5 :: rest) = (b0 ++ b1 ++ b2 ++ b3).toNat ∧
    headerTypeFlags (b0 :: b1 :: b2 :: b3 :: b4 :: b5 :: rest) = (b4 ++ b5).toNat ∧
    ∀ h, parseHeader (b0 :: b1 :: b2 :: b3 :: b4 :: b5 :: rest) = .ok h →
      h.sid = (b0 ++ b1 ++ b2 ++ b3).setWidth 31 ∧ h.type.code = b4.extractLsb' 2 6 ∧
      h.flags = b4.extractLsb' 0 2 ++ b5 ∧
      mSet h.flags = b4.getLsbD 0 ∧ fSet h.flags = b5.getLsbD 7 ∧ cSet h.flags = b5.getLsbD 6 ∧
      nSet h.flags = b5.getLsbD 5

/-- The decoder rejects exactly the frames shorter than a header and those whose type code is 0 or 15 to 62, each by
name, and whatever the reserved bit is (41_codec_ops.md R141). -/
def Obligations.DecoderRejections : Prop :=
  ∀ bs : Bytes,
    (decode bs = .raised .malformedFrame none ↔ bs.length < 6) ∧
    (decode bs = .raised .invalidFrameType (some (BitVec.ofNat 31 (headerWord bs))) ↔
      6 ≤ bs.length ∧ (headerTypeFlags bs / 1024 = 0 ∨ 15 ≤ headerTypeFlags bs / 1024 ∧ headerTypeFlags bs / 1024 ≤ 62)) ∧
    ((∃ i, decode bs = .ok i) ↔
      6 ≤ bs.length ∧ (1 ≤ headerTypeFlags bs / 1024 ∧ headerTypeFlags bs / 1024 ≤ 14 ∨ headerTypeFlags bs / 1024 = 63))

/-- The decoder reads the row that the opcode table's mask and match select, and no other: for a frame with a whole header,
it decodes to the constructor of mnemonic `m` iff its type/flags field matches `m`'s row (30_encoding.md R86, R87). -/
def Obligations.DecodeFollowsOpcodeTable : Prop :=
  ∀ (bs : Bytes) (m : Mnemonic), 6 ≤ bs.length →
    ((∃ i, decode bs = .ok i ∧ i.mnemonic = m) ↔ headerTypeFlags bs &&& (tableRow m).1 = (tableRow m).2)

/-- ENCODE and the frame-length prefix (41_codec_ops.md R144, R150), and the four laws of the codec (R155). ENCODE refuses a
non-fragmentable type and a prefix of the wrong size with UnsupportedLayout and metadata above 0xFFFFFF bytes with
FieldOverflow, in this order, and otherwise completes with the header, the prefix, the metadata field and the data;
LEN_ENCODE refuses above 0xFFFFFF bytes. -/
def Obligations.CodecLaws : Prop :=
  (∀ (sid : StreamId) (t : WireType) (fl : Flags) (pre : Bytes) (md : Option Bytes) (data out : Bytes),
    encodeFrame sid t fl pre md data = .ok out →
      parseHeader out = .ok ⟨sid, t, (fl &&& ~~~flagM) ||| (if md ≠ none then flagM else 0#10)⟩ ∧
      sliceMetadata out t = .ok md ∧ sliceData out t = .ok data ∧
      out.length = 6 + pre.length + (match md with | some m => 3 + m.length | none => 0) + data.length) ∧
  (∀ bs : Bytes, bs.length ≤ 0xFFFFFF → ∃ buf, lenEncode bs = .ok buf ∧ lenDecode buf = .ok bs) ∧
  (∀ bs : Bytes, 0xFFFFFF < bs.length → lenEncode bs = .refused .fieldOverflow) ∧
  ∀ (sid : StreamId) (fl : Flags) (pre : Bytes) (md : Option Bytes) (data : Bytes),
    (∀ t : OtherType, encodeFrame sid (.other t) fl pre md data = .refused .unsupportedLayout) ∧
    ∀ t : FragType,
      (pre.length ≠ t.prefixSize → encodeFrame sid (.frag t) fl pre md data = .refused .unsupportedLayout) ∧
      (pre.length = t.prefixSize → 0xFFFFFF < (md.getD []).length →
        encodeFrame sid (.frag t) fl pre md data = .refused .fieldOverflow) ∧
      (pre.length = t.prefixSize → (md.getD []).length ≤ 0xFFFFFF →
        encodeFrame sid (.frag t) fl pre md data = .ok (
          ube 4 sid.toNat ++
          ube 2 (t.code.toNat * 1024 + ((fl &&& 0x2FF#10) ||| (if md ≠ none then 0x100#10 else 0#10)).toNat) ++ pre ++
          (match md with | some m => ube 3 m.length ++ m | none => []) ++ data))

/-- The accessors of the codec on a frame whose header reads (40_frame_types.md R112; 41_codec_ops.md R146 to R149): a
non-fragmentable type is refused with UnsupportedLayout by all four; a fragmentable frame whose bytes are too few for its
prefix, its metadata length or its metadata is MalformedFrame, with its stream id, for SLICE_METADATA, SLICE_DATA and SPLIT
alike, and SPLIT gives what the two slices give otherwise; INITIAL_REQUEST_N is the unsigned value of bytes 6 to 9, without
a range check, for the two types that have it. -/
def Obligations.CodecAccessors : Prop :=
  ∀ (bs : Bytes) (h : Header), parseHeader bs = .ok h →
    (h.type.fragmentable = false →
      sliceMetadata bs h.type = .refused .unsupportedLayout ∧ sliceData bs h.type = .refused .unsupportedLayout ∧
      split bs = .refused .unsupportedLayout ∧ initialRequestN bs = .refused .unsupportedLayout) ∧
    (∀ t, h.type = .frag t →
      (cutShort t.prefixSize h.flags (bs.drop 6) = true →
        sliceMetadata bs h.type = .raised .malformedFrame (some h.sid) ∧
        sliceData bs h.type = .raised .malformedFrame (some h.sid) ∧
        split bs = .raised .malformedFrame (some h.sid)) ∧
      (cutShort t.prefixSize h.flags (bs.drop 6) = false →
        ∃ p : Parts, split bs = .ok (h, p) ∧ sliceMetadata bs h.type = .ok p.md ∧ sliceData bs h.type = .ok p.data ∧
          p.pre = (bs.drop 6).take t.prefixSize ∧ p.md.isSome = mSet h.flags) ∧
      initialRequestN bs =
        if t = .requestStream ∨ t = .requestChannel then
          if bs.length < 10 then .raised .malformedFrame (some h.sid)
          else .ok (BitVec.ofNat 32 (be ((bs.drop 6).take 4)))
        else .refused .unsupportedLayout)

/-- ENCODE gives back the frame that SPLIT took apart whenever its reserved bit is 0 (41_codec_ops.md R149). -/
def Obligations.EncodeOfSplit : Prop :=
  ∀ (bs : Bytes) (h : Header) (p : Parts), split bs = .ok (h, p) → (headerWord bs).testBit 31 = false →
    encodeFrame h.sid h.type h.flags p.pre p.md p.data = .ok bs

/-- ENCODE_OPAQUE is the identity on a parsed non-fragmentable frame whose reserved bit is 0 (41_codec_ops.md R145). -/
def Obligations.EncodeOpaqueOfParsed : Prop :=
  ∀ (bs : Bytes) (h : Header) (t : OtherType), parseHeader bs = .ok h → h.type = .other t →
    (headerWord bs).testBit 31 = false → encodeOpaque h.sid t h.flags (bodyOf bs) = bs

/-- The three aliases in the text form are PAYLOAD with the alias's bits, and an `fl=` that contradicts the alias is
ill-formed text (30_encoding.md R99). -/
def Obligations.TextAliases : Prop :=
  ∀ (sid : StreamId) (md data : Option Bytes),
    assemble { mnemonic := .nextPayload, sid := sid, md := md, data := data } =
      assemble { mnemonic := .payload, sid := sid, fl := some flagN, md := md, data := data } ∧
    assemble { mnemonic := .complete, sid := sid, md := md, data := data } =
      assemble { mnemonic := .payload, sid := sid, fl := some flagC, md := md, data := data } ∧
    assemble { mnemonic := .nextComplete, sid := sid, md := md, data := data } =
      assemble { mnemonic := .payload, sid := sid, fl := some (flagN ||| flagC), md := md, data := data } ∧
    (∀ fl : Flags, cSet fl = true → assemble { mnemonic := .nextPayload, sid := sid, fl := some fl, md := md, data := data } = none) ∧
    (∀ fl : Flags, nSet fl = true → assemble { mnemonic := .complete, sid := sid, fl := some fl, md := md, data := data } = none)

/-! ## Reset, steps and the whole machine -/

/-- Construction (10_state.md R41, R22, R24; 70_reset_and_hazards.md R300, R303): what every state after reset holds, and
which arguments have one. That `State.reset` takes the arguments 0, false and none is the model's choice (log entry 1). -/
def Obligations.ConstructionValues : Prop :=
  (∀ (mtu : Int) (enc : Bool) (max : Option Nat), State.construct mtu enc max = none ↔ enc = true ∧ 0xFFFFFF < mtu) ∧
  (∀ (mtu : Int) (enc : Bool) (max : Option Nat) (s : State), State.construct mtu enc max = some s →
    (s.mtu : Int) = (if mtu ≤ 0 then 0 else mtu) ∧ s.encodeLength = enc ∧
    s.maxReassemblySize = (match max with | some n => n | none => 0) ∧
    s.fr = none ∧ s.reasm = [] ∧ (∀ sid, s.phase sid = .idle) ∧ s.disposed = false ∧ s.sq = [] ∧ s.errors = []) ∧
  State.construct 0 false none = some State.reset

/-- The invariant of the block holds after reset, for every constructor argument; with a legal `MTU` (10_state.md R22;
70_reset_and_hazards.md R303) every such state, `State.reset` among them, meets the launch premises (R317), and the invariant
holds in every state that meets them. -/
def Obligations.ResetMeetsInvariant : Prop :=
  State.reset.Inv ∧ State.reset.Launch ∧
  (∀ (mtu : Int) (enc : Bool) (max : Option Nat) (s : State), State.construct mtu enc max = some s →
    s.Inv ∧ (mtu ≤ 0 ∨ 10 ≤ mtu ↔ s.Launch)) ∧
  ∀ s : State, s.Launch → s.Inv

/-- Every step keeps the invariant of the block: a disposed block holds nothing, the table stays in canonical form with
well-formed entries within the size cap, the fragmenter cursors stay within their buffers, and everything queued stays
acceptable to SEND. -/
def Obligations.StepKeepsInvariant : Prop := ∀ s t : State, s.Inv → step s = .next t → t.Inv

/-- No step stops the block: whatever the state and whatever arrives, control goes on with a next state
(60_exceptions.md R270, R271). That a raise, a fault in the guide's sense by 00_scope.md R19, and a refusal are next states is
the model's reading (log entries 6 and 5). -/
def Obligations.StepNeverStops : Prop :=
  (∀ s : State, ∃ t, step s = .next t) ∧ ∀ (i : Instr) (s : State), ∃ t, exec i s = .next t

/-- No step writes a configuration register (10_state.md R22, R23, R24). -/
def Obligations.ConfigurationIsConstant : Prop :=
  ∀ s t : State, step s = .next t →
    t.mtu = s.mtu ∧ t.encodeLength = s.encodeLength ∧ t.maxReassemblySize = s.maxReassemblySize

/-- `DISPOSED` is sticky: no step clears it (10_state.md R35), and once it is set with the block empty no later step
hands a buffer or a frame to a neighbour or raises an error. -/
def Obligations.DisposedIsForGood : Prop :=
  ∀ s t : State, s.Inv → s.disposed = true → step s = .next t →
    t.disposed = true ∧ t.reasm = [] ∧ t.fr = none ∧ t.sq = [] ∧ t.down = s.down ∧ t.up = s.up ∧ t.errors = s.errors

/-- On a disposed block every operation except DISPOSE, CLOSE and `is_disposed` is refused with reason Disposed
(10_state.md R35; 93_implementation_defined.md U30): nothing changes but the marks, one for each operation (SEND_MANY is
one SEND a frame). The codec functions, which read no state, are not operations in this sense (log entry 7). -/
def Obligations.DisposedRefusesOperations : Prop :=
  ∀ (s : State) (e : Event), s.disposed = true →
    (match e with | .close | .dispose | .isDisposed | .codec _ => False | _ => True) →
    ∃ o, runEvent e s = .next { s with
      op := o
      refusals := s.refusals ++ (match e with
        | .sendMany fs => List.replicate fs.length .disposed
        | _ => [.disposed]) }

/-- Every frame type is refused on a disposed block, whatever the operation it is executed for. -/
def Obligations.DisposedRefusesEveryFrame : Prop :=
  ∀ (i : Instr) (s : State), s.disposed = true →
    exec i s = .next { s with refusals := s.refusals ++ [.disposed] }

/-- A step runs the decoded frame: SEND, REASSEMBLE, FRAG_START and RECEIVE at the head of the inbox execute the
instruction their bytes decode to, the event being taken and the operation recorded. -/
def Obligations.StepRunsDecodedFrame : Prop :=
  ∀ (s : State) (bs : Bytes) (i : Instr) (rest : List Event), decode bs = .ok i →
    (s.inbox = .send bs :: rest → step s = exec i { s with inbox := rest, op := .send }) ∧
    (s.inbox = .reassemble bs :: rest → step s = exec i { s with inbox := rest, op := .reassemble }) ∧
    (s.inbox = .fragStart bs :: rest → s.fr = none → step s = exec i { s with inbox := rest, op := .fragStart }) ∧
    (∀ buf, s.inbox = .receive buf :: rest → s.disposed = false → unwrap s.encodeLength buf = .ok bs →
      step s = exec i { s with inbox := rest, op := .reassemble })

/-- With nothing to take the block does nothing (44_adapter_ops.md R254). -/
def Obligations.IdleStepDoesNothing : Prop :=
  (∀ s : State, s.inbox = [] → step s = .next s) ∧
  ∀ s : State, s.disposed = false → s.fr = none → s.sq = [] → pull s = s

/-- A direct FRAG_START while a sequence is in progress is held: it stays waiting, and the step takes the event behind it;
and a frame of any of the eighteen types executed for it then changes nothing (42_fragmenter.md R171; 44_adapter_ops.md
R243). Which event is taken past a held one is the model's choice (log entry 8). -/
def Obligations.HeldFragStartWaits : Prop :=
  (∀ (s : State) (bs : Bytes) (e : Event) (rest : List Event), s.fr ≠ none → s.disposed = false →
    s.inbox = .fragStart bs :: e :: rest → (∀ b, e ≠ .fragStart b) →
    step s = runEvent e { s with inbox := .fragStart bs :: rest }) ∧
  ∀ (i : Instr) (s : State), s.op = .fragStart → s.disposed = false → s.fr ≠ none → exec i s = .next s

/-! ## SEND -/

/-- SEND of a non-fragmentable frame (the ten types) enqueues it as it is, whatever `MTU` is (40_frame_types.md R112;
44_adapter_ops.md R242 (c)). -/
def Obligations.SendEnqueuesNonFragmentable : Prop :=
  ∀ (i : Instr) (s : State), s.op = .send → s.disposed = false → i.type.fragmentable = false →
    (s.encodeLength = true → (encode i).length ≤ 0xFFFFFF) →
    exec i s = .next { s with sq := s.sq ++ [encode i] }

/-- SEND of a fragmentable frame (the eight types) enqueues it: without looking inside when it fits or fragmentation is
disabled, and otherwise when `MTU` is at least the type's floor and the frame is whole (44_adapter_ops.md R242). -/
def Obligations.SendEnqueuesFragmentable : Prop :=
  ∀ (i : Instr) (s : State) (t : FragType) (parts : Option Parts), s.op = .send → s.disposed = false →
    (frameOf i).body = .frag t parts →
    ((s.mtu = 0 ∨ (encode i).length ≤ s.mtu) → (s.encodeLength = true → (encode i).length ≤ 0xFFFFFF) →
      exec i s = .next { s with sq := s.sq ++ [encode i] }) ∧
    (0 < s.mtu → s.mtu < (encode i).length → 6 + t.prefixSize + 4 ≤ s.mtu → parts ≠ none →
      exec i s = .next { s with sq := s.sq ++ [encode i] })

/-- What SEND refuses or raises at acceptance, in the order of 60_exceptions.md R269: a frame longer than `MTU` of a
fragmentable type is refused with MtuTooSmall below the floor, and above it is MalformedFrame when it is cut short; a frame
that would be written whole but is too long for a 24-bit length is refused with FieldOverflow. Nothing is enqueued. -/
def Obligations.SendChecks : Prop :=
  ∀ (i : Instr) (s : State), s.op = .send → s.disposed = false →
    (∀ t parts, (frameOf i).body = .frag t parts → 0 < s.mtu → s.mtu < (encode i).length →
      (s.mtu < 6 + t.prefixSize + 4 → exec i s = .next { s with refusals := s.refusals ++ [.mtuTooSmall] }) ∧
      (6 + t.prefixSize + 4 ≤ s.mtu → parts = none →
        exec i s = .next { s with reasm := [], fr := none, sq := [], disposed := true,
                                  errors := s.errors ++ [⟨.malformedFrame, some i.head.sid⟩] })) ∧
    ((i.type.fragmentable = false ∨ s.mtu = 0 ∨ (encode i).length ≤ s.mtu) → s.encodeLength = true →
      0xFFFFFF < (encode i).length → exec i s = .next { s with refusals := s.refusals ++ [.fieldOverflow] })

/-- The `MTU` that software must configure (70_reset_and_hazards.md R307, R303): under 0 or at least 14 no SEND of any frame
type is refused with MtuTooSmall. -/
def Obligations.SoftwareMtuIsEnough : Prop :=
  ∀ (i : Instr) (s t : State), s.op = .send → softwareMtu s.mtu → exec i s = .next t →
    t.refusals ≠ s.refusals ++ [.mtuTooSmall]

/-- The frame of SEND, for all eighteen types and every outcome: it emits nothing, writes no configuration register and
takes no event; unless it raises MalformedFrame it leaves the table, the fragmenter and `DISPOSED` alone, and the queue
grows by at most the frame itself. -/
def Obligations.SendLeavesTheRest : Prop :=
  ∀ (i : Instr) (s t : State), s.op = .send → exec i s = .next t →
    t.mtu = s.mtu ∧ t.encodeLength = s.encodeLength ∧ t.maxReassemblySize = s.maxReassemblySize ∧ t.op = s.op ∧
    t.inbox = s.inbox ∧ t.down = s.down ∧ t.up = s.up ∧ t.replies = s.replies ∧
    (t.errors = s.errors ∧ t.reasm = s.reasm ∧ t.fr = s.fr ∧ t.disposed = s.disposed ∧
        (t.sq = s.sq ∨ t.sq = s.sq ++ [encode i] ∧ t.refusals = s.refusals) ∨
      t.errors = s.errors ++ [⟨.malformedFrame, some i.head.sid⟩] ∧ t.refusals = s.refusals ∧ t.reasm = [] ∧
        t.fr = none ∧ t.sq = [] ∧ t.disposed = true)

/-! ## REASSEMBLE -/

/-- PASS (43_reassembler.md R202, R203): a frame of any of the eighteen types with F clear, and a non-fragmentable frame
whatever its bit 7 holds, arriving on an IDLE stream is emitted byte for byte and changes no state. -/
def Obligations.IdleStreamPassesUp : Prop :=
  ∀ (i : Instr) (s : State), s.op = .reassemble → s.disposed = false → s.phase i.head.sid = .idle →
    (fSet i.head.flags = false ∨ i.type.fragmentable = false) →
    exec i s = .next { s with up := s.up ++ [encode i] }

/-- OPEN (43_reassembler.md R204): a whole fragmentable frame with F set on an IDLE stream records header, prefix, metadata
and data; nothing is emitted. -/
def Obligations.FirstFragmentOpensChain : Prop :=
  ∀ (i : Instr) (s : State) (t : FragType) (p : Parts), s.op = .reassemble → s.disposed = false →
    s.phase i.head.sid = .idle → (frameOf i).body = .frag t (some p) → fSet i.head.flags = true →
    (s.maxReassemblySize = 0 ∨ (p.md.getD []).length + p.data.length ≤ s.maxReassemblySize) →
    (p.md.getD []).length ≤ 0xFFFFFF →
    exec i s = .next { s with
      reasm := Table.insert i.head.sid
        { type := t, flags := i.head.flags, pre := p.pre, mdAcc := p.md.getD [], dataAcc := p.data,
          anyMd := mSet i.head.flags } s.reasm }

/-- APPEND (43_reassembler.md R205, R208): on a COLLECTING stream a whole PAYLOAD, NEXT, COMPLETE or NEXT_COMPLETE frame
with F set appends its metadata bytes and its data; nothing is emitted. -/
def Obligations.ContinuationAppends : Prop :=
  ∀ (i : Instr) (s : State) (e : Entry) (p : Parts), s.op = .reassemble → s.disposed = false →
    Table.lookup i.head.sid s.reasm = some e → (frameOf i).body = .frag .payload (some p) →
    fSet i.head.flags = true → tooLarge s.maxReassemblySize (afterAppend e p) = false →
    exec i s = .next { s with reasm := Table.insert i.head.sid (afterAppend e p) s.reasm }

/-- APPEND and EMIT (43_reassembler.md R206, R209 to R212): with F clear the chain is complete. The emitted frame has the
first fragment's type, stream id and prefix, reserved bit 0, F clear, M set iff a fragment had M set, and its other flags
from the first fragment of a request chain or the terminal fragment of a PAYLOAD chain; the stream is IDLE again. -/
def Obligations.TerminalFragmentEmits : Prop :=
  ∀ (i : Instr) (s : State) (e : Entry) (p : Parts), s.op = .reassemble → s.disposed = false →
    Table.lookup i.head.sid s.reasm = some e → e.pre.length = e.type.prefixSize →
    (frameOf i).body = .frag .payload (some p) → fSet i.head.flags = false →
    tooLarge s.maxReassemblySize (afterAppend e p) = false →
    exec i s = .next { s with
      reasm := Table.erase i.head.sid s.reasm
      up := s.up ++ [
        headerBytes false i.head.sid e.type.code
          (((if e.type = .payload then i.head.flags else e.flags) &&& 0x27F#10) |||
            (if (afterAppend e p).anyMd then 0x100#10 else 0#10)) ++ e.pre ++
        (if (afterAppend e p).anyMd then ube 3 (afterAppend e p).mdAcc.length ++ (afterAppend e p).mdAcc else []) ++
        (afterAppend e p).dataAcc] }

/-- VIOLATION (43_reassembler.md R207; 60_exceptions.md R263): any of the fourteen types other than the PAYLOAD family on a
COLLECTING stream, whatever its F bit: the entry is removed, one error event is raised, the frame is dropped, and nothing
else changes. -/
def Obligations.NonPayloadMidChainAborts : Prop :=
  ∀ (i : Instr) (s : State), s.op = .reassemble → s.disposed = false → s.phase i.head.sid = .collecting →
    i.type ≠ .frag .payload →
    exec i s = .next { s with
      reasm := Table.erase i.head.sid s.reasm
      errors := s.errors ++ [⟨.reassemblyProtocolViolation, some i.head.sid⟩] }

/-- TOO_LARGE (43_reassembler.md R214; 60_exceptions.md R264), at the first fragment and at every continuation, the
terminal one included: more than the cap (0 is no cap, equality is allowed) or more metadata than a 24-bit length holds
aborts the chain, raises one error event and emits nothing. -/
def Obligations.OversizeAborts : Prop :=
  ∀ (i : Instr) (s : State) (t : FragType) (p : Parts), s.op = .reassemble → s.disposed = false →
    (frameOf i).body = .frag t (some p) →
    (∀ m d : Nat,
      (s.phase i.head.sid = .idle ∧ fSet i.head.flags = true ∧ m = (p.md.getD []).length ∧ d = p.data.length ∨
        ∃ e, Table.lookup i.head.sid s.reasm = some e ∧ t = .payload ∧
          m = e.mdAcc.length + (p.md.getD []).length ∧ d = e.dataAcc.length + p.data.length) →
      (0 < s.maxReassemblySize ∧ s.maxReassemblySize < m + d ∨ 0xFFFFFF < m) →
      exec i s = .next { s with
        reasm := Table.erase i.head.sid s.reasm
        errors := s.errors ++ [⟨.reassemblyTooLarge, some i.head.sid⟩] })

/-- MalformedFrame on receive (60_exceptions.md R262 (b)): a frame that is cut short, where the block must look inside it,
disposes the block and raises one error event: a fragmentable frame with F set on an IDLE stream, a PAYLOAD-family frame on
a COLLECTING one. -/
def Obligations.CutShortFragmentDisposes : Prop :=
  ∀ (i : Instr) (s : State) (t : FragType), s.op = .reassemble → s.disposed = false →
    (frameOf i).body = .frag t none →
    (s.phase i.head.sid = .idle ∧ fSet i.head.flags = true ∨ s.phase i.head.sid = .collecting ∧ t = .payload) →
    exec i s = .next { s with
      reasm := [], fr := none, sq := [], disposed := true
      errors := s.errors ++ [⟨.malformedFrame, some i.head.sid⟩] }

/-- The frame of REASSEMBLE, for all eighteen types and every outcome (43_reassembler.md R200, R216): it writes nothing
downstream, no configuration register and no reply, it emits at most one frame, and unless it raises MalformedFrame it
leaves every other stream's entry, the fragmenter, the queue and `DISPOSED` alone. -/
def Obligations.ReassembleLeavesTheRest : Prop :=
  ∀ (i : Instr) (s t : State), s.op = .reassemble → exec i s = .next t →
    t.mtu = s.mtu ∧ t.encodeLength = s.encodeLength ∧ t.maxReassemblySize = s.maxReassemblySize ∧ t.op = s.op ∧
    t.inbox = s.inbox ∧ t.down = s.down ∧ t.replies = s.replies ∧
    ((∃ out, t.up = s.up ++ [out] ∧ t.errors = s.errors ∧ t.refusals = s.refusals) ∨
      (t.up = s.up ∧ t.errors = s.errors ∧ t.refusals = s.refusals) ∨
      (∃ ev, t.errors = s.errors ++ [ev] ∧ t.up = s.up ∧ t.refusals = s.refusals) ∨
      (∃ r, t.refusals = s.refusals ++ [r] ∧ t.up = s.up ∧ t.errors = s.errors ∧ t.reasm = s.reasm)) ∧
    ((∀ sid, sid ≠ i.head.sid → Table.lookup sid t.reasm = Table.lookup sid s.reasm) ∧ t.fr = s.fr ∧ t.sq = s.sq ∧
        t.disposed = s.disposed ∨
      t.errors = s.errors ++ [⟨.malformedFrame, some i.head.sid⟩] ∧ t.reasm = [] ∧ t.fr = none ∧ t.sq = [] ∧
        t.disposed = true)

/-- Streams do not disturb each other (43_reassembler.md R216; 20_memory.md R65): as long as the block is not disposed,
what one stream's frames leave in the table, hand upstream and raise is what they would alone, whatever other streams'
frames are interleaved with them. -/
def Obligations.StreamsAreIndependent : Prop :=
  ∀ (a : StreamId) (frames : List Instr) (s t u : State),
    s.up = [] → s.errors = [] →
    reassembleAll frames s = .next t → t.disposed = false →
    reassembleAll (frames.filter fun i => i.head.sid == a) s = .next u →
    Table.lookup a t.reasm = Table.lookup a u.reasm ∧ t.up.filter (fun bs => sidOf bs == a) = u.up ∧
    t.errors.filter (fun ev => ev.sid == some a) = u.errors

/-! ## Headers that cannot be read, and the error kinds -/

/-- A frame whose header cannot be read (60_exceptions.md R261 (a), R262 (a)): fewer than 6 bytes dispose the block; an
unrecognised type code drops the frame, raises one error event with its stream id and changes nothing else. So does a step
whose next event is SEND, REASSEMBLE or RECEIVE of it, or FRAG_START while no sequence is in progress (while one is, the event
is held before its header is read, 42_fragmenter.md R171), and so does each frame of a SEND_MANY, which is `runFrame .send`. -/
def Obligations.UnreadableHeaders : Prop :=
  (∀ (s : State) (bs : Bytes) (e : Event) (rest : List Event), s.disposed = false → s.inbox = e :: rest →
    (e = .send bs ∨ e = .reassemble bs ∨ (e = .fragStart bs ∧ s.fr = none) ∨
      ∃ buf, e = .receive buf ∧ unwrap s.encodeLength buf = .ok bs) →
    (bs.length < 6 → step s = .next { s with
      inbox := rest
      reasm := [], fr := none, sq := [], disposed := true, errors := s.errors ++ [⟨.malformedFrame, none⟩] }) ∧
    (6 ≤ bs.length → (headerTypeFlags bs / 1024 = 0 ∨ 15 ≤ headerTypeFlags bs / 1024 ∧ headerTypeFlags bs / 1024 ≤ 62) →
      step s = .next { s with
        inbox := rest, errors := s.errors ++ [⟨.invalidFrameType, some (sidOf bs)⟩] })) ∧
  ∀ (op : FrameOp) (bs : Bytes) (s : State), s.disposed = false → (op = .fragStart → s.fr = none) →
    (bs.length < 6 → runFrame op bs s = .next { s with
      reasm := [], fr := none, sq := [], disposed := true, errors := s.errors ++ [⟨.malformedFrame, none⟩] }) ∧
    (6 ≤ bs.length → (headerTypeFlags bs / 1024 = 0 ∨ 15 ≤ headerTypeFlags bs / 1024 ∧ headerTypeFlags bs / 1024 ≤ 62) →
      runFrame op bs s = .next { s with errors := s.errors ++ [⟨.invalidFrameType, some (sidOf bs)⟩] })

/-- Raising is precise (60_exceptions.md R261, R263, R264, R267, R268): a per-connection kind (MalformedFrame,
TransportFailure) is a full DISPOSE; a per-frame kind leaves `DISPOSED`, the fragmenter, the queue and every other stream's
entry unchanged, of which ReassemblyProtocolViolation and ReassemblyTooLarge remove the entry of their own stream and
InvalidFrameType leaves the whole table as it is; either way exactly one error event is added and nothing is emitted. -/
def Obligations.RaisingIsPrecise : Prop :=
  ∀ (k : ErrorKind) (sid : Option StreamId) (s : State),
    let t := raiseError k sid s
    t.errors = s.errors ++ [⟨k, sid⟩] ∧ t.down = s.down ∧ t.up = s.up ∧ t.refusals = s.refusals ∧ t.inbox = s.inbox ∧
    t.replies = s.replies ∧ t.op = s.op ∧
    t.mtu = s.mtu ∧ t.encodeLength = s.encodeLength ∧ t.maxReassemblySize = s.maxReassemblySize ∧
    ((k = .malformedFrame ∨ k = .transportFailure) →
      t.reasm = [] ∧ t.fr = none ∧ t.sq = [] ∧ t.disposed = true) ∧
    ((k = .invalidFrameType ∨ k = .reassemblyProtocolViolation ∨ k = .reassemblyTooLarge) →
      t.fr = s.fr ∧ t.sq = s.sq ∧ t.disposed = s.disposed ∧
      ∀ j, sid ≠ some j → Table.lookup j t.reasm = Table.lookup j s.reasm) ∧
    ((k = .reassemblyProtocolViolation ∨ k = .reassemblyTooLarge) →
      ∀ j, sid = some j → Table.lookup j t.reasm = none) ∧
    (k = .invalidFrameType → t.reasm = s.reasm)

/-! ## FRAG_START and FRAG_NEXT -/

/-- FRAG_START (42_fragmenter.md R171) of a whole fragmentable frame (the eight types) under an `MTU` of at least the
type's floor loads the fragmenter registers and changes nothing else. -/
def Obligations.FragStartLoads : Prop :=
  ∀ (i : Instr) (s : State) (t : FragType) (p : Parts), s.op = .fragStart → s.disposed = false → s.fr = none →
    (frameOf i).body = .frag t (some p) → 6 + t.prefixSize + 4 ≤ s.mtu →
    exec i s = .next { s with
      fr := some { sid := i.head.sid, type := t, oflags := i.head.flags, pre := p.pre, md := p.md.getD [], mdOff := 0,
                   mdOpen := mSet i.head.flags, data := p.data, dataOff := 0, isFirst := true } }

/-- What FRAG_START turns away, in the order of 60_exceptions.md R269: a non-fragmentable type (the ten types) raises
InvalidFrameType, per frame (42_fragmenter.md R172); an `MTU` below the floor, 0 included, is refused with MtuTooSmall
(R173); a frame that is cut short raises MalformedFrame. No fragmenter register is written. -/
def Obligations.FragStartChecks : Prop :=
  ∀ (i : Instr) (s : State), s.op = .fragStart → s.disposed = false → s.fr = none →
    (i.type.fragmentable = false →
      exec i s = .next { s with errors := s.errors ++ [⟨.invalidFrameType, some i.head.sid⟩] }) ∧
    ∀ t parts, (frameOf i).body = .frag t parts →
      (s.mtu < 6 + t.prefixSize + 4 → exec i s = .next { s with refusals := s.refusals ++ [.mtuTooSmall] }) ∧
      (6 + t.prefixSize + 4 ≤ s.mtu → parts = none →
        exec i s = .next { s with reasm := [], fr := none, sq := [], disposed := true,
                                  errors := s.errors ++ [⟨.malformedFrame, some i.head.sid⟩] })

/-- FRAG_NEXT (42_fragmenter.md R174, R179) on a well-formed sequence in an admitted configuration: it hands down exactly
one wire buffer, advances the registers and changes nothing else; with no sequence in progress it is refused with
NoSequence. -/
def Obligations.FragNextEmitsOne : Prop :=
  (∀ (s : State) (q : FragSeq), s.disposed = false → s.fr = some q → q.Wf s.mtu → s.Admitted →
    ∃ out, fragmentFrame s.mtu q = .ok out ∧
      fragNext s = { s with
        down := s.down ++ [if s.encodeLength then ube 3 out.length ++ out else out]
        fr := advance s.mtu q }) ∧
  ∀ s : State, s.disposed = false → s.fr = none → fragNext s = { s with refusals := s.refusals ++ [.noSequence] }

/-- One fragment of a well-formed sequence (42_fragmenter.md R175 to R178). It is no longer than `MTU`; parsed, it has the
sequence's stream id, reserved bit 0, the original type and prefix if it is the first and type PAYLOAD without prefix
otherwise; F set iff more follows; M set iff metadata remained; every other flag of the original on the first fragment of a
request chain and the terminal fragment of a PAYLOAD chain, clear on every other; its metadata and data are the next bytes of
the original's, data only once no metadata remains; and it takes as many of each as there is room for (R175): of what `MTU`
leaves after the header, the prefix and the metadata length, first metadata, then data. -/
def Obligations.FragmentContents : Prop :=
  ∀ (mtu : Nat) (q : FragSeq), q.Wf mtu →
    ∃ (out : Bytes) (h : Header) (p : Parts), fragmentFrame mtu q = .ok out ∧ split out = .ok (h, p) ∧
      out.length ≤ mtu ∧ (headerWord out).testBit 31 = false ∧ h.sid = q.sid ∧
      h.type = .frag (if q.isFirst then q.type else .payload) ∧ p.pre = (if q.isFirst then q.pre else []) ∧
      fSet h.flags = (advance mtu q).isSome ∧ mSet h.flags = q.mdOpen ∧
      (h.flags &&& 0x27F#10) =
        (if (if q.type = .payload then (advance mtu q).isNone else q.isFirst) = true then q.oflags &&& 0x27F#10 else 0#10) ∧
      q.md.drop q.mdOff = p.md.getD [] ++ q.md.drop (q.mdOff + (p.md.getD []).length) ∧
      q.data.drop q.dataOff = p.data ++ q.data.drop (q.dataOff + p.data.length) ∧
      (p.data ≠ [] → q.mdOff + (p.md.getD []).length = q.md.length) ∧
      (p.md.getD []).length = (if q.mdOpen then
        min (mtu - 6 - (if q.isFirst then q.pre.length else 0) - 3) (q.md.length - q.mdOff) else 0) ∧
      p.data.length = min (mtu - 6 - (if q.isFirst then q.pre.length else 0) - (if q.mdOpen then 3 else 0) -
        (p.md.getD []).length) (q.data.length - q.dataOff) ∧
      (match advance mtu q with
        | some q' => q' = { q with
            mdOff := q.mdOff + (p.md.getD []).length, dataOff := q.dataOff + p.data.length, isFirst := false
            mdOpen := q.mdOpen && decide (q.mdOff + (p.md.getD []).length < q.md.length) }
        | none => q.mdOff + (p.md.getD []).length = q.md.length ∧ q.dataOff + p.data.length = q.data.length)

/-- A sequence makes progress and ends (42_fragmenter.md R179): while more follows, the registers stay well formed and the
cursors grow, or the first fragment has closed a zero-length metadata. -/
def Obligations.FragmenterMakesProgress : Prop :=
  ∀ (mtu : Nat) (q q' : FragSeq), q.Wf mtu → advance mtu q = some q' →
    q'.Wf mtu ∧ q'.isFirst = false ∧ q.mdOff ≤ q'.mdOff ∧ q.dataOff ≤ q'.dataOff ∧
    (q.mdOff + q.dataOff < q'.mdOff + q'.dataOff ∨
      q.isFirst = true ∧ q.md = [] ∧ q.mdOpen = true ∧ q'.mdOpen = false)

/-- The properties of a whole sequence (42_fragmenter.md R184, R170): from a loaded frame it is finite and not empty; every
element is within `MTU`; exactly the last has F clear; element 0 carries the original type and the others type PAYLOAD, all
with the original stream id; and the payload regions concatenate to the original metadata and data. -/
def Obligations.SequenceProperties : Prop :=
  ∀ (mtu : Nat) (q : FragSeq), q.Wf mtu → q.isFirst = true →
    ∃ parsed : List (Header × Parts),
      (fragmentsOf mtu q).map split = parsed.map Codec.ok ∧
      0 < parsed.length ∧ parsed.length ≤ 1 + q.md.length + q.data.length ∧
      (∀ out ∈ fragmentsOf mtu q, out.length ≤ mtu) ∧
      (∀ (n : Nat) (r : Header × Parts), parsed[n]? = some r →
        fSet r.1.flags = decide (n + 1 < parsed.length) ∧
        r.1.type = .frag (if n = 0 then q.type else .payload) ∧ r.1.sid = q.sid ∧
        r.2.pre = (if n = 0 then q.pre else [])) ∧
      (parsed.map fun r => r.2.md.getD []).flatten = q.md ∧ (parsed.map fun r => r.2.data).flatten = q.data

/-- How many fragments a frame without metadata gives (42_fragmenter.md R183). -/
def Obligations.FragmentCount : Prop :=
  ∀ (mtu : Nat) (q : FragSeq), q.Wf mtu → q.isFirst = true → q.mdOpen = false → q.md = [] →
    (fragmentsOf mtu q).length =
      if q.data.length ≤ mtu - 6 - q.type.prefixSize then 1
      else 1 + (q.data.length - (mtu - 6 - q.type.prefixSize) + (mtu - 6) - 1) / (mtu - 6)

/-- A frame that fits in one `MTU` gives exactly one fragment, byte-identical to it except that F and the reserved bit are
written 0 (42_fragmenter.md R180). -/
def Obligations.FrameThatFitsIsOneFragment : Prop :=
  ∀ (i : Instr) (mtu : Nat) (q : FragSeq), i.wf = true → loadSequence mtu (frameOf i) = .ok q →
    (encode i).length ≤ mtu →
    fragmentFrame mtu q =
      .ok (headerBytes false i.head.sid i.type.code (i.head.flags &&& 0x37F#10) ++ i.body) ∧
    advance mtu q = none

/-- Where the metadata goes (42_fragmenter.md R181, R182). A frame with M set and no metadata bytes has the length 0 on its
first fragment, with M set, and neither on any later one; and when the metadata that remains exactly fills a fragment, that
fragment carries no data and the next carries only data with M clear. -/
def Obligations.MetadataPlacement : Prop :=
  ∀ (mtu : Nat) (q : FragSeq), q.Wf mtu → q.mdOpen = true →
    (q.isFirst = true → q.md = [] →
      ∀ (n : Nat) (out : Bytes), (fragmentsOf mtu q)[n]? = some out →
        ∃ (h : Header) (p : Parts), split out = .ok (h, p) ∧ p.md = (if n = 0 then some [] else none) ∧
          mSet h.flags = decide (n = 0)) ∧
    (q.md.length - q.mdOff = mtu - 6 - (if q.isFirst then q.pre.length else 0) - 3 →
      ∃ (out : Bytes) (h : Header) (p : Parts), fragmentFrame mtu q = .ok out ∧ split out = .ok (h, p) ∧
        out.length = mtu ∧ p.md = some (q.md.drop q.mdOff) ∧ p.data = [] ∧
        ∀ q', advance mtu q = some q' → q'.mdOpen = false ∧
          ∃ (out' : Bytes) (h' : Header) (p' : Parts), fragmentFrame mtu q' = .ok out' ∧ split out' = .ok (h', p') ∧
            p'.md = none ∧ mSet h'.flags = false)

/-- The round trip (43_reassembler.md R220). A well-formed fragmentable frame given to FRAG_START on an idle block whose
`MTU` is at least the type's floor is emitted by some number of FRAG_NEXTs; those wire buffers, fed in order to RECEIVE of a
block with the same `ENCODE_LENGTH` (70_reset_and_hazards.md R311) on which the stream is IDLE, hand up exactly one frame,
at the last one: the original with F and the reserved bit cleared (the original itself when both are clear). A size cap must
not be smaller than the frame. With `ENCODE_LENGTH = 0` the buffers are the wire frames and RECEIVE is REASSEMBLE. The spec
marks the clearing of the two bits as derived (decisions D7, D1); the premises on the cap and the configuration come from its
decisions D11 and D10. -/
def Obligations.RoundTrip : Prop :=
  ∀ (i : Instr) (t : FragType) (p : Parts) (a b : State), i.wf = true → (frameOf i).body = .frag t (some p) →
    a.disposed = false → a.fr = none → a.Admitted → 6 + t.prefixSize + 4 ≤ a.mtu →
    b.disposed = false → b.encodeLength = a.encodeLength → b.phase i.head.sid = .idle →
    (b.maxReassemblySize = 0 ∨ (p.md.getD []).length + p.data.length ≤ b.maxReassemblySize) →
    ∃ (fs : List Bytes) (a' : State),
      core.run (1 + fs.length) { a with inbox := .fragStart (encode i) :: List.replicate fs.length .fragNext } = .next a' ∧
      a'.down = a.down ++ fs ∧ a'.fr = none ∧ fs ≠ [] ∧
      (∀ n, n < fs.length → ∃ b', core.run n { b with inbox := fs.map .receive } = .next b' ∧ b'.up = b.up) ∧
      core.run fs.length { b with inbox := fs.map .receive } =
        .next { b with
          inbox := [], op := .reassemble
          up := b.up ++ [headerBytes false i.head.sid i.type.code (i.head.flags &&& 0x37F#10) ++ i.body] }

/-! ## The adapter -/

/-- PULL (44_adapter_ops.md R245) of a well-formed block in an admitted configuration raises and refuses nothing; it hands
down exactly one wire buffer when anything is pending and has no effect when nothing is. -/
def Obligations.PullEmitsExactlyOne : Prop :=
  ∀ s : State, s.Inv → s.Admitted → s.disposed = false →
    (pull s).errors = s.errors ∧ (pull s).refusals = s.refusals ∧ (pull s).up = s.up ∧ (pull s).reasm = s.reasm ∧
    ((s.fr ≠ none ∨ s.sq ≠ []) → ∃ buf, (pull s).down = s.down ++ [buf]) ∧
    (s.fr = none → s.sq = [] → pull s = s)

/-- Demand drains the block (44_adapter_ops.md R245; 70_reset_and_hazards.md R314): from a well-formed block in an admitted
configuration, PULLs alone, at most `State.work` of them, reach quiescence, where every accepted frame has been written out
in full; on the way nothing is raised, refused or handed upstream, and a clean run stays clean. -/
def Obligations.PullsDrainTheBlock : Prop :=
  ∀ s : State, s.Inv → s.Admitted → s.disposed = false →
    ∃ (n : Nat) (t : State), n ≤ s.work ∧ core.run n { s with inbox := List.replicate n .pull } = .next t ∧
      t.Quiescent ∧ t.disposed = false ∧ t.errors = s.errors ∧ t.refusals = s.refusals ∧ t.up = s.up ∧
      t.reasm = s.reasm ∧ (s.Clean → t.Clean) ∧ ∃ written, t.down = s.down ++ written ∧ written.length = n

/-- What PULL does with the frame that has waited longest (44_adapter_ops.md R245): one that needs no fragmenting is
written whole, with its length prefix when the toggle is on; one that does is loaded and its first fragment written. -/
def Obligations.PullStartsTheOldestFrame : Prop :=
  ∀ (s : State) (i : Instr) (rest : List Bytes), s.disposed = false → s.fr = none → i.wf = true →
    s.sq = encode i :: rest →
    (useC2 s.mtu (frameOf i) = false → (s.encodeLength = true → (encode i).length ≤ 0xFFFFFF) →
      pull s = { s with
        sq := rest
        down := s.down ++ [if s.encodeLength then ube 3 (encode i).length ++ encode i else encode i] }) ∧
    (∀ q out, useC2 s.mtu (frameOf i) = true → loadSequence s.mtu (frameOf i) = .ok q →
      fragmentFrame s.mtu q = .ok out → (s.encodeLength = true → out.length ≤ 0xFFFFFF) →
      pull s = { s with
        sq := rest, fr := advance s.mtu q
        down := s.down ++ [if s.encodeLength then ube 3 out.length ++ out else out] })

/-- Outbound contiguity (20_memory.md R63; 44_adapter_ops.md R243): while a chain is in progress only PULL and FRAG_NEXT
hand anything down, and what they hand down is the next fragment of that chain; and no frame leaves the queue but by
CANCEL_TX, DISPOSE, CLOSE or a per-connection error, which empty it. -/
def Obligations.ChainsAreContiguous : Prop :=
  ∀ (e : Event) (s t : State) (q : FragSeq), s.fr = some q → runEvent e s = .next t →
    (t.down ≠ s.down → (e = .pull ∨ e = .fragNext) ∧
      ∃ buf, fragmentBuffer s.mtu s.encodeLength q = .ok buf ∧ t.down = s.down ++ [buf] ∧ t.fr = advance s.mtu q) ∧
    ((∃ more, t.sq = s.sq ++ more) ∨ t.sq = [] ∧ t.fr = none)

/-- The queue is first-in first-out and a frame leaves it only when the fragmenter is idle (20_memory.md R64): an event only
adds frames at its end, takes the oldest one (a PULL while the fragmenter is idle), or empties it and idles the fragmenter (a
CANCEL_TX, or whatever disposes the block). -/
def Obligations.QueueIsFifo : Prop :=
  ∀ (e : Event) (s t : State), runEvent e s = .next t →
    (∃ more, t.sq = s.sq ++ more) ∨
    (e = .pull ∧ s.fr = none ∧ ∃ bs, s.sq = bs :: t.sq) ∨
    (t.sq = [] ∧ t.fr = none ∧ (e = .cancelTx ∨ t.disposed = true))

/-- RECEIVE with `ENCODE_LENGTH = 1` (44_adapter_ops.md R246; 41_codec_ops.md R151): the prefix is stripped, bytes beyond
the declared length are ignored, and a buffer too short for its prefix or for the length it declares disposes the block with
MalformedFrame without a stream id. With `ENCODE_LENGTH = 0` the buffer is the frame. -/
def Obligations.ReceiveUnwraps : Prop :=
  ∀ (s : State), s.disposed = false →
    (s.encodeLength = true →
      (∀ bs trailing : Bytes, bs.length ≤ 0xFFFFFF →
        receive (ube 3 bs.length ++ bs ++ trailing) s = runFrame .reassemble bs s) ∧
      (∀ buf : Bytes, (buf.length < 3 ∨ buf.length < 3 + be (buf.take 3)) →
        receive buf s = .next { s with
          reasm := [], fr := none, sq := [], disposed := true, errors := s.errors ++ [⟨.malformedFrame, none⟩] })) ∧
    (s.encodeLength = false → ∀ buf : Bytes, receive buf s = runFrame .reassemble buf s)

/-- SEND_MANY is SEND applied to each frame in order (44_adapter_ops.md R244). -/
def Obligations.SendManyIsSendInOrder : Prop :=
  (∀ s : State, sendMany [] s = .next s) ∧
  (∀ (bs : Bytes) (s : State), sendMany [bs] s = runFrame .send bs s) ∧
  ∀ (xs ys : List Bytes) (s : State), ∃ t, sendMany xs s = .next t ∧ sendMany (xs ++ ys) s = sendMany ys t

/-- DISPOSE and CLOSE (43_reassembler.md R215; 44_adapter_ops.md R247) as the next event: the table is emptied, the
fragmenter idled, the queue emptied and `DISPOSED` set, nothing is emitted and no error raised; a second one changes
nothing. -/
def Obligations.DisposeAndClose : Prop :=
  ∀ (s : State) (e : Event) (rest : List Event), (e = .dispose ∨ e = .close) → s.inbox = e :: rest →
    step s = .next { s with inbox := rest, reasm := [], fr := none, sq := [], disposed := true } ∧
    dispose (dispose s) = dispose s

/-- CANCEL_TX (42_fragmenter.md R185) as the next event: the sequence in progress and the queue are dropped; nothing else
changes and `DISPOSED` is not set. -/
def Obligations.CancelTxDropsOutbound : Prop :=
  ∀ (s : State) (rest : List Event), s.disposed = false → s.inbox = .cancelTx :: rest →
    step s = .next { s with inbox := rest, fr := none, sq := [] }

/-- CANCEL_RX (44_adapter_ops.md R250) as the next event: the table is emptied; nothing else changes. -/
def Obligations.CancelRxDropsInbound : Prop :=
  ∀ (s : State) (rest : List Event), s.disposed = false → s.inbox = .cancelRx :: rest →
    step s = .next { s with inbox := rest, reasm := [] }

/-- TRANSPORT_FAILURE (44_adapter_ops.md R248) as the next event: DISPOSE and one error event TransportFailure without a
stream id. That the teardown is the full, sticky DISPOSE is the spec's own choice (decisions D17, D28). -/
def Obligations.TransportFailureDisposes : Prop :=
  ∀ (s : State) (rest : List Event), s.disposed = false → s.inbox = .transportFailure :: rest →
    step s = .next { s with
      inbox := rest, reasm := [], fr := none, sq := [], disposed := true
      errors := s.errors ++ [⟨.transportFailure, none⟩] }

/-- The codec functions and `is_disposed` (41_codec_ops.md R140 to R154; 44_adapter_ops.md R251) answer their caller and change
no register of the block, disposed or not. The reply to each call is what the function of that name gives on the call's
arguments: its value, its error, or its refusal, which is also marked on the run; beside the arguments only WRAP and UNWRAP
depend on anything, the register `ENCODE_LENGTH`. Marking the refusal is the model's choice (log entry 12), not refusing the
call on a disposed block its reading (log entry 7). -/
def Obligations.CodecCallsArePure : Prop :=
  (∀ (c : CodecCall) (s : State), runEvent (.codec c) s = .next
    (match codecReply s.encodeLength c with
      | .ok r => { s with replies := s.replies ++ [r] }
      | .raised k sid => { s with replies := s.replies ++ [.raised k sid] }
      | .refused r => { s with replies := s.replies ++ [.refused r], refusals := s.refusals ++ [r] })) ∧
  (∀ c : CodecCall, (∀ bs, c ≠ .wrap bs ∧ c ≠ .unwrap bs) → codecReply true c = codecReply false c) ∧
  (∀ (enc : Bool) (bs pre data : Bytes) (md : Option Bytes) (sid : StreamId) (t : WireType) (o : OtherType) (fl : Flags),
    codecReply enc (.parseHeader bs) = (parseHeader bs).bind (fun h => .ok (.header h)) ∧
    codecReply enc (.classify t fl) = .ok (.mnemonic (classify t fl)) ∧
    codecReply enc (.offsets sid bs t fl) = (offsets sid bs t fl).bind (fun x => .ok (.offsets x)) ∧
    codecReply enc (.encode sid t fl pre md data) = (encodeFrame sid t fl pre md data).bind (fun x => .ok (.bytes x)) ∧
    codecReply enc (.encodeOpaque sid o fl data) = .ok (.bytes (encodeOpaque sid o fl data)) ∧
    codecReply enc (.sliceMetadata bs t) = (sliceMetadata bs t).bind (fun x => .ok (.metadata x)) ∧
    codecReply enc (.sliceData bs t) = (sliceData bs t).bind (fun x => .ok (.bytes x)) ∧
    codecReply enc (.initialRequestN bs) = (initialRequestN bs).bind (fun n => .ok (.irn n)) ∧
    codecReply enc (.split bs) = (split bs).bind (fun x => .ok (.parts x.1 x.2)) ∧
    codecReply enc (.lenEncode bs) = (lenEncode bs).bind (fun x => .ok (.bytes x)) ∧
    codecReply enc (.lenDecode bs) = (lenDecode bs).bind (fun x => .ok (.bytes x)) ∧
    codecReply enc (.frameLength bs) = .ok (.length bs.length) ∧
    codecReply enc (.wrap bs) = (if enc then lenEncode bs else .ok bs).bind (fun x => .ok (.bytes x)) ∧
    codecReply enc (.unwrap bs) = (if enc then lenDecode bs else .ok bs).bind (fun x => .ok (.bytes x))) ∧
  ∀ s : State, runEvent .isDisposed s = .next { s with replies := s.replies ++ [.isDisposed s.disposed] }
end

