-- ==== Sys2Proof/Laws/State.lean ====
section
/-!
SUPPORT. One lemma per field per named update of the state, so that no later proof unfolds a record update.
-/

namespace Sys2Proof.Machine

/-! ### emit_down -/

@[simp] theorem emitDown_mtu (buf : Bytes) (s : State) : (emitDown buf s).mtu = s.mtu := rfl
@[simp] theorem emitDown_encodeLength (buf : Bytes) (s : State) : (emitDown buf s).encodeLength = s.encodeLength := rfl
@[simp] theorem emitDown_maxReassemblySize (buf : Bytes) (s : State) : (emitDown buf s).maxReassemblySize = s.maxReassemblySize := rfl
@[simp] theorem emitDown_fr (buf : Bytes) (s : State) : (emitDown buf s).fr = s.fr := rfl
@[simp] theorem emitDown_reasm (buf : Bytes) (s : State) : (emitDown buf s).reasm = s.reasm := rfl
@[simp] theorem emitDown_disposed (buf : Bytes) (s : State) : (emitDown buf s).disposed = s.disposed := rfl
@[simp] theorem emitDown_sq (buf : Bytes) (s : State) : (emitDown buf s).sq = s.sq := rfl
@[simp] theorem emitDown_op (buf : Bytes) (s : State) : (emitDown buf s).op = s.op := rfl
@[simp] theorem emitDown_inbox (buf : Bytes) (s : State) : (emitDown buf s).inbox = s.inbox := rfl
@[simp] theorem emitDown_down (buf : Bytes) (s : State) : (emitDown buf s).down = s.down ++ [buf] := rfl
@[simp] theorem emitDown_up (buf : Bytes) (s : State) : (emitDown buf s).up = s.up := rfl
@[simp] theorem emitDown_errors (buf : Bytes) (s : State) : (emitDown buf s).errors = s.errors := rfl
@[simp] theorem emitDown_refusals (buf : Bytes) (s : State) : (emitDown buf s).refusals = s.refusals := rfl
@[simp] theorem emitDown_replies (buf : Bytes) (s : State) : (emitDown buf s).replies = s.replies := rfl

/-! ### emit_up -/

@[simp] theorem emitUp_mtu (bs : Bytes) (s : State) : (emitUp bs s).mtu = s.mtu := rfl
@[simp] theorem emitUp_encodeLength (bs : Bytes) (s : State) : (emitUp bs s).encodeLength = s.encodeLength := rfl
@[simp] theorem emitUp_maxReassemblySize (bs : Bytes) (s : State) : (emitUp bs s).maxReassemblySize = s.maxReassemblySize := rfl
@[simp] theorem emitUp_fr (bs : Bytes) (s : State) : (emitUp bs s).fr = s.fr := rfl
@[simp] theorem emitUp_reasm (bs : Bytes) (s : State) : (emitUp bs s).reasm = s.reasm := rfl
@[simp] theorem emitUp_disposed (bs : Bytes) (s : State) : (emitUp bs s).disposed = s.disposed := rfl
@[simp] theorem emitUp_sq (bs : Bytes) (s : State) : (emitUp bs s).sq = s.sq := rfl
@[simp] theorem emitUp_op (bs : Bytes) (s : State) : (emitUp bs s).op = s.op := rfl
@[simp] theorem emitUp_inbox (bs : Bytes) (s : State) : (emitUp bs s).inbox = s.inbox := rfl
@[simp] theorem emitUp_down (bs : Bytes) (s : State) : (emitUp bs s).down = s.down := rfl
@[simp] theorem emitUp_up (bs : Bytes) (s : State) : (emitUp bs s).up = s.up ++ [bs] := rfl
@[simp] theorem emitUp_errors (bs : Bytes) (s : State) : (emitUp bs s).errors = s.errors := rfl
@[simp] theorem emitUp_refusals (bs : Bytes) (s : State) : (emitUp bs s).refusals = s.refusals := rfl
@[simp] theorem emitUp_replies (bs : Bytes) (s : State) : (emitUp bs s).replies = s.replies := rfl

/-! ### Replies -/

@[simp] theorem reply_mtu (r : Reply) (s : State) : (reply r s).mtu = s.mtu := rfl
@[simp] theorem reply_encodeLength (r : Reply) (s : State) : (reply r s).encodeLength = s.encodeLength := rfl
@[simp] theorem reply_maxReassemblySize (r : Reply) (s : State) : (reply r s).maxReassemblySize = s.maxReassemblySize := rfl
@[simp] theorem reply_fr (r : Reply) (s : State) : (reply r s).fr = s.fr := rfl
@[simp] theorem reply_reasm (r : Reply) (s : State) : (reply r s).reasm = s.reasm := rfl
@[simp] theorem reply_disposed (r : Reply) (s : State) : (reply r s).disposed = s.disposed := rfl
@[simp] theorem reply_sq (r : Reply) (s : State) : (reply r s).sq = s.sq := rfl
@[simp] theorem reply_op (r : Reply) (s : State) : (reply r s).op = s.op := rfl
@[simp] theorem reply_inbox (r : Reply) (s : State) : (reply r s).inbox = s.inbox := rfl
@[simp] theorem reply_down (r : Reply) (s : State) : (reply r s).down = s.down := rfl
@[simp] theorem reply_up (r : Reply) (s : State) : (reply r s).up = s.up := rfl
@[simp] theorem reply_errors (r : Reply) (s : State) : (reply r s).errors = s.errors := rfl
@[simp] theorem reply_refusals (r : Reply) (s : State) : (reply r s).refusals = s.refusals := rfl
@[simp] theorem reply_replies (r : Reply) (s : State) : (reply r s).replies = s.replies ++ [r] := rfl

/-! ### refuse -/

@[simp] theorem refuse_mtu (r : RefuseReason) (s : State) : (refuse r s).mtu = s.mtu := rfl
@[simp] theorem refuse_encodeLength (r : RefuseReason) (s : State) : (refuse r s).encodeLength = s.encodeLength := rfl
@[simp] theorem refuse_maxReassemblySize (r : RefuseReason) (s : State) : (refuse r s).maxReassemblySize = s.maxReassemblySize := rfl
@[simp] theorem refuse_fr (r : RefuseReason) (s : State) : (refuse r s).fr = s.fr := rfl
@[simp] theorem refuse_reasm (r : RefuseReason) (s : State) : (refuse r s).reasm = s.reasm := rfl
@[simp] theorem refuse_disposed (r : RefuseReason) (s : State) : (refuse r s).disposed = s.disposed := rfl
@[simp] theorem refuse_sq (r : RefuseReason) (s : State) : (refuse r s).sq = s.sq := rfl
@[simp] theorem refuse_op (r : RefuseReason) (s : State) : (refuse r s).op = s.op := rfl
@[simp] theorem refuse_inbox (r : RefuseReason) (s : State) : (refuse r s).inbox = s.inbox := rfl
@[simp] theorem refuse_down (r : RefuseReason) (s : State) : (refuse r s).down = s.down := rfl
@[simp] theorem refuse_up (r : RefuseReason) (s : State) : (refuse r s).up = s.up := rfl
@[simp] theorem refuse_errors (r : RefuseReason) (s : State) : (refuse r s).errors = s.errors := rfl
@[simp] theorem refuse_refusals (r : RefuseReason) (s : State) : (refuse r s).refusals = s.refusals ++ [r] := rfl
@[simp] theorem refuse_replies (r : RefuseReason) (s : State) : (refuse r s).replies = s.replies := rfl

/-! ### DISPOSE -/

@[simp] theorem dispose_mtu (s : State) : (dispose s).mtu = s.mtu := rfl
@[simp] theorem dispose_encodeLength (s : State) : (dispose s).encodeLength = s.encodeLength := rfl
@[simp] theorem dispose_maxReassemblySize (s : State) : (dispose s).maxReassemblySize = s.maxReassemblySize := rfl
@[simp] theorem dispose_fr (s : State) : (dispose s).fr = none := rfl
@[simp] theorem dispose_reasm (s : State) : (dispose s).reasm = [] := rfl
@[simp] theorem dispose_disposed (s : State) : (dispose s).disposed = true := rfl
@[simp] theorem dispose_sq (s : State) : (dispose s).sq = [] := rfl
@[simp] theorem dispose_op (s : State) : (dispose s).op = s.op := rfl
@[simp] theorem dispose_inbox (s : State) : (dispose s).inbox = s.inbox := rfl
@[simp] theorem dispose_down (s : State) : (dispose s).down = s.down := rfl
@[simp] theorem dispose_up (s : State) : (dispose s).up = s.up := rfl
@[simp] theorem dispose_errors (s : State) : (dispose s).errors = s.errors := rfl
@[simp] theorem dispose_refusals (s : State) : (dispose s).refusals = s.refusals := rfl
@[simp] theorem dispose_replies (s : State) : (dispose s).replies = s.replies := rfl

/-! ### Raising an error -/

@[simp] theorem abortStream_none (s : State) : abortStream none s = s := rfl
@[simp] theorem abortStream_some (k : StreamId) (s : State) :
    abortStream (some k) s = { s with reasm := Table.erase k s.reasm } := rfl

@[simp] theorem raiseError_errors (k : ErrorKind) (sid : Option StreamId) (s : State) :
    (raiseError k sid s).errors = s.errors ++ [{ kind := k, sid := sid }] := by
  cases k <;> cases sid <;> rfl
@[simp] theorem raiseError_mtu (k : ErrorKind) (sid : Option StreamId) (s : State) :
    (raiseError k sid s).mtu = s.mtu := by cases k <;> cases sid <;> rfl
@[simp] theorem raiseError_encodeLength (k : ErrorKind) (sid : Option StreamId) (s : State) :
    (raiseError k sid s).encodeLength = s.encodeLength := by cases k <;> cases sid <;> rfl
@[simp] theorem raiseError_maxReassemblySize (k : ErrorKind) (sid : Option StreamId) (s : State) :
    (raiseError k sid s).maxReassemblySize = s.maxReassemblySize := by cases k <;> cases sid <;> rfl
@[simp] theorem raiseError_op (k : ErrorKind) (sid : Option StreamId) (s : State) :
    (raiseError k sid s).op = s.op := by cases k <;> cases sid <;> rfl
@[simp] theorem raiseError_inbox (k : ErrorKind) (sid : Option StreamId) (s : State) :
    (raiseError k sid s).inbox = s.inbox := by cases k <;> cases sid <;> rfl
@[simp] theorem raiseError_down (k : ErrorKind) (sid : Option StreamId) (s : State) :
    (raiseError k sid s).down = s.down := by cases k <;> cases sid <;> rfl
@[simp] theorem raiseError_up (k : ErrorKind) (sid : Option StreamId) (s : State) :
    (raiseError k sid s).up = s.up := by cases k <;> cases sid <;> rfl
@[simp] theorem raiseError_refusals (k : ErrorKind) (sid : Option StreamId) (s : State) :
    (raiseError k sid s).refusals = s.refusals := by cases k <;> cases sid <;> rfl
@[simp] theorem raiseError_replies (k : ErrorKind) (sid : Option StreamId) (s : State) :
    (raiseError k sid s).replies = s.replies := by cases k <;> cases sid <;> rfl

/-- What raising does, kind by kind (60_exceptions.md R261 to R265). -/
theorem raiseError_invalidFrameType (sid : Option StreamId) (s : State) :
    raiseError .invalidFrameType sid s = { s with errors := s.errors ++ [⟨.invalidFrameType, sid⟩] } := rfl
theorem raiseError_malformedFrame (sid : Option StreamId) (s : State) :
    raiseError .malformedFrame sid s =
      { dispose s with errors := s.errors ++ [⟨.malformedFrame, sid⟩] } := rfl
theorem raiseError_reassemblyProtocolViolation (k : StreamId) (s : State) :
    raiseError .reassemblyProtocolViolation (some k) s =
      { s with reasm := Table.erase k s.reasm, errors := s.errors ++ [⟨.reassemblyProtocolViolation, some k⟩] } := rfl
theorem raiseError_reassemblyTooLarge (k : StreamId) (s : State) :
    raiseError .reassemblyTooLarge (some k) s =
      { s with reasm := Table.erase k s.reasm, errors := s.errors ++ [⟨.reassemblyTooLarge, some k⟩] } := rfl
theorem raiseError_transportFailure (sid : Option StreamId) (s : State) :
    raiseError .transportFailure sid s =
      { dispose s with errors := s.errors ++ [⟨.transportFailure, sid⟩] } := rfl

/-- Raising any error kind changes at most the table, the fragmenter, the queue, `DISPOSED` and the error output; a
per-connection kind disposes, a per-frame kind leaves the fragmenter, the queue and `DISPOSED` alone. -/
theorem raiseError_cases (k : ErrorKind) (sid : Option StreamId) (s : State) :
    (perConnection k = true ∧ raiseError k sid s = { dispose s with errors := s.errors ++ [⟨k, sid⟩] }) ∨
    (perConnection k = false ∧ ∃ t : Table, (t = s.reasm ∨ ∃ j, sid = some j ∧ t = Table.erase j s.reasm) ∧
      raiseError k sid s = { s with reasm := t, errors := s.errors ++ [⟨k, sid⟩] }) := by
  cases k with
  | invalidFrameType => exact .inr ⟨rfl, s.reasm, .inl rfl, rfl⟩
  | malformedFrame => exact .inl ⟨rfl, rfl⟩
  | reassemblyProtocolViolation =>
    cases sid with
    | none => exact .inr ⟨rfl, s.reasm, .inl rfl, rfl⟩
    | some j => exact .inr ⟨rfl, _, .inr ⟨j, rfl, rfl⟩, rfl⟩
  | reassemblyTooLarge =>
    cases sid with
    | none => exact .inr ⟨rfl, s.reasm, .inl rfl, rfl⟩
    | some j => exact .inr ⟨rfl, _, .inr ⟨j, rfl, rfl⟩, rfl⟩
  | transportFailure => exact .inl ⟨rfl, rfl⟩

/-! ### Control -/

@[simp] theorem onCodec_ok {α : Type} (a : α) (s : State) (k : α → State) : onCodec (.ok a) s k = k a := rfl
@[simp] theorem onCodec_raised {α : Type} (e : ErrorKind) (sid : Option StreamId) (s : State) (k : α → State) :
    onCodec (.raised e sid) s k = raiseError e sid s := rfl
@[simp] theorem onCodec_refused {α : Type} (r : RefuseReason) (s : State) (k : α → State) :
    onCodec (.refused r) s k = refuse r s := rfl

theorem unlessDisposed_of_disposed {s : State} (h : s.disposed = true) (t : State) :
    unlessDisposed s t = refuse .disposed s := if_pos h
theorem unlessDisposed_of_live {s : State} (h : s.disposed = false) (t : State) : unlessDisposed s t = t := by
  rw [unlessDisposed, h]; rfl

end Sys2Proof.Machine
end

