-- ==== Sys2Proof/Laws/Adapter.lean ====
section
/-!
SUPPORT. What SEND, FRAG_START and PULL can do, and what the checks they share can answer.
-/

namespace Sys2Proof.Machine

/-- FRAG_START's checks refuse only with MtuTooSmall, raise only the two kinds the spec names, and load a fresh sequence
otherwise. -/
theorem loadSequence_cases (mtu : Nat) (f : Frame) :
    ((∃ t, f.body = .other t) ∧ loadSequence mtu f = .raised .invalidFrameType (some f.sid)) ∨
    (∃ t parts, f.body = .frag t parts ∧ mtu < mtuFloor t ∧ loadSequence mtu f = .refused .mtuTooSmall) ∨
    (∃ t, f.body = .frag t none ∧ mtuFloor t ≤ mtu ∧ loadSequence mtu f = .raised .malformedFrame (some f.sid)) ∨
    (∃ t p, f.body = .frag t (some p) ∧ mtuFloor t ≤ mtu ∧
      loadSequence mtu f =
        .ok { sid := f.sid, type := t, oflags := f.flags, pre := p.pre, md := p.md.getD [], mdOff := 0,
              mdOpen := mSet f.flags, data := p.data, dataOff := 0, isFirst := true }) := by
  unfold loadSequence
  cases hb : f.body with
  | other t => exact .inl ⟨⟨t, rfl⟩, rfl⟩
  | frag t parts =>
    right
    by_cases hm : mtu < mtuFloor t
    · exact .inl ⟨t, parts, rfl, hm, if_pos hm⟩
    · right
      dsimp only
      rw [if_neg hm]
      cases parts with
      | none => exact .inl ⟨t, rfl, by omega, rfl⟩
      | some p => exact .inr ⟨t, p, rfl, by omega, rfl⟩

/-- What SEND's checks answer. -/
theorem sendCheck_cases (mtu : Nat) (encodeLength : Bool) (f : Frame) :
    sendCheck mtu encodeLength f = .ok () ∨
    sendCheck mtu encodeLength f = .raised .malformedFrame (some f.sid) ∨
    ∃ r, sendCheck mtu encodeLength f = .refused r := by
  unfold sendCheck
  split_ifs with h1 h2
  · rcases loadSequence_cases mtu f with ⟨⟨t, hb⟩, -⟩ | ⟨t, parts, -, -, e⟩ | ⟨t, -, -, e⟩ | ⟨t, p, -, -, e⟩
    · simp [useC2, hb] at h1
    · exact .inr (.inr ⟨_, by rw [e]; rfl⟩)
    · exact .inr (.inl (by rw [e]; rfl))
    · exact .inl (by rw [e]; rfl)
  · exact .inr (.inr ⟨_, rfl⟩)
  · exact .inl rfl

/-- SEND refuses, disposes the block, or enqueues the frame. -/
theorem sendFrame_cases (f : Frame) (s : State) :
    (∃ r, sendFrame f s = refuse r s) ∨
    sendFrame f s = raiseError .malformedFrame (some f.sid) s ∨
    (s.disposed = false ∧ sendCheck s.mtu s.encodeLength f = .ok () ∧
      sendFrame f s = { s with sq := s.sq ++ [f.bytes] }) := by
  unfold sendFrame
  cases hd : s.disposed with
  | true => exact .inl ⟨_, unlessDisposed_of_disposed hd _⟩
  | false =>
    rw [unlessDisposed_of_live hd]
    rcases sendCheck_cases s.mtu s.encodeLength f with e | e | ⟨r, e⟩ <;> rw [e]
    · exact .inr (.inr ⟨rfl, rfl, rfl⟩)
    · exact .inr (.inl rfl)
    · exact .inl ⟨r, rfl⟩

/-- FRAG_START refuses, is held, raises one of two kinds, or loads the fragmenter registers. -/
theorem fragStartFrame_cases (f : Frame) (s : State) :
    (∃ r, fragStartFrame f s = refuse r s) ∨
    (s.fr ≠ none ∧ fragStartFrame f s = s) ∨
    fragStartFrame f s = raiseError .invalidFrameType (some f.sid) s ∨
    fragStartFrame f s = raiseError .malformedFrame (some f.sid) s ∨
    (s.disposed = false ∧ s.fr = none ∧ ∃ q, loadSequence s.mtu f = .ok q ∧
      fragStartFrame f s = { s with fr := some q }) := by
  unfold fragStartFrame
  cases hd : s.disposed with
  | true => exact .inl ⟨_, unlessDisposed_of_disposed hd _⟩
  | false =>
    rw [unlessDisposed_of_live hd]
    cases hf : s.fr with
    | some q => exact .inr (.inl ⟨by simp, by simp [State.busy, hf]⟩)
    | none =>
      rw [if_neg (by simp [State.busy, hf])]
      rcases loadSequence_cases s.mtu f with ⟨-, e⟩ | ⟨t, parts, -, -, e⟩ | ⟨t, -, -, e⟩ | ⟨t, p, -, -, e⟩ <;> rw [e]
      · exact .inr (.inr (.inl rfl))
      · exact .inl ⟨_, rfl⟩
      · exact .inr (.inr (.inr (.inl rfl)))
      · exact .inr (.inr (.inr (.inr ⟨rfl, rfl, _, rfl, rfl⟩)))

/-- WRAP refuses only, with FieldOverflow, a frame too long for a 24-bit length. -/
theorem wrap_cases (enc : Bool) (bs : Bytes) :
    (enc = true ∧ 0xFFFFFF < bs.length ∧ wrap enc bs = .refused .fieldOverflow) ∨
    ((enc = true → bs.length ≤ 0xFFFFFF) ∧
      wrap enc bs = .ok (if enc then ube 3 bs.length ++ bs else bs)) := by
  cases enc with
  | false => exact .inr ⟨by simp, rfl⟩
  | true =>
    by_cases h : bs.length ≤ 0xFFFFFF
    · refine .inr ⟨fun _ => h, ?_⟩
      simp only [wrap, lenEncode, if_true]
      rw [if_neg (by simp; omega)]
    · refine .inl ⟨rfl, by omega, ?_⟩
      simp only [wrap, lenEncode, if_true]
      rw [if_pos (by simp; omega)]

theorem fragmentFrame_cases (mtu : Nat) (q : FragSeq) :
    (∃ out, fragmentFrame mtu q = .ok out) ∨ ∃ r, fragmentFrame mtu q = .refused r := by
  unfold fragmentFrame encodeFrame
  dsimp only
  split_ifs <;> simp

theorem fragmentBuffer_cases (mtu : Nat) (enc : Bool) (q : FragSeq) :
    (∃ buf, fragmentBuffer mtu enc q = .ok buf) ∨ ∃ r, fragmentBuffer mtu enc q = .refused r := by
  unfold fragmentBuffer
  rcases fragmentFrame_cases mtu q with ⟨out, e⟩ | ⟨r, e⟩ <;> rw [e]
  · rcases wrap_cases enc out with ⟨-, -, e⟩ | ⟨-, e⟩
    · exact .inr ⟨_, e⟩
    · exact .inl ⟨_, e⟩
  · exact .inr ⟨r, rfl⟩

/-- Producing one element either hands it down and advances the registers, or refuses. -/
theorem produceFragment_cases (q : FragSeq) (s : State) :
    (∃ buf, fragmentBuffer s.mtu s.encodeLength q = .ok buf ∧
      produceFragment q s = { s with down := s.down ++ [buf], fr := advance s.mtu q }) ∨
    ∃ r, fragmentBuffer s.mtu s.encodeLength q = .refused r ∧ produceFragment q s = refuse r s := by
  unfold produceFragment
  rcases fragmentBuffer_cases s.mtu s.encodeLength q with ⟨buf, e⟩ | ⟨r, e⟩ <;> rw [e]
  · exact .inl ⟨buf, rfl, rfl⟩
  · exact .inr ⟨r, rfl, rfl⟩

/-- PULL starting a queued frame writes one buffer, or refuses or raises in the state before it. -/
theorem startQueued_cases (f : Frame) (rest : List Bytes) (s : State) :
    (useC2 s.mtu f = true ∧ ∃ q buf, loadSequence s.mtu f = .ok q ∧
      fragmentBuffer s.mtu s.encodeLength q = .ok buf ∧
      startQueued f rest s = { s with down := s.down ++ [buf], sq := rest, fr := advance s.mtu q }) ∨
    (useC2 s.mtu f = false ∧ ∃ buf, wrap s.encodeLength f.bytes = .ok buf ∧
      startQueued f rest s = { s with down := s.down ++ [buf], sq := rest }) ∨
    (∃ r, startQueued f rest s = refuse r s) ∨
    (sendCheck s.mtu s.encodeLength f ≠ .ok () ∧
      startQueued f rest s = raiseError .malformedFrame (some f.sid) s) := by
  unfold startQueued
  cases hu : useC2 s.mtu f with
  | true =>
    rw [if_pos rfl]
    rcases loadSequence_cases s.mtu f with ⟨⟨t, hb⟩, -⟩ | ⟨t, parts, -, -, e⟩ | ⟨t, -, -, e⟩ | ⟨t, p, -, -, e⟩
    · simp [useC2, hb] at hu
    · exact .inr (.inr (.inl ⟨_, by rw [e]; rfl⟩))
    · exact .inr (.inr (.inr ⟨by simp [sendCheck, hu, e], by rw [e]; rfl⟩))
    · rw [e]
      simp only [Codec.bind_ok]
      rcases fragmentBuffer_cases s.mtu s.encodeLength
        { sid := f.sid, type := t, oflags := f.flags, pre := p.pre, md := p.md.getD [], mdOff := 0,
          mdOpen := mSet f.flags, data := p.data, dataOff := 0, isFirst := true } with ⟨buf, eb⟩ | ⟨r, eb⟩
      · exact .inl ⟨trivial, _, buf, rfl, eb, by simp [eb, emitDown]⟩
      · exact .inr (.inr (.inl ⟨r, by rw [eb]; rfl⟩))
  | false =>
    simp only [Bool.false_eq_true, if_false]
    rcases wrap_cases s.encodeLength f.bytes with ⟨-, -, e⟩ | ⟨-, e⟩
    · exact .inr (.inr (.inl ⟨_, by rw [e]; rfl⟩))
    · exact .inr (.inl ⟨trivial, _, e, by simp [e, emitDown]⟩)

end Sys2Proof.Machine
end

