-- ==== Sys2Proof/Laws/Bytes.lean ====
section
/-!
SUPPORT. What `be`, `ube` and `slice` do: big-endian values and byte sequences are inverse to each other within their
width, and slices of concatenations.
-/

namespace Sys2Proof

@[simp] theorem be_nil : be [] = 0 := rfl

theorem foldl_be (bs : Bytes) (a : Nat) :
    bs.foldl (fun acc b => acc * 256 + b.toNat) a = a * 256 ^ bs.length + be bs := by
  induction bs generalizing a with
  | nil => simp
  | cons b bs ih =>
    rw [be, List.foldl_cons, List.foldl_cons, ih, ih (0 * 256 + b.toNat), List.length_cons, Nat.pow_succ]
    ring

theorem be_cons (b : Byte) (bs : Bytes) : be (b :: bs) = b.toNat * 256 ^ bs.length + be bs := by
  rw [be, List.foldl_cons, foldl_be]; simp

theorem be_append (a b : Bytes) : be (a ++ b) = be a * 256 ^ b.length + be b := by
  rw [be, List.foldl_append, foldl_be]; rfl

theorem be_lt (bs : Bytes) : be bs < 256 ^ bs.length := by
  induction bs with
  | nil => simp
  | cons b bs ih =>
    rw [be_cons, List.length_cons, Nat.pow_succ]
    have hb : b.toNat < 256 := b.isLt
    nlinarith

@[simp] theorem length_ube (n v : Nat) : (ube n v).length = n := by
  induction n with
  | zero => rfl
  | succ n ih => simp [ube, ih]

theorem be_ube (n v : Nat) : be (ube n v) = v % 256 ^ n := by
  induction n with
  | zero => simp [ube, Nat.mod_one]
  | succ n ih =>
    have hd : v % 256 ^ (n + 1) = v % 256 ^ n + 256 ^ n * (v / 256 ^ n % 256) := by
      rw [Nat.pow_succ (n := 256), Nat.mod_mul (a := 256 ^ n)]
    rw [ube, be_cons, length_ube, ih, BitVec.toNat_ofNat, hd]
    simp only [Nat.reducePow]
    ring

theorem be_ube_of_lt {n v : Nat} (h : v < 256 ^ n) : be (ube n v) = v := by
  rw [be_ube, Nat.mod_eq_of_lt h]

/-- The digits of a number depend only on its value modulo the width. -/
theorem ube_mod (n v : Nat) {m : Nat} (h : n ≤ m) : ube n (v % 256 ^ m) = ube n v := by
  induction n with
  | zero => rfl
  | succ n ih =>
    rw [ube, ube, ih (by omega)]
    congr 1
    apply BitVec.eq_of_toNat_eq
    rw [BitVec.toNat_ofNat, BitVec.toNat_ofNat]
    obtain ⟨k, rfl⟩ : ∃ k, m = n + (k + 1) := ⟨m - n - 1, by omega⟩
    rw [Nat.pow_add, Nat.mod_mul_right_div_self, Nat.pow_succ]
    exact Nat.mod_mul_left_mod _ _ _

theorem ube_be (bs : Bytes) : ube bs.length (be bs) = bs := by
  induction bs with
  | nil => rfl
  | cons b bs ih =>
    have hlt := be_lt bs
    rw [List.length_cons, ube, be_cons]
    congr 1
    · rw [Nat.add_comm, Nat.add_mul_div_right _ _ (by positivity), Nat.div_eq_of_lt hlt, Nat.zero_add]
      simp
    · rw [← ube_mod bs.length (b.toNat * 256 ^ bs.length + be bs) (Nat.le_refl _), Nat.add_comm,
        Nat.add_mul_mod_self_right, Nat.mod_eq_of_lt hlt, ih]

theorem ube_be_of_length {n : Nat} {bs : Bytes} (h : bs.length = n) : ube n (be bs) = bs := by
  subst h; exact ube_be bs

@[simp] theorem length_slice (bs : Bytes) (a b : Nat) : (slice bs a b).length = min (b - a) (bs.length - a) := by
  simp [slice]

/-- A slice that lies past the first part of a concatenation. -/
theorem slice_append_right (xs ys : Bytes) (a b : Nat) :
    slice (xs ++ ys) (xs.length + a) (xs.length + b) = slice ys a b := by
  simp only [slice, List.drop_append]
  rw [List.drop_of_length_le (by omega), List.nil_append]
  congr 1 <;> first | omega | (congr 1; omega)

/-- The slice that is the first part of a concatenation. -/
theorem slice_append_left (xs ys : Bytes) : slice (xs ++ ys) 0 xs.length = xs := by
  simp [slice]

/-- A slice that starts at the end of the first part and runs to the end. -/
theorem slice_to_end (xs ys : Bytes) : slice (xs ++ ys) xs.length (xs ++ ys).length = ys := by
  simp [slice]

theorem slice_eq_drop (bs : Bytes) (a : Nat) : slice bs a bs.length = bs.drop a := by
  simp [slice, List.take_of_length_le]

theorem slice_self (bs : Bytes) (a : Nat) : slice bs a a = [] := by simp [slice]

end Sys2Proof
end

