-- ==== Sys2Proof/Laws/Codec.lean ====
section
/-!
SUPPORT. One lemma per codec function: what PARSE_HEADER reads from a header the encoder wrote and back, and what the
split of a frame gives for whole and for cut operands and back.
-/

namespace Sys2Proof

/-! ### Type codes -/

@[simp] theorem WireType.ofCode_code (t : WireType) : WireType.ofCode t.code = some t := by
  rcases t with t | t <;> cases t <;> rfl

theorem WireType.code_of_ofCode {c : TypeCode} {t : WireType} (h : WireType.ofCode c = some t) : t.code = c := by
  have key : ∀ c : TypeCode, ∀ t : WireType, WireType.ofCode c = some t → t.code = c := by
    intro c
    have : c.toNat < 64 := c.isLt
    obtain ⟨n, hn⟩ : ∃ n, n = c.toNat := ⟨_, rfl⟩
    have hc : c = BitVec.ofNat 6 n := by subst hn; simp
    rw [hc]
    rw [← hn] at this
    clear hn hc c
    interval_cases n <;> intro t ht <;> simp [WireType.ofCode] at ht <;> subst ht <;> rfl
  exact key c t h

/-! ### Headers -/

@[simp] theorem length_headerBytes (r : Bool) (sid : StreamId) (c : TypeCode) (fl : Flags) :
    (headerBytes r sid c fl).length = 6 := by simp [headerBytes]

theorem headerWord_headerBytes (r : Bool) (sid : StreamId) (c : TypeCode) (fl : Flags) (rest : Bytes) :
    headerWord (headerBytes r sid c fl ++ rest) = (if r then 2 ^ 31 else 0) + sid.toNat := by
  have hs : sid.toNat < 2 ^ 31 := sid.isLt
  have h := slice_append_left (ube 4 ((if r then 2 ^ 31 else 0) + sid.toNat))
    (ube 2 (c.toNat * 1024 + fl.toNat) ++ rest)
  rw [length_ube] at h
  rw [headerWord, headerBytes, List.append_assoc, h, be_ube_of_lt]
  split <;> omega

theorem headerTypeFlags_headerBytes (r : Bool) (sid : StreamId) (c : TypeCode) (fl : Flags) (rest : Bytes) :
    headerTypeFlags (headerBytes r sid c fl ++ rest) = c.toNat * 1024 + fl.toNat := by
  have hc : c.toNat < 2 ^ 6 := c.isLt
  have hf : fl.toNat < 2 ^ 10 := fl.isLt
  have h1 := slice_append_right (ube 4 ((if r then 2 ^ 31 else 0) + sid.toNat))
    (ube 2 (c.toNat * 1024 + fl.toNat) ++ rest) 0 2
  have h2 := slice_append_left (ube 2 (c.toNat * 1024 + fl.toNat)) rest
  rw [length_ube] at h1 h2
  rw [headerTypeFlags, headerBytes, List.append_assoc]
  simp only [Nat.add_zero, Nat.reduceAdd] at h1
  rw [h1, h2, be_ube_of_lt (by omega)]

/-- PARSE_HEADER reads back the fields of a header, whatever follows it and whatever the reserved bit is. -/
theorem parseHeader_headerBytes (r : Bool) (sid : StreamId) (t : WireType) (fl : Flags) (rest : Bytes) :
    parseHeader (headerBytes r sid t.code fl ++ rest) = .ok { sid := sid, type := t, flags := fl } := by
  have hf : fl.toNat < 1024 := fl.isLt
  have hs : sid.toNat < 2 ^ 31 := sid.isLt
  have hc : BitVec.ofNat 6 ((t.code.toNat * 1024 + fl.toNat) / 1024) = t.code := by
    rw [show (t.code.toNat * 1024 + fl.toNat) / 1024 = t.code.toNat by omega]; simp
  have hfl : BitVec.ofNat 10 (t.code.toNat * 1024 + fl.toNat) = fl := by
    apply BitVec.eq_of_toNat_eq
    rw [BitVec.toNat_ofNat, show (2 : Nat) ^ 10 = 1024 from rfl, Nat.add_comm, Nat.add_mul_mod_self_right]
    exact Nat.mod_eq_of_lt hf
  have hsid : BitVec.ofNat 31 ((if r then 2 ^ 31 else 0) + sid.toNat) = sid := by
    apply BitVec.eq_of_toNat_eq
    rw [BitVec.toNat_ofNat]
    split <;> omega
  unfold parseHeader
  rw [if_neg (by simp)]
  rw [headerWord_headerBytes, headerTypeFlags_headerBytes, hc, hfl, hsid, WireType.ofCode_code]

/-- The reserved bit of a header that was written. -/
theorem testBit_headerWord (r : Bool) (sid : StreamId) (c : TypeCode) (fl : Flags) (rest : Bytes) :
    (headerWord (headerBytes r sid c fl ++ rest)).testBit 31 = r := by
  have hs : sid.toNat < 2 ^ 31 := sid.isLt
  rw [headerWord_headerBytes]
  cases r
  · rw [if_neg (by simp), Nat.zero_add]
    exact Nat.testBit_lt_two_pow hs
  · rw [if_pos rfl, Nat.testBit_two_pow_add_eq, Nat.testBit_lt_two_pow hs]; rfl

theorem headerWord_lt {bs : Bytes} (h : 6 ≤ bs.length) : headerWord bs < 2 ^ 32 := by
  have := be_lt (slice bs 0 4)
  rw [length_slice, show min (4 - 0) (bs.length - 0) = 4 by omega] at this
  exact this

theorem headerTypeFlags_lt {bs : Bytes} (h : 6 ≤ bs.length) : headerTypeFlags bs < 2 ^ 16 := by
  have := be_lt (slice bs 4 6)
  rw [length_slice, show min (6 - 4) (bs.length - 4) = 2 by omega] at this
  exact this

theorem ube_headerWord {bs : Bytes} (h : 6 ≤ bs.length) : ube 4 (headerWord bs) = slice bs 0 4 :=
  ube_be_of_length (by rw [length_slice]; omega)

theorem ube_headerTypeFlags {bs : Bytes} (h : 6 ≤ bs.length) : ube 2 (headerTypeFlags bs) = slice bs 4 6 :=
  ube_be_of_length (by rw [length_slice]; omega)

/-- A header is written back from the fields read from it. -/
theorem headerBytes_read {bs : Bytes} (h : 6 ≤ bs.length) :
    headerBytes ((headerWord bs).testBit 31) (BitVec.ofNat 31 (headerWord bs))
      (BitVec.ofNat 6 (headerTypeFlags bs / 1024)) (BitVec.ofNat 10 (headerTypeFlags bs)) ++ bs.drop 6 = bs := by
  have hw := headerWord_lt h
  have ht := headerTypeFlags_lt h
  have e1 : (if (headerWord bs).testBit 31 then 2 ^ 31 else 0) + (BitVec.ofNat 31 (headerWord bs)).toNat
      = headerWord bs := by
    rw [BitVec.toNat_ofNat, Nat.testBit_eq_decide_div_mod_eq]
    by_cases hb : headerWord bs / 2 ^ 31 % 2 = 1
    · rw [if_pos (by simpa using hb)]; omega
    · rw [if_neg (by simpa using hb)]; omega
  have e2 : (BitVec.ofNat 6 (headerTypeFlags bs / 1024)).toNat * 1024 + (BitVec.ofNat 10 (headerTypeFlags bs)).toNat
      = headerTypeFlags bs := by
    rw [BitVec.toNat_ofNat, BitVec.toNat_ofNat]; omega
  rw [headerBytes, e1, e2, ube_headerWord h, ube_headerTypeFlags h]
  simp only [slice, List.drop_zero, Nat.sub_zero]
  have e3 : (bs.drop 4).take (6 - 4) ++ bs.drop 6 = bs.drop 4 := by
    have := List.take_append_drop 2 (bs.drop 4)
    rwa [List.drop_drop] at this
  rw [List.append_assoc, e3, List.take_append_drop]

/-- PARSE_HEADER fails only in the two ways 41_codec_ops.md R141 names. -/
theorem parseHeader_cases (bs : Bytes) :
    (bs.length < 6 ∧ parseHeader bs = .raised .malformedFrame none) ∨
    (6 ≤ bs.length ∧ WireType.ofCode (BitVec.ofNat 6 (headerTypeFlags bs / 1024)) = none ∧
      parseHeader bs = .raised .invalidFrameType (some (BitVec.ofNat 31 (headerWord bs)))) ∨
    (6 ≤ bs.length ∧ ∃ t, WireType.ofCode (BitVec.ofNat 6 (headerTypeFlags bs / 1024)) = some t ∧
      parseHeader bs = .ok { sid := BitVec.ofNat 31 (headerWord bs), type := t,
                             flags := BitVec.ofNat 10 (headerTypeFlags bs) }) := by
  unfold parseHeader
  by_cases h : bs.length < 6
  · left; exact ⟨h, if_pos h⟩
  · right
    have h6 : 6 ≤ bs.length := by omega
    rw [if_neg h]
    cases ht : WireType.ofCode (BitVec.ofNat 6 (headerTypeFlags bs / 1024)) with
    | none => left; exact ⟨h6, rfl, rfl⟩
    | some t => right; exact ⟨h6, t, rfl, rfl⟩

/-- A frame whose header was read is that header followed by the rest of the frame. -/
theorem headerBytes_of_parseHeader {bs : Bytes} {h : Header} (hp : parseHeader bs = .ok h) :
    6 ≤ bs.length ∧ headerBytes (headOf h bs).reserved h.sid h.type.code h.flags ++ bodyOf bs = bs := by
  rcases parseHeader_cases bs with ⟨-, e⟩ | ⟨-, -, e⟩ | ⟨h6, t, ht, e⟩
  · rw [e] at hp; cases hp
  · rw [e] at hp; cases hp
  · rw [e] at hp
    injection hp with hp
    subst hp
    exact ⟨h6, by rw [WireType.code_of_ofCode ht]; exact headerBytes_read h6⟩

/-! ### Splitting -/

@[simp] theorem metadataField_none : metadataField none = [] := rfl
@[simp] theorem metadataField_some (m : Bytes) : metadataField (some m) = ube 3 m.length ++ m := rfl

/-- OFFSETS of a fragmentable type, with the sizes of 00_scope.md R9 written out. -/
theorem offsets_frag (sid : StreamId) (bs : Bytes) (t : FragType) (fl : Flags) :
    offsets sid bs (.frag t) fl =
      if bs.length < 6 + t.prefixSize then .raised .malformedFrame (some sid)
      else if mSet fl then
        if bs.length < 6 + t.prefixSize + 3 then .raised .malformedFrame (some sid)
        else if bs.length < 6 + t.prefixSize + 3 + be (slice bs (6 + t.prefixSize) (6 + t.prefixSize + 3)) then
          .raised .malformedFrame (some sid)
        else .ok ⟨t.prefixSize, 6 + t.prefixSize,
          some (6 + t.prefixSize + 3, 6 + t.prefixSize + 3 + be (slice bs (6 + t.prefixSize) (6 + t.prefixSize + 3))),
          6 + t.prefixSize + 3 + be (slice bs (6 + t.prefixSize) (6 + t.prefixSize + 3)), bs.length⟩
      else .ok ⟨t.prefixSize, 6 + t.prefixSize, none, 6 + t.prefixSize, bs.length⟩ := rfl

theorem cutShort_eq (p : Nat) (fl : Flags) (raw : Bytes) :
    cutShort p fl raw = (raw.length < p || (mSet fl && (raw.length < p + 3
      || raw.length < p + 3 + be (slice raw p (p + 3))))) := rfl

theorem metadataWf_iff (fl : Flags) (md : Option Bytes) :
    metadataWf fl md = true ↔ md.isSome = mSet fl ∧ (md.getD []).length < 256 ^ 3 := by
  simp only [metadataWf, Bool.and_eq_true, beq_iff_eq, decide_eq_true_eq, Config.maxU24_eq]
  constructor <;> rintro ⟨a, b⟩ <;> exact ⟨a, by omega⟩

/-- A slice of the frame is a slice of its bytes after the header. -/
theorem slice_body {hdr : Bytes} (hl : hdr.length = 6) (raw : Bytes) (a b : Nat) :
    slice (hdr ++ raw) (6 + a) (6 + b) = slice raw a b := by
  have := slice_append_right hdr raw a b
  rwa [hl] at this

/-- OFFSETS of a frame in terms of its bytes after the header. -/
theorem offsets_body {hdr : Bytes} (hl : hdr.length = 6) (sid : StreamId) (raw : Bytes) (t : FragType) (fl : Flags) :
    offsets sid (hdr ++ raw) (.frag t) fl =
      if cutShort t.prefixSize fl raw then .raised .malformedFrame (some sid)
      else if mSet fl then
        .ok ⟨t.prefixSize, 6 + t.prefixSize,
          some (6 + (t.prefixSize + 3), 6 + (t.prefixSize + 3 + be (slice raw t.prefixSize (t.prefixSize + 3)))),
          6 + (t.prefixSize + 3 + be (slice raw t.prefixSize (t.prefixSize + 3))), 6 + raw.length⟩
      else .ok ⟨t.prefixSize, 6 + t.prefixSize, none, 6 + t.prefixSize, 6 + raw.length⟩ := by
  have hs := slice_body hl raw t.prefixSize (t.prefixSize + 3)
  rw [← Nat.add_assoc] at hs
  rw [offsets_frag, hs, List.length_append, hl, cutShort_eq]
  simp only [← Nat.add_assoc, Bool.or_eq_true, Bool.and_eq_true, decide_eq_true_eq]
  cases mSet fl <;> simp only [Bool.false_eq_true, if_false, if_true, false_and, or_false, true_and] <;>
    split_ifs <;> first | rfl | omega

/-- The three slices of SPLIT in terms of the bytes after the header. -/
def rawParts (p : Nat) (fl : Flags) (raw : Bytes) : Parts :=
  if mSet fl then
    { pre := raw.take p
      md := some (slice raw (p + 3) (p + 3 + be (slice raw p (p + 3))))
      data := raw.drop (p + 3 + be (slice raw p (p + 3))) }
  else { pre := raw.take p, md := none, data := raw.drop p }

/-- SPLIT in terms of the bytes after the header. -/
theorem splitAt_body {h : Header} {t : FragType} (ht : h.type = .frag t) {hdr : Bytes} (hl : hdr.length = 6)
    (raw : Bytes) :
    splitAt h (hdr ++ raw) =
      if cutShort t.prefixSize h.flags raw then .raised .malformedFrame (some h.sid)
      else .ok (rawParts t.prefixSize h.flags raw) := by
  have hlen : (hdr ++ raw).length = 6 + raw.length := by rw [List.length_append, hl]
  have hpre : slice (hdr ++ raw) 6 (6 + t.prefixSize) = raw.take t.prefixSize := by
    have := slice_body hl raw 0 t.prefixSize
    simpa [slice] using this
  have hdata : ∀ a, slice (hdr ++ raw) (6 + a) (6 + raw.length) = raw.drop a := by
    intro a
    rw [slice_body hl, slice_eq_drop]
  unfold splitAt
  rw [ht, offsets_body hl]
  split_ifs with hc hM
  · rfl
  · simp only [Codec.bind_ok, sliceAt, rawParts, if_pos hM, hlen, slice_body hl, slice_eq_drop, hpre]
  · simp only [Codec.bind_ok, sliceAt, rawParts, if_neg hM, hlen, hdata, hpre]

/-- SPLIT of cut operands raises MalformedFrame. -/
theorem splitAt_cut {h : Header} {t : FragType} (ht : h.type = .frag t) {hdr raw : Bytes} (hl : hdr.length = 6)
    (hc : cutShort t.prefixSize h.flags raw = true) :
    splitAt h (hdr ++ raw) = .raised .malformedFrame (some h.sid) := by
  rw [splitAt_body ht hl, if_pos hc]

/-- What the three slices of an uncut region spell is that region. -/
theorem rawParts_spell {p : Nat} {fl : Flags} {raw : Bytes} (hc : cutShort p fl raw = false) :
    (rawParts p fl raw).pre.length = p ∧ metadataWf fl (rawParts p fl raw).md = true ∧
      (rawParts p fl raw).pre ++ metadataField (rawParts p fl raw).md ++ (rawParts p fl raw).data = raw := by
  rw [cutShort_eq] at hc
  simp only [Bool.or_eq_false_iff, decide_eq_false_iff_not, Bool.and_eq_false_iff] at hc
  obtain ⟨h1, h2⟩ := hc
  have hprel : (raw.take p).length = p := by rw [List.length_take]; omega
  rw [metadataWf_iff]
  unfold rawParts
  cases hM : mSet fl with
  | false => exact ⟨hprel, by simp, by simp⟩
  | true =>
    rw [hM] at h2
    simp only [Bool.true_eq_false, false_or] at h2
    obtain ⟨h2, h3⟩ := h2
    simp only [if_true, metadataField_some, Option.isSome_some, Option.getD_some, true_and]
    have hsl : (slice raw p (p + 3)).length = 3 := by rw [length_slice]; omega
    have hL := be_lt (slice raw p (p + 3))
    rw [hsl] at hL
    have hb : ube 3 (be (slice raw p (p + 3))) = slice raw p (p + 3) := ube_be_of_length hsl
    generalize be (slice raw p (p + 3)) = L at *
    have hm : (slice raw (p + 3) (p + 3 + L)).length = L := by rw [length_slice]; omega
    refine ⟨hprel, by rw [hm]; exact hL, ?_⟩
    rw [hm, hb]
    have a1 : slice raw (p + 3) (p + 3 + L) ++ raw.drop (p + 3 + L) = raw.drop (p + 3) := by simp [slice]
    have a2 : slice raw p (p + 3) ++ raw.drop (p + 3) = raw.drop p := by simp [slice]
    rw [List.append_assoc, List.append_assoc, a1, a2, List.take_append_drop]

/-- The three slices of whole operands. -/
theorem rawParts_whole {p : Nat} {fl : Flags} {pre data : Bytes} {md : Option Bytes} (hp : pre.length = p)
    (hm : metadataWf fl md = true) :
    cutShort p fl (pre ++ metadataField md ++ data) = false ∧
      rawParts p fl (pre ++ metadataField md ++ data) = { pre := pre, md := md, data := data } := by
  rw [metadataWf_iff] at hm
  obtain ⟨hM, hlen⟩ := hm
  subst hp
  rw [cutShort_eq]
  unfold rawParts
  cases md with
  | none =>
    rw [← hM]
    simp
  | some m =>
    simp only [Option.getD_some] at hlen
    have hs : slice (pre ++ (ube 3 m.length ++ m) ++ data) pre.length (pre.length + 3) = ube 3 m.length := by
      have h1 := slice_append_right pre (ube 3 m.length ++ (m ++ data)) 0 3
      have h2 := slice_append_left (ube 3 m.length) (m ++ data)
      rw [length_ube] at h2
      rw [h2] at h1
      simpa using h1
    have hmd : slice (pre ++ (ube 3 m.length ++ m) ++ data) (pre.length + 3) (pre.length + 3 + m.length) = m := by
      have h1 := slice_append_right (pre ++ ube 3 m.length) (m ++ data) 0 m.length
      rw [slice_append_left] at h1
      simpa using h1
    have hd : (pre ++ (ube 3 m.length ++ m) ++ data).drop (pre.length + 3 + m.length) = data := by
      have h1 := List.drop_left (l₁ := pre ++ ube 3 m.length ++ m) (l₂ := data)
      simpa [Nat.add_assoc] using h1
    rw [← hM, metadataField_some, hs, be_ube_of_lt hlen, hmd, hd]
    simp
    omega

/-- SPLIT of whole operands gives them back. -/
theorem splitAt_whole {h : Header} {t : FragType} (ht : h.type = .frag t) {hdr pre data : Bytes} {md : Option Bytes}
    (hl : hdr.length = 6) (hp : pre.length = t.prefixSize) (hm : metadataWf h.flags md = true) :
    splitAt h (hdr ++ (pre ++ metadataField md ++ data)) = .ok { pre := pre, md := md, data := data } := by
  obtain ⟨hc, hr⟩ := rawParts_whole (data := data) hp hm
  rw [splitAt_body ht hl, hc, hr]
  rfl

/-! ### Operands of an instruction -/

@[simp] theorem bodyOf_append {hdr : Bytes} (hl : hdr.length = 6) (raw : Bytes) : bodyOf (hdr ++ raw) = raw := by
  rw [bodyOf, Config.headerSize_eq, ← hl, List.drop_left]

theorem headOf_headerBytes (r : Bool) (sid : StreamId) (t : WireType) (fl : Flags) (rest : Bytes) :
    headOf { sid := sid, type := t, flags := fl } (headerBytes r sid t.code fl ++ rest) =
      { reserved := r, sid := sid, flags := fl } := by
  rw [headOf, testBit_headerWord]

/-- Format P operands are read back from their bytes. -/
theorem payloadOf_bytes {h : Header} {t : FragType} (ht : h.type = .frag t) (h0 : t.prefixSize = 0) {hdr : Bytes}
    (hl : hdr.length = 6) {p : Payload} (hw : p.wf h.flags = true) : payloadOf h (hdr ++ p.bytes) = p := by
  cases p with
  | full md data =>
    have := splitAt_whole (pre := []) (data := data) ht hl (by rw [h0]; rfl) hw
    rw [List.nil_append] at this
    rw [payloadOf, Payload.bytes, this]
  | cut raw =>
    rw [payloadOf, Payload.bytes, splitAt_cut ht hl (by rw [h0]; exact hw), bodyOf_append hl]

/-- Format NP operands are read back from their bytes. -/
theorem nPayloadOf_bytes {h : Header} {t : FragType} (ht : h.type = .frag t) (h4 : t.prefixSize = 4) {hdr : Bytes}
    (hl : hdr.length = 6) {p : NPayload} (hw : p.wf h.flags = true) : nPayloadOf h (hdr ++ p.bytes) = p := by
  cases p with
  | full n md data =>
    have hn : n.toNat < 256 ^ 4 := n.isLt
    have := splitAt_whole (pre := ube 4 n.toNat) (data := data) ht hl (by rw [h4, length_ube]) hw
    rw [nPayloadOf, NPayload.bytes, this]
    simp [be_ube_of_lt hn]
  | cut raw =>
    rw [nPayloadOf, NPayload.bytes, splitAt_cut ht hl (by rw [h4]; exact hw), bodyOf_append hl]

/-- Format P operands read from a frame are well formed and spell the bytes after its header. -/
theorem payloadOf_spell {h : Header} {t : FragType} (ht : h.type = .frag t) (h0 : t.prefixSize = 0) {hdr : Bytes}
    (hl : hdr.length = 6) (raw : Bytes) :
    (payloadOf h (hdr ++ raw)).wf h.flags = true ∧ (payloadOf h (hdr ++ raw)).bytes = raw := by
  unfold payloadOf
  rw [splitAt_body ht hl, h0]
  split_ifs with hc
  · exact ⟨by simpa [Payload.wf, bodyOf_append hl] using hc, bodyOf_append hl raw⟩
  · obtain ⟨hp, hm, hs⟩ := rawParts_spell (Bool.eq_false_iff.mpr hc)
    rw [List.length_eq_zero_iff.mp hp] at hs
    exact ⟨hm, hs⟩

/-- Format NP operands read from a frame are well formed and spell the bytes after its header. -/
theorem nPayloadOf_spell {h : Header} {t : FragType} (ht : h.type = .frag t) (h4 : t.prefixSize = 4) {hdr : Bytes}
    (hl : hdr.length = 6) (raw : Bytes) :
    (nPayloadOf h (hdr ++ raw)).wf h.flags = true ∧ (nPayloadOf h (hdr ++ raw)).bytes = raw := by
  unfold nPayloadOf
  rw [splitAt_body ht hl, h4]
  split_ifs with hc
  · exact ⟨by simpa [NPayload.wf, bodyOf_append hl] using hc, bodyOf_append hl raw⟩
  · obtain ⟨hp, hm, hs⟩ := rawParts_spell (Bool.eq_false_iff.mpr hc)
    have hlt := be_lt (rawParts 4 h.flags raw).pre
    rw [hp] at hlt
    refine ⟨hm, ?_⟩
    simp only [NPayload.bytes, BitVec.toNat_ofNat, Config.irnSize_eq]
    rw [Nat.mod_eq_of_lt (by omega), ube_be_of_length hp]
    exact hs

end Sys2Proof
end

