-- ==== Sys2Proof/Laws/Frames.lean ====
section
/-!
SUPPORT. What `exec` does in one line: every instruction runs its frame for the operation in hand; and what the frame of an
instruction holds.
-/

namespace Sys2Proof.Machine

/-- Executing an instruction is running its frame. -/
theorem exec_eq (i : Instr) (s : State) : exec i s = .next (onFrame (frameOf i) s) := by cases i <;> rfl

@[simp] theorem frameOf_bytes (i : Instr) : (frameOf i).bytes = encode i := by cases i <;> rfl
@[simp] theorem frameOf_sid (i : Instr) : (frameOf i).sid = i.head.sid := by cases i <;> rfl
@[simp] theorem frameOf_flags (i : Instr) : (frameOf i).flags = i.head.flags := by cases i <;> rfl

/-- The class of a frame is the class of its type. -/
theorem frameOf_body_cases (i : Instr) :
    (∃ t, (frameOf i).body = .other t ∧ i.type = .other t) ∨
    (∃ t parts, (frameOf i).body = .frag t parts ∧ i.type = .frag t) := by
  cases i <;> first | exact .inl ⟨_, rfl, rfl⟩ | exact .inr ⟨_, _, rfl, rfl⟩

theorem type_of_body_other {i : Instr} {t : OtherType} (h : (frameOf i).body = .other t) : i.type = .other t := by
  rcases frameOf_body_cases i with ⟨u, hb, ht⟩ | ⟨u, p, hb, -⟩
  · rw [hb] at h; injection h with h; rw [ht, h]
  · rw [hb] at h; cases h

theorem type_of_body_frag {i : Instr} {t : FragType} {p : Option Parts} (h : (frameOf i).body = .frag t p) :
    i.type = .frag t := by
  rcases frameOf_body_cases i with ⟨u, hb, -⟩ | ⟨u, q, hb, ht⟩
  · rw [hb] at h; cases h
  · rw [hb] at h; injection h with h; rw [ht, h]

theorem body_of_not_fragmentable {i : Instr} (h : i.type.fragmentable = false) : ∃ t, (frameOf i).body = .other t := by
  rcases frameOf_body_cases i with ⟨t, hb, -⟩ | ⟨t, p, -, ht⟩
  · exact ⟨t, hb⟩
  · rw [ht] at h; cases h

/-- What the parts of a whole, well-formed frame spell. -/
theorem body_spell {i : Instr} {t : FragType} {p : Parts} (hw : i.wf = true) (hb : (frameOf i).body = .frag t (some p)) :
    p.pre.length = t.prefixSize ∧ metadataWf i.head.flags p.md = true ∧
      p.pre ++ metadataField p.md ++ p.data = i.body := by
  cases i <;> simp only [frameOf, otherFrame, payloadFrame, nPayloadFrame, FrameBody.frag.injEq, reduceCtorEq] at hb <;>
    obtain ⟨rfl, hp⟩ := hb <;>
    simp only [Instr.wf, Bool.and_eq_true, Instr.head, Instr.body] at hw ⊢ <;>
    (rename_i q; cases q) <;> simp only [payloadParts, nPayloadParts, Option.some.injEq, reduceCtorEq] at hp <;>
    subst hp <;>
    simp_all [FragType.prefixSize, Payload.wf, NPayload.wf, Payload.bytes, NPayload.bytes]

/-- A well-formed fragmentable frame without parts is cut short. -/
theorem body_cut {i : Instr} {t : FragType} (hw : i.wf = true) (hb : (frameOf i).body = .frag t none) :
    cutShort t.prefixSize i.head.flags i.body = true := by
  cases i <;> simp only [frameOf, otherFrame, payloadFrame, nPayloadFrame, FrameBody.frag.injEq, reduceCtorEq] at hb <;>
    obtain ⟨rfl, hp⟩ := hb <;>
    simp only [Instr.wf, Bool.and_eq_true, Instr.head, Instr.body] at hw ⊢ <;>
    (rename_i q; cases q) <;> simp only [payloadParts, nPayloadParts, reduceCtorEq] at hp <;>
    first | exact hw | exact hw.2

/-- The bytes of a frame: its header and the rest. -/
theorem encode_eq (i : Instr) :
    encode i = headerBytes i.head.reserved i.head.sid i.type.code i.head.flags ++ i.body := rfl

theorem length_encode (i : Instr) : (encode i).length = 6 + i.body.length := by
  rw [encode_eq, List.length_append, length_headerBytes]

/-- PARSE_HEADER of an encoded instruction. -/
theorem parseHeader_encode (i : Instr) :
    parseHeader (encode i) = .ok { sid := i.head.sid, type := i.type, flags := i.head.flags } :=
  parseHeader_headerBytes _ _ _ _ _

/-- The header fields, reserved bit included, read back from an encoded instruction. -/
theorem headOf_encode (i : Instr) :
    headOf { sid := i.head.sid, type := i.type, flags := i.head.flags } (encode i) = i.head :=
  headOf_headerBytes _ _ _ _ _

/-- The bytes after the header read back from an encoded instruction. -/
theorem bodyOf_encode (i : Instr) : bodyOf (encode i) = i.body := bodyOf_append (length_headerBytes _ _ _ _) _

end Sys2Proof.Machine
end

