-- ==== Sys2Proof/Laws/Reassembler.lean ====
section
/-!
SUPPORT. What the reassembler can do: one lemma for a frame on an IDLE stream, one for a frame on a COLLECTING stream, one
for REASSEMBLE as a whole.
-/

namespace Sys2Proof.Machine

theorem tooLarge_eq_false_iff (maxSize : Nat) (e : Entry) :
    tooLarge maxSize e = false ↔
      (maxSize = 0 ∨ e.mdAcc.length + e.dataAcc.length ≤ maxSize) ∧ e.mdAcc.length ≤ 0xFFFFFF := by
  simp only [tooLarge, Config.maxU24_eq, Bool.or_eq_false_iff, Bool.and_eq_false_iff, decide_eq_false_iff_not]
  omega

theorem tooLarge_iff (maxSize : Nat) (e : Entry) :
    tooLarge maxSize e = true ↔
      (0 < maxSize ∧ maxSize < e.mdAcc.length + e.dataAcc.length) ∨ 0xFFFFFF < e.mdAcc.length := by
  simp only [tooLarge, Config.maxU24_eq, Bool.or_eq_true, Bool.and_eq_true, decide_eq_true_eq]

/-- EMIT succeeds on an entry whose prefix fits its type and whose metadata fits a 24-bit length. -/
theorem reassembledFrame_ok {sid : StreamId} {e : Entry} {fl : Flags} (hp : e.pre.length = e.type.prefixSize)
    (hm : e.mdAcc.length ≤ 0xFFFFFF) :
    reassembledFrame sid e fl =
      .ok (headerBytes false sid e.type.code (withM (emittedFlags e.type e.flags fl) e.anyMd) ++ e.pre ++
        metadataField (if e.anyMd then some e.mdAcc else none) ++ e.dataAcc) := by
  unfold reassembledFrame encodeFrame
  dsimp only
  rw [if_neg (by simp [hp]), if_neg]
  · cases e.anyMd <;> rfl
  · cases e.anyMd <;> simp; omega

/-- EMIT never raises an error. -/
theorem reassembledFrame_cases (sid : StreamId) (e : Entry) (fl : Flags) :
    (∃ out, reassembledFrame sid e fl = .ok out) ∨ ∃ r, reassembledFrame sid e fl = .refused r := by
  unfold reassembledFrame encodeFrame
  dsimp only
  split_ifs <;> simp

/-- A frame on an IDLE stream: it passes up, or it disposes the block, or it is too large, or it opens a chain. -/
theorem reassembleIdle_cases (f : Frame) (s : State) :
    (reassembleIdle f s = emitUp f.bytes s ∧
      ((∃ t, f.body = .other t) ∨ fSet f.flags = false)) ∨
    (∃ t, f.body = .frag t none ∧ fSet f.flags = true ∧
      reassembleIdle f s = raiseError .malformedFrame (some f.sid) s) ∨
    (∃ t p, f.body = .frag t (some p) ∧ fSet f.flags = true ∧
      tooLarge s.maxReassemblySize (openEntry t f.flags p) = true ∧
      reassembleIdle f s = raiseError .reassemblyTooLarge (some f.sid) s) ∨
    (∃ t p, f.body = .frag t (some p) ∧ fSet f.flags = true ∧
      tooLarge s.maxReassemblySize (openEntry t f.flags p) = false ∧
      reassembleIdle f s = { s with reasm := Table.insert f.sid (openEntry t f.flags p) s.reasm }) := by
  unfold reassembleIdle
  cases hb : f.body with
  | other t => exact .inl ⟨rfl, .inl ⟨t, rfl⟩⟩
  | frag t parts =>
    cases hf : fSet f.flags with
    | false => exact .inl ⟨rfl, .inr rfl⟩
    | true =>
      cases parts with
      | none => exact .inr (.inl ⟨t, rfl, rfl, rfl⟩)
      | some p =>
        cases ht : tooLarge s.maxReassemblySize (openEntry t f.flags p) with
        | true => exact .inr (.inr (.inl ⟨t, p, rfl, rfl, ht, by simp [openChain, ht]⟩))
        | false => exact .inr (.inr (.inr ⟨t, p, rfl, rfl, ht, by simp [openChain, ht]⟩))

/-- A frame on a COLLECTING stream: a violation, or it disposes the block, or the chain is too large, or it is appended, or
the chain is emitted (or could not be encoded, which a well-formed entry rules out). -/
theorem reassembleCollecting_cases (e : Entry) (f : Frame) (s : State) :
    ((∀ parts, f.body ≠ .frag .payload parts) ∧
      reassembleCollecting e f s = raiseError .reassemblyProtocolViolation (some f.sid) s) ∨
    (f.body = .frag .payload none ∧ reassembleCollecting e f s = raiseError .malformedFrame (some f.sid) s) ∨
    (∃ p, f.body = .frag .payload (some p) ∧ tooLarge s.maxReassemblySize (appendEntry e p) = true ∧
      reassembleCollecting e f s = raiseError .reassemblyTooLarge (some f.sid) s) ∨
    (∃ p, f.body = .frag .payload (some p) ∧ tooLarge s.maxReassemblySize (appendEntry e p) = false ∧
      fSet f.flags = true ∧
      reassembleCollecting e f s = { s with reasm := Table.insert f.sid (appendEntry e p) s.reasm }) ∨
    (∃ p, f.body = .frag .payload (some p) ∧ tooLarge s.maxReassemblySize (appendEntry e p) = false ∧
      fSet f.flags = false ∧
      ((∃ out, reassembledFrame f.sid (appendEntry e p) f.flags = .ok out ∧
          reassembleCollecting e f s = emitUp out { s with reasm := Table.erase f.sid s.reasm }) ∨
        ∃ r, reassembledFrame f.sid (appendEntry e p) f.flags = .refused r ∧
          reassembleCollecting e f s = refuse r s)) := by
  unfold reassembleCollecting
  cases hb : f.body with
  | other t => exact .inl ⟨by simp, rfl⟩
  | frag t parts =>
    cases t
    case payload =>
      right
      cases parts with
      | none => exact .inl ⟨rfl, rfl⟩
      | some p =>
        right
        cases ht : tooLarge s.maxReassemblySize (appendEntry e p) with
        | true => exact .inl ⟨p, rfl, ht, by simp [continueChain, ht]⟩
        | false =>
          right
          cases hf : fSet f.flags with
          | true => exact .inl ⟨p, rfl, ht, rfl, by simp [continueChain, ht, hf]⟩
          | false =>
            right
            refine ⟨p, rfl, ht, rfl, ?_⟩
            rcases reassembledFrame_cases f.sid (appendEntry e p) f.flags with ⟨out, ho⟩ | ⟨r, hr⟩
            · exact .inl ⟨out, ho, by simp [continueChain, ht, hf, ho]⟩
            · exact .inr ⟨r, hr, by simp [continueChain, ht, hf, hr]⟩
    all_goals exact .inl ⟨by simp, rfl⟩

/-- REASSEMBLE by the phase of the frame's stream. -/
theorem reassembleFrame_cases (f : Frame) (s : State) :
    (s.disposed = true ∧ reassembleFrame f s = refuse .disposed s) ∨
    (s.disposed = false ∧ Table.lookup f.sid s.reasm = none ∧ reassembleFrame f s = reassembleIdle f s) ∨
    (s.disposed = false ∧ ∃ e, Table.lookup f.sid s.reasm = some e ∧
      reassembleFrame f s = reassembleCollecting e f s) := by
  unfold reassembleFrame
  cases hd : s.disposed with
  | true => exact .inl ⟨rfl, unlessDisposed_of_disposed hd _⟩
  | false =>
    right
    rw [unlessDisposed_of_live hd]
    cases hl : Table.lookup f.sid s.reasm with
    | none => exact .inl ⟨rfl, rfl, rfl⟩
    | some e => exact .inr ⟨rfl, e, rfl, rfl⟩

end Sys2Proof.Machine
end

