-- ==== Sys2Proof/Laws/Events.lean ====
section
/-!
SUPPORT. What taking an event can do: which event is taken, the one state a given frame leads to, SEND_MANY as a fold, and
PULL by what is pending.
-/

namespace Sys2Proof.Machine

/-- The event taken stands behind held ones only, and the others stay in order. -/
theorem takeEvent_some {s : State} {es rest : List Event} {e : Event} (h : takeEvent s es = some (e, rest)) :
    ∃ front back, es = front ++ e :: back ∧ rest = front ++ back ∧ (∀ x ∈ front, held s x = true) ∧ held s e = false := by
  induction es generalizing rest with
  | nil => cases h
  | cons x es ih =>
    unfold takeEvent at h
    cases hx : held s x with
    | false =>
      rw [hx] at h
      injection h with h
      injection h with h1 h2
      subst h1; subst h2
      exact ⟨[], es, rfl, rfl, by simp, hx⟩
    | true =>
      rw [hx, if_pos rfl] at h
      cases ht : takeEvent s es with
      | none => rw [ht] at h; cases h
      | some r =>
        obtain ⟨e', rest'⟩ := r
        rw [ht] at h
        injection h with h
        injection h with h1 h2
        subst h1; subst h2
        obtain ⟨front, back, h1, h2, h3, h4⟩ := ih ht
        exact ⟨x :: front, back, by rw [h1]; rfl, by rw [h2]; rfl, by simpa [hx] using h3, h4⟩

theorem takeEvent_cons {s : State} {e : Event} {es : List Event} (h : held s e = false) :
    takeEvent s (e :: es) = some (e, es) := by rw [takeEvent, h]; rfl

/-- The state a frame given to an operation leads to (`runFrame` always answers a next state). -/
def frameResult (op : FrameOp) (bs : Bytes) (s : State) : State :=
  match decode bs with
  | .ok i => onFrame (frameOf i) { s with op := op }
  | .raised k sid => unlessDisposed s (raiseError k sid s)
  | .refused r => unlessDisposed s (refuse r s)

theorem runFrame_eq (op : FrameOp) (bs : Bytes) (s : State) : runFrame op bs s = .next (frameResult op bs s) := by
  unfold runFrame frameResult
  cases decode bs with
  | ok i => exact exec_eq i _
  | raised k sid => rfl
  | refused r => rfl

theorem runFrame_ok {bs : Bytes} {i : Instr} (h : decode bs = .ok i) (op : FrameOp) (s : State) :
    runFrame op bs s = exec i { s with op := op } := by unfold runFrame; rw [h]

/-- The state a RECEIVE leads to. -/
def receiveResult (buf : Bytes) (s : State) : State :=
  if s.disposed then refuse .disposed s
  else
    match unwrap s.encodeLength buf with
    | .ok bs => frameResult .reassemble bs s
    | .raised k sid => raiseError k sid s
    | .refused r => refuse r s

theorem receive_eq (buf : Bytes) (s : State) : receive buf s = .next (receiveResult buf s) := by
  unfold receive receiveResult
  cases hd : s.disposed
  · cases unwrap s.encodeLength buf with
    | ok bs => exact runFrame_eq .reassemble bs s
    | raised k sid => rfl
    | refused r => rfl
  · rfl

/-- SEND_MANY as a fold of SEND. -/
theorem sendMany_eq (frames : List Bytes) (s : State) :
    sendMany frames s = .next (frames.foldl (fun t bs => frameResult .send bs t) s) := by
  induction frames generalizing s with
  | nil => rfl
  | cons bs rest ih =>
    rw [sendMany, runFrame_eq]
    exact ih _

/-- PARSE_FRAME of an encoded instruction is what the decoder makes of it. -/
theorem parseFrame_of_decode {bs : Bytes} {i : Instr} (h : decode bs = .ok i) : parseFrame bs = .ok (frameOf i) := by
  rw [parseFrame, h]; rfl

/-- A frame the decoder reads is read by PARSE_FRAME, and back. -/
theorem parseFrame_ok {bs : Bytes} {f : Frame} (h : parseFrame bs = .ok f) : ∃ i, decode bs = .ok i ∧ f = frameOf i := by
  unfold parseFrame at h
  cases hd : decode bs with
  | ok i => rw [hd] at h; injection h with h; exact ⟨i, rfl, h.symm⟩
  | raised k sid => rw [hd] at h; cases h
  | refused r => rw [hd] at h; cases h

/-- UNWRAP raises only MalformedFrame without a stream id and never refuses. -/
theorem unwrap_cases (enc : Bool) (buf : Bytes) :
    (∃ bs, unwrap enc buf = .ok bs) ∨ unwrap enc buf = .raised .malformedFrame none := by
  unfold unwrap lenDecode
  dsimp only
  split_ifs <;> simp

/-- Decoding raises only InvalidFrameType and MalformedFrame and never refuses. -/
theorem decode_cases (bs : Bytes) :
    (∃ i, decode bs = .ok i) ∨ decode bs = .raised .malformedFrame none ∨
    ∃ sid, decode bs = .raised .invalidFrameType (some sid) := by
  unfold decode
  rcases parseHeader_cases bs with ⟨-, e⟩ | ⟨-, -, e⟩ | ⟨-, t, -, e⟩ <;> rw [e]
  · exact .inr (.inl rfl)
  · exact .inr (.inr ⟨_, rfl⟩)
  · exact .inl ⟨_, rfl⟩

/-- PULL by what is pending: refused on a disposed block, the next fragment, nothing, or the oldest queued frame. -/
theorem pull_cases (s : State) :
    (s.disposed = true ∧ pull s = refuse .disposed s) ∨
    (s.disposed = false ∧ ∃ q, s.fr = some q ∧ pull s = produceFragment q s) ∨
    (s.disposed = false ∧ s.fr = none ∧ s.sq = [] ∧ pull s = s) ∨
    (s.disposed = false ∧ s.fr = none ∧ ∃ bs rest, s.sq = bs :: rest ∧
      pull s = onCodec (parseFrame bs) s fun f => startQueued f rest s) := by
  unfold pull
  cases hd : s.disposed with
  | true => exact .inl ⟨rfl, unlessDisposed_of_disposed hd _⟩
  | false =>
    rw [unlessDisposed_of_live hd]
    cases hf : s.fr with
    | some q => exact .inr (.inl ⟨rfl, q, rfl, rfl⟩)
    | none =>
      cases hs : s.sq with
      | nil => exact .inr (.inr (.inl ⟨rfl, rfl, rfl, rfl⟩))
      | cons bs rest => exact .inr (.inr (.inr ⟨rfl, rfl, bs, rest, rfl, rfl⟩))

end Sys2Proof.Machine
end

