-- ==== Sys2Proof/Laws/Fragmenter.lean ====
section
/-!
SUPPORT. What one fragment of a well-formed sequence is: the budget in one lemma, the fragment's bytes, what SPLIT reads
from them and the registers after it.
-/

namespace Sys2Proof.Machine

@[simp] theorem mSet_withM (fl : Flags) (b : Bool) : mSet (withM fl b) = b := by
  cases b <;> simp [mSet, withM, flagM]

theorem withM_mSet : ∀ fl : Flags, withM fl (mSet fl) = fl := by unfold withM mSet flagM; decide

theorem drop_eq_slice_append (bs : Bytes) (a r : Nat) : bs.drop a = slice bs a (a + r) ++ bs.drop (a + r) := by
  rw [slice, Nat.add_sub_cancel_left, ← List.drop_drop, List.take_append_drop]

theorem mtuFloor_eq (t : FragType) : mtuFloor t = 6 + t.prefixSize + 4 := rfl

theorem prefixSize_le (t : FragType) : t.prefixSize ≤ 4 := by cases t <;> decide

/-- The data part of a budget takes at most what is left, and as much as there is data. -/
theorem dataTaken_le (m : Nat) (q : FragSeq) : dataTaken m q ≤ m ∧ dataTaken m q ≤ q.data.length - q.dataOff := by
  unfold dataTaken; split_ifs <;> omega

theorem dataTaken_eq (m : Nat) (q : FragSeq) : dataTaken m q = min m (q.data.length - q.dataOff) := by
  unfold dataTaken; split_ifs with h <;> omega

/-- Everything BUDGET gives for a well-formed sequence (42_fragmenter.md R175). -/
structure BudgetSpec (mtu : Nat) (q : FragSeq) (b : Budget) : Prop where
  hasMetadata : b.fmd.isSome = q.mdOpen
  mdOff       : b.mdOff = q.mdOff + (b.fmd.getD []).length
  dataOff     : b.dataOff = q.dataOff + b.fdata.length
  mdWithin    : b.mdOff ≤ q.md.length
  dataWithin  : b.dataOff ≤ q.data.length
  mdBytes     : q.md.drop q.mdOff = b.fmd.getD [] ++ q.md.drop b.mdOff
  dataBytes   : q.data.drop q.dataOff = b.fdata ++ q.data.drop b.dataOff
  mdOpen      : b.mdOpen = (q.mdOpen && decide (b.mdOff < q.md.length))
  order       : b.fdata ≠ [] → b.mdOff = q.md.length
  size        : 6 + (fragmentPrefix q).length + (if q.mdOpen then 3 else 0) + (b.fmd.getD []).length + b.fdata.length ≤ mtu
  full        : b.mdOpen = true ∨ b.dataOff < q.data.length →
    6 + (fragmentPrefix q).length + (if q.mdOpen then 3 else 0) + (b.fmd.getD []).length + b.fdata.length = mtu
  fmdLength   : q.mdOpen = true →
    (b.fmd.getD []).length = min (mtu - 6 - (fragmentPrefix q).length - 3) (q.md.length - q.mdOff)
  fdataLength : b.fdata.length = min
    (mtu - 6 - (fragmentPrefix q).length - (if q.mdOpen then 3 else 0) - (b.fmd.getD []).length)
    (q.data.length - q.dataOff)

theorem length_fragmentPrefix (q : FragSeq) :
    (fragmentPrefix q).length = if q.isFirst then q.pre.length else 0 := by
  unfold fragmentPrefix; cases q.isFirst <;> rfl

theorem length_fragmentPrefix_le {mtu : Nat} {q : FragSeq} (hw : q.Wf mtu) :
    6 + (fragmentPrefix q).length + 4 ≤ mtu := by
  have h := hw.mtuFloor
  rw [mtuFloor_eq] at h
  rw [length_fragmentPrefix, hw.prefixLength]
  split_ifs <;> omega

/-- BUDGET of a well-formed sequence. -/
theorem budget_spec {mtu : Nat} {q : FragSeq} (hw : q.Wf mtu) : BudgetSpec mtu q (budget mtu q) := by
  have hp := length_fragmentPrefix_le hw
  have hm0 : budgetAfterHeader mtu q = mtu - 6 - (fragmentPrefix q).length := by
    rw [budgetAfterHeader, length_fragmentPrefix]
  have h1 := hw.mdOff
  have h2 := hw.dataOff
  unfold budget
  dsimp only
  cases ho : q.mdOpen with
  | true =>
    rw [if_pos rfl]
    have hr : metadataTaken mtu q = min (mtu - 6 - (fragmentPrefix q).length - 3) (q.md.length - q.mdOff) := by
      rw [metadataTaken, hm0]
    generalize metadataTaken mtu q = r at *
    rw [hm0, Config.mdlenSize_eq]
    have hd := dataTaken_eq (mtu - 6 - (fragmentPrefix q).length - 3 - r) q
    generalize dataTaken (mtu - 6 - (fragmentPrefix q).length - 3 - r) q = d at *
    have l1 : (slice q.md q.mdOff (q.mdOff + r)).length = r := by rw [length_slice]; omega
    have l2 : (slice q.data q.dataOff (q.dataOff + d)).length = d := by rw [length_slice]; omega
    constructor
    · rw [ho]; rfl
    · simp only [Option.getD_some, l1]
    · simp only [l2]
    · dsimp only; omega
    · dsimp only; omega
    · simp only [Option.getD_some]; exact drop_eq_slice_append _ _ _
    · exact drop_eq_slice_append _ _ _
    · rw [ho, Bool.true_and]
    · intro h
      have : 0 < d := by
        rw [← l2]; exact List.length_pos_iff.mpr h
      dsimp only; omega
    · simp only [Option.getD_some, l1, l2, ho, if_true]; omega
    · simp only [Option.getD_some, l1, l2, ho, if_true, decide_eq_true_eq]; omega
    · simp only [Option.getD_some, l1]; omega
    · simp only [Option.getD_some, l1, l2, ho, if_true]; omega
  | false =>
    have hc := hw.closed ho
    simp only [Bool.false_eq_true, if_false, hm0]
    have hd := dataTaken_eq (mtu - 6 - (fragmentPrefix q).length) q
    generalize dataTaken (mtu - 6 - (fragmentPrefix q).length) q = d at *
    have l2 : (slice q.data q.dataOff (q.dataOff + d)).length = d := by rw [length_slice]; omega
    constructor
    · rw [ho]; rfl
    · rfl
    · simp only [l2]
    · dsimp only; omega
    · dsimp only; omega
    · rfl
    · exact drop_eq_slice_append _ _ _
    · rw [ho]; rfl
    · intro _; exact hc
    · simp only [Option.getD_none, List.length_nil, l2, ho, Bool.false_eq_true, if_false]; omega
    · simp only [Option.getD_none, List.length_nil, l2, ho, Bool.false_eq_true, if_false, false_or]; omega
    · intro h; rw [ho] at h; cases h
    · simp only [Option.getD_none, List.length_nil, l2, ho, Bool.false_eq_true, if_false]; omega

/-- The flags FRAG_NEXT writes, M included. -/
def writtenFlags (mtu : Nat) (q : FragSeq) : Flags :=
  withM (fragmentFlags q.type q.oflags q.isFirst (moreAfter q (budget mtu q))) q.mdOpen

/-- The bytes of the next fragment of a well-formed sequence. -/
theorem fragmentFrame_eq {mtu : Nat} {q : FragSeq} (hw : q.Wf mtu) :
    fragmentFrame mtu q =
      .ok (headerBytes false q.sid (WireType.frag (fragmentType q)).code (writtenFlags mtu q) ++
        (fragmentPrefix q ++ metadataField (budget mtu q).fmd ++ (budget mtu q).fdata)) := by
  have hb := budget_spec hw
  have hp : (fragmentPrefix q).length = (fragmentType q).prefixSize := by
    unfold fragmentPrefix fragmentType
    cases q.isFirst
    · rfl
    · exact hw.prefixLength
  have hm : ((budget mtu q).fmd.getD []).length ≤ 0xFFFFFF := by
    have := hw.metadataLength
    simp only [Config.maxU24_eq] at this
    have := hb.mdOff
    have := hb.mdWithin
    omega
  unfold fragmentFrame encodeFrame
  dsimp only
  rw [if_neg (by simp [hp]), if_neg (by simp only [Config.maxU24_eq]; omega), hb.hasMetadata]
  simp only [writtenFlags, List.append_assoc, WireType.code]

/-- SPLIT of the next fragment of a well-formed sequence. -/
theorem split_fragment {mtu : Nat} {q : FragSeq} (hw : q.Wf mtu) {out : Bytes} (h : fragmentFrame mtu q = .ok out) :
    split out = .ok (⟨q.sid, .frag (fragmentType q), writtenFlags mtu q⟩,
      ⟨fragmentPrefix q, (budget mtu q).fmd, (budget mtu q).fdata⟩) := by
  rw [fragmentFrame_eq hw] at h
  injection h with h
  subst h
  have hb := budget_spec hw
  have hp : (fragmentPrefix q).length = (fragmentType q).prefixSize := by
    unfold fragmentPrefix fragmentType
    cases q.isFirst
    · rfl
    · exact hw.prefixLength
  have hm : metadataWf (writtenFlags mtu q) (budget mtu q).fmd = true := by
    rw [metadataWf_iff, writtenFlags, mSet_withM]
    have := hw.metadataLength
    simp only [Config.maxU24_eq] at this
    have := hb.mdOff
    have := hb.mdWithin
    exact ⟨hb.hasMetadata, by omega⟩
  unfold split
  rw [parseHeader_headerBytes, Codec.bind_ok,
    splitAt_whole (h := ⟨q.sid, .frag (fragmentType q), writtenFlags mtu q⟩) rfl (length_headerBytes _ _ _ _) hp hm]
  rfl

theorem length_fragment {mtu : Nat} {q : FragSeq} (hw : q.Wf mtu) {out : Bytes} (h : fragmentFrame mtu q = .ok out) :
    out.length = 6 + (fragmentPrefix q).length + (if q.mdOpen then 3 else 0) + ((budget mtu q).fmd.getD []).length +
      (budget mtu q).fdata.length := by
  rw [fragmentFrame_eq hw] at h
  injection h with h
  subst h
  have hs := (budget_spec hw).hasMetadata
  rw [← hs]
  cases (budget mtu q).fmd <;> simp <;> omega

/-- Whether more follows, in terms of the cursors after the fragment. -/
theorem advance_eq {mtu : Nat} {q : FragSeq} (hw : q.Wf mtu) :
    advance mtu q =
      if (budget mtu q).mdOff = q.md.length ∧ (budget mtu q).dataOff = q.data.length then none
      else some { q with
        mdOff := (budget mtu q).mdOff, mdOpen := (budget mtu q).mdOpen, dataOff := (budget mtu q).dataOff
        isFirst := false } := by
  have hb := budget_spec hw
  have h1 := hb.mdWithin
  have h2 := hb.dataWithin
  have h3 := hb.mdOpen
  have h4 := hb.mdOff
  unfold advance moreAfter
  dsimp only
  by_cases hd : (budget mtu q).dataOff < q.data.length
  · rw [if_pos (by simp [hd]), if_neg (by omega)]
  · cases ho : q.mdOpen with
    | false =>
      have := hw.closed ho
      rw [ho, Bool.false_and] at h3
      rw [if_neg (by simp [h3, hd]), if_pos (by omega)]
    | true =>
      rw [ho, Bool.true_and] at h3
      rw [h3]
      split_ifs with h5 h6 h6
      · simp only [Bool.or_eq_true, decide_eq_true_eq] at h5; omega
      · rfl
      · rfl
      · simp only [Bool.or_eq_true, decide_eq_true_eq] at h5; omega

theorem moreAfter_eq {mtu : Nat} (q : FragSeq) : moreAfter q (budget mtu q) = (advance mtu q).isSome := by
  unfold advance; dsimp only; split <;> simp_all

/-- A loaded sequence is well formed when the frame's metadata fits a 24-bit length and its parts agree with its flags. -/
theorem wf_of_loadSequence {mtu : Nat} {f : Frame} {q : FragSeq}
    (hp : ∀ t p, f.body = .frag t (some p) → p.pre.length = t.prefixSize ∧ metadataWf f.flags p.md = true)
    (h : loadSequence mtu f = .ok q) : q.Wf mtu ∧ q.isFirst = true := by
  rcases loadSequence_cases mtu f with ⟨-, e⟩ | ⟨t, parts, -, -, e⟩ | ⟨t, -, -, e⟩ | ⟨t, p, hb, hm, e⟩
  · rw [e] at h; cases h
  · rw [e] at h; cases h
  · rw [e] at h; cases h
  · rw [e] at h
    injection h with h
    subst h
    obtain ⟨h1, h2⟩ := hp t p hb
    rw [metadataWf_iff] at h2
    refine ⟨⟨h1, hm, ?_, Nat.zero_le _, Nat.zero_le _, ?_, ?_, ?_, ?_⟩, rfl⟩
    · simp only [Config.maxU24_eq]; omega
    · intro ho
      have ho : mSet f.flags = false := ho
      rw [ho] at h2
      have : p.md = none := by cases hmd : p.md <;> simp_all
      simp [this]
    · intro hd; exact absurd hd (Nat.lt_irrefl 0)
    · intro _; exact ⟨rfl, rfl⟩
    · intro hf; cases hf

end Sys2Proof.Machine
end

