-- ==== Sys2Proof/Laws/PerInstr.lean ====
section
/-!
SUPPORT. One lemma per constructor of `Instr` for each family of LAWS.json. `EncodedHeader`: the header of an instruction's
encoding reads back as its stream id, its wire type and its flags.
-/

namespace Sys2Proof.Laws.EncodedHeader

/-- PARSE_HEADER of the encoding gives the instruction's own header fields. -/
def Statement (i : Instr) : Prop :=
  parseHeader (encode i) = .ok { sid := i.head.sid, type := i.type, flags := i.head.flags }

theorem setup (h : Head) (p : Bytes) : Statement (.setup h p) := Machine.parseHeader_encode _
theorem lease (h : Head) (p : Bytes) : Statement (.lease h p) := Machine.parseHeader_encode _
theorem keepalive (h : Head) (p : Bytes) : Statement (.keepalive h p) := Machine.parseHeader_encode _
theorem requestResponse (h : Head) (p : Payload) : Statement (.requestResponse h p) := Machine.parseHeader_encode _
theorem requestFnf (h : Head) (p : Payload) : Statement (.requestFnf h p) := Machine.parseHeader_encode _
theorem requestStream (h : Head) (p : NPayload) : Statement (.requestStream h p) := Machine.parseHeader_encode _
theorem requestChannel (h : Head) (p : NPayload) : Statement (.requestChannel h p) := Machine.parseHeader_encode _
theorem requestN (h : Head) (p : Bytes) : Statement (.requestN h p) := Machine.parseHeader_encode _
theorem cancel (h : Head) (p : Bytes) : Statement (.cancel h p) := Machine.parseHeader_encode _
theorem payload (h : Head) (p : Payload) : Statement (.payload h p) := Machine.parseHeader_encode _
theorem error (h : Head) (p : Bytes) : Statement (.error h p) := Machine.parseHeader_encode _
theorem metadataPush (h : Head) (p : Bytes) : Statement (.metadataPush h p) := Machine.parseHeader_encode _
theorem resume (h : Head) (p : Bytes) : Statement (.resume h p) := Machine.parseHeader_encode _
theorem resumeOk (h : Head) (p : Bytes) : Statement (.resumeOk h p) := Machine.parseHeader_encode _
theorem ext (h : Head) (p : Bytes) : Statement (.ext h p) := Machine.parseHeader_encode _
theorem next (h : Head) (p : Payload) : Statement (.next h p) := Machine.parseHeader_encode _
theorem complete (h : Head) (p : Payload) : Statement (.complete h p) := Machine.parseHeader_encode _
theorem nextComplete (h : Head) (p : Payload) : Statement (.nextComplete h p) := Machine.parseHeader_encode _

end Sys2Proof.Laws.EncodedHeader
end

