-- ==== Sys2Proof/Laws/Table.lean ====
section
/-!
SUPPORT. The reassembler table is a finite map in canonical form: read after write, read after removal, every other
stream untouched, and every table operation keeps the canonical form.
-/

namespace Sys2Proof.Machine.Table

variable (j k : StreamId) (e : Entry) (t : Table)

@[simp] theorem lookup_nil : lookup j [] = none := rfl

theorem lookup_cons (d : Entry) : lookup j ((k, d) :: t) = if k = j then some d else lookup j t := rfl

theorem lookup_insert_self : lookup k (insert k e t) = some e := by
  induction t with
  | nil => simp [insert, lookup]
  | cons p t ih =>
    obtain ⟨k', d⟩ := p
    unfold insert
    split_ifs with h1 h2
    · simp [lookup]
    · simp [lookup]
    · simp [lookup, h2, ih]

theorem lookup_insert_of_ne {j k : StreamId} (h : j ≠ k) : lookup j (insert k e t) = lookup j t := by
  induction t with
  | nil => simp [insert, lookup, Ne.symm h]
  | cons p t ih =>
    obtain ⟨k', d⟩ := p
    unfold insert
    split_ifs with h1 h2
    · simp [lookup, Ne.symm h]
    · subst h2; simp [lookup, Ne.symm h]
    · simp [lookup, ih]

theorem lookup_erase_self : lookup k (erase k t) = none := by
  induction t with
  | nil => rfl
  | cons p t ih =>
    obtain ⟨k', d⟩ := p
    unfold erase
    split_ifs with h
    · exact ih
    · simp [lookup, h, ih]

theorem lookup_erase_of_ne {j k : StreamId} (h : j ≠ k) : lookup j (erase k t) = lookup j t := by
  induction t with
  | nil => rfl
  | cons p t ih =>
    obtain ⟨k', d⟩ := p
    unfold erase
    split_ifs with h'
    · subst h'; simp [lookup, Ne.symm h, ih]
    · simp [lookup, ih]

theorem erase_of_lookup_none {t : Table} (h : lookup k t = none) : erase k t = t := by
  induction t with
  | nil => rfl
  | cons p t ih =>
    obtain ⟨k', d⟩ := p
    rw [lookup_cons] at h
    split_ifs at h with h'
    rw [erase, if_neg h', ih h]

/-- Inserting on an idle stream and removing again gives the table back. -/
theorem erase_insert_of_lookup_none {t : Table} (h : lookup k t = none) : erase k (insert k e t) = t := by
  induction t with
  | nil => simp [insert, erase]
  | cons p t ih =>
    obtain ⟨k', d⟩ := p
    rw [lookup_cons] at h
    split_ifs at h with h'
    unfold insert
    split_ifs with h1
    · rw [erase, if_pos rfl, erase_of_lookup_none k (by rw [lookup_cons, if_neg h']; exact h)]
    · rw [erase, if_neg h', ih h]

theorem erase_erase : erase k (erase k t) = erase k t := erase_of_lookup_none k (lookup_erase_self k t)

/-- A later write of the same stream replaces an earlier one. -/
theorem insert_insert (d : Entry) : insert k d (insert k e t) = insert k d t := by
  induction t with
  | nil => simp [insert]
  | cons p t ih =>
    obtain ⟨k', c⟩ := p
    by_cases h1 : k.toNat < k'.toNat
    · simp [insert, h1]
    · by_cases h2 : k' = k
      · subst h2; simp [insert]
      · simp [insert, h1, h2, ih]

theorem erase_insert : erase k (insert k e t) = erase k t := by
  induction t with
  | nil => simp [insert, erase]
  | cons p t ih =>
    obtain ⟨k', c⟩ := p
    by_cases h1 : k.toNat < k'.toNat
    · simp [insert, h1, erase]
    · by_cases h2 : k' = k
      · subst h2; simp [insert, erase]
      · simp [insert, h1, h2, erase, ih]

/-! ### The canonical form -/

@[simp] theorem wf_nil : wf [] = true := rfl

/-- The canonical form of a table, key by key. -/
theorem wf_cons (d : Entry) : wf ((k, d) :: t) = true ↔ (∀ p ∈ t.head?, k.toNat < p.1.toNat) ∧ wf t = true := by
  cases t with
  | nil => simp [wf]
  | cons p t => obtain ⟨k', d'⟩ := p; simp [wf]

theorem wf_insert (h : wf t = true) : wf (insert k e t) = true := by
  induction t with
  | nil => rfl
  | cons p t ih =>
    obtain ⟨k', d⟩ := p
    have ht := (wf_cons _ _ _).mp h
    unfold insert
    split_ifs with h1 h2
    · exact (wf_cons _ _ _).mpr ⟨by simpa using h1, h⟩
    · subst h2; exact (wf_cons _ _ _).mpr ht
    · refine (wf_cons _ _ _).mpr ⟨?_, ih ht.2⟩
      have hlt : k'.toNat < k.toNat := by
        have : k'.toNat ≠ k.toNat := fun hh => h2 (BitVec.eq_of_toNat_eq hh)
        omega
      cases t with
      | nil => simpa [insert] using hlt
      | cons q t =>
        obtain ⟨k'', d''⟩ := q
        have := ht.1 (k'', d'') rfl
        unfold insert
        split_ifs <;> simpa

theorem head_erase_lt {m : Nat} {t : Table} (h : wf t = true) (hm : ∀ p ∈ t.head?, m < p.1.toNat) :
    ∀ p ∈ (erase k t).head?, m < p.1.toNat := by
  induction t with
  | nil => simp [erase]
  | cons q t ih =>
    obtain ⟨k', d⟩ := q
    have ht := (wf_cons _ _ _).mp h
    unfold erase
    split_ifs with h'
    · refine ih ht.2 fun p hp => ?_
      have h1 := ht.1 p hp
      have h2 := hm (k', d) rfl
      exact lt_trans h2 h1
    · simpa using hm

theorem wf_erase (h : wf t = true) : wf (erase k t) = true := by
  induction t with
  | nil => rfl
  | cons q t ih =>
    obtain ⟨k', d⟩ := q
    have ht := (wf_cons _ _ _).mp h
    unfold erase
    split_ifs with h'
    · exact ih ht.2
    · exact (wf_cons _ _ _).mpr ⟨head_erase_lt k ht.2 ht.1, ih ht.2⟩

/-! ### Membership -/

theorem mem_of_lookup {t : Table} {e : Entry} (h : lookup k t = some e) : (k, e) ∈ t := by
  induction t with
  | nil => cases h
  | cons q t ih =>
    obtain ⟨k', d⟩ := q
    rw [lookup_cons] at h
    split_ifs at h with h'
    · injection h with h; subst h; subst h'; exact List.mem_cons_self
    · exact List.mem_cons_of_mem _ (ih h)

theorem mem_insert {p : StreamId × Entry} {t : Table} (h : p ∈ insert k e t) : p = (k, e) ∨ p ∈ t := by
  induction t with
  | nil => simpa [insert] using h
  | cons q t ih =>
    obtain ⟨k', d⟩ := q
    unfold insert at h
    split_ifs at h with h1 h2
    · exact (List.mem_cons.mp h).imp_right id
    · exact (List.mem_cons.mp h).imp_right (List.mem_cons_of_mem _)
    · rcases List.mem_cons.mp h with h | h
      · exact .inr (h ▸ List.mem_cons_self)
      · exact (ih h).imp_right (List.mem_cons_of_mem _)

theorem mem_erase {p : StreamId × Entry} {t : Table} (h : p ∈ erase k t) : p ∈ t := by
  induction t with
  | nil => exact h
  | cons q t ih =>
    obtain ⟨k', d⟩ := q
    unfold erase at h
    split_ifs at h with h'
    · exact List.mem_cons_of_mem _ (ih h)
    · rcases List.mem_cons.mp h with h | h
      · exact h ▸ List.mem_cons_self
      · exact List.mem_cons_of_mem _ (ih h)

end Sys2Proof.Machine.Table
end

