-- ==== Sys2Proof/Tests/Slice0.lean ====
section
/-!
SUPPORT. The model's own tests. Part 1: the well-formedness check refuses an ill-formed term for each of its clauses, and
every constructor is read from the bytes that 40_frame_types.md gives as its example. Part 2: the codec vectors of
95_test_vectors.md 2.2. Part 3: one step, or a short one, of each frame type and each operation, with the results of
95_test_vectors.md parts 1 to 3. Part 4: for each obligation with hypotheses a concrete case that meets them together.
-/

namespace Sys2Proof.Tests

open Sys2Proof Sys2Proof.Machine

/-! ## Helpers -/

/-- A block after construction with `MTU`, `ENCODE_LENGTH` and `MAX_REASSEMBLY_SIZE`. -/
def block (mtu : Nat) (enc : Bool) (cap : Nat) : State :=
  { State.reset with mtu := mtu, encodeLength := enc, maxReassemblySize := cap }

/-- The state an outcome goes on with. -/
def after (o : Host.Outcome State Fault Refusal) : Option State :=
  match o with
  | .next s => some s
  | .fault _ => none
  | .refused _ => none

/-- One step of `s` with `e` as the only waiting event. -/
def one (s : State) (e : Event) : Option State := after (step { s with inbox := [e] })

/-- A header with reserved bit 0. -/
abbrev hd (sid : StreamId) (fl : Flags) : Head := ⟨false, sid, fl⟩

/-! ## Part 1. Well-formedness and decoding -/

theorem test_wf_alias_n : (Instr.payload (hd 9 0x020) (.full none [1])).wf = false := by decide
theorem test_wf_alias_c : (Instr.next (hd 9 0x060) (.full none [1])).wf = false := by decide
theorem test_wf_alias_complete : (Instr.complete (hd 9 0x060) (.full none [])).wf = false := by decide
theorem test_wf_alias_both : (Instr.nextComplete (hd 9 0x040) (.full none [])).wf = false := by decide
theorem test_wf_m_without_metadata : (Instr.requestFnf (hd 3 0x100) (.full none [1])).wf = false := by decide
theorem test_wf_metadata_without_m : (Instr.requestStream (hd 3 0) (.full 1 (some []) [1])).wf = false := by decide
theorem test_wf_cut_is_not_cut : (Instr.requestResponse (hd 3 0) (.cut [1])).wf = false := by decide
theorem test_wf_cut_prefix_is_there : (Instr.requestChannel (hd 3 0) (.cut [0, 0, 0, 1])).wf = false := by decide
theorem test_wf_metadata_too_long (data : Bytes) :
    (Instr.requestResponse (hd 3 0x100) (.full (some (List.replicate 0x1000000 0)) data)).wf = false := by
  simp only [Instr.wf, Payload.wf, metadataWf, Option.getD_some, List.length_replicate]; decide
theorem test_wf_accepts :
    (Instr.requestStream (hd 3 0x100) (.full 1 (some []) [1])).wf = true ∧
    (Instr.requestStream (hd 3 0x100) (.cut [0, 0, 0, 1, 0, 0, 2, 9])).wf = true ∧
    (Instr.nextComplete (hd 9 0x060) (.full none [])).wf = true := by decide

/-- 40_frame_types.md R113. -/
theorem test_decode_setup : decode [0, 0, 0, 0, 0x04, 0x00, 0xAA, 0xBB] = .ok (.setup (hd 0 0) [0xAA, 0xBB]) := by decide
/-- R114 -/
theorem test_decode_lease : decode [0, 0, 0, 0, 0x08, 0x00] = .ok (.lease (hd 0 0) []) := by decide
/-- R115 -/
theorem test_decode_keepalive :
    decode [0, 0, 0, 0, 0x0C, 0x80, 0, 0, 0, 0, 0, 0, 0, 0] = .ok (.keepalive (hd 0 0x080) [0, 0, 0, 0, 0, 0, 0, 0]) := by decide
/-- R116 -/
theorem test_decode_requestResponse :
    decode [0, 0, 0, 1, 0x11, 0x00, 0, 0, 2, 0x6D, 0x64, 0x68, 0x65, 0x6C, 0x6C, 0x6F] =
      .ok (.requestResponse (hd 1 0x100) (.full (some [0x6D, 0x64]) [0x68, 0x65, 0x6C, 0x6C, 0x6F])) := by decide
/-- R117 -/
theorem test_decode_requestFnf : decode [0, 0, 0, 3, 0x14, 0x00, 0, 1] = .ok (.requestFnf (hd 3 0) (.full none [0, 1])) := by decide
/-- R118 -/
theorem test_decode_requestStream :
    decode [0, 0, 0, 7, 0x18, 0x00, 0, 0, 0, 0x2A, 0] = .ok (.requestStream (hd 7 0) (.full 42 none [0])) := by decide
/-- R119 -/
theorem test_decode_requestChannel :
    decode [0x7F, 0xFF, 0xFF, 0xFF, 0x1F, 0x40, 0x7F, 0xFF, 0xFF, 0xFF, 0, 0, 1, 0xAA, 1] =
      .ok (.requestChannel (hd 0x7FFFFFFF 0x340) (.full 2147483647 (some [0xAA]) [1])) := by decide
/-- R120 -/
theorem test_decode_requestN :
    decode [0, 0, 0, 5, 0x20, 0x00, 0, 0, 0, 1] = .ok (.requestN (hd 5 0) [0, 0, 0, 1]) := by decide
/-- R121 -/
theorem test_decode_cancel : decode [0, 0, 0, 5, 0x24, 0x00] = .ok (.cancel (hd 5 0) []) := by decide
/-- R122 -/
theorem test_decode_payload : decode [0, 0, 0, 3, 0x28, 0x80, 8, 9] = .ok (.payload (hd 3 0x080) (.full none [8, 9])) := by decide
/-- R123 -/
theorem test_decode_error :
    decode [0, 0, 0, 5, 0x2C, 0x00, 0, 0, 2, 1] = .ok (.error (hd 5 0) [0, 0, 2, 1]) := by decide
/-- R124 -/
theorem test_decode_metadataPush :
    decode [0, 0, 0, 0, 0x31, 0x00, 1, 2] = .ok (.metadataPush (hd 0 0x100) [1, 2]) := by decide
/-- R125 -/
theorem test_decode_resume : decode [0, 0, 0, 0, 0x34, 0x00] = .ok (.resume (hd 0 0) []) := by decide
/-- R126 -/
theorem test_decode_resumeOk : decode [0, 0, 0, 0, 0x38, 0x00] = .ok (.resumeOk (hd 0 0) []) := by decide
/-- R127 -/
theorem test_decode_ext : decode [0, 0, 0, 1, 0xFF, 0xFF] = .ok (.ext (hd 1 0x3FF) []) := by decide
/-- R128 -/
theorem test_decode_next : decode [0, 0, 0, 9, 0x28, 0x20, 1] = .ok (.next (hd 9 0x020) (.full none [1])) := by decide
/-- R129 -/
theorem test_decode_complete : decode [0, 0, 0, 9, 0x28, 0x40] = .ok (.complete (hd 9 0x040) (.full none [])) := by decide
/-- R130 -/
theorem test_decode_nextComplete :
    decode [0, 0, 0, 9, 0x28, 0x60, 0x10, 0x11, 0x12, 0x13] =
      .ok (.nextComplete (hd 9 0x060) (.full none [0x10, 0x11, 0x12, 0x13])) := by decide

/-- 95_test_vectors.md 2.1, the last rows: the reserved bit is ignored, and what is rejected, by name. -/
theorem test_decode_rejects :
    (decode [0x80, 0, 0, 3, 0x14, 0x00] = .ok (.requestFnf ⟨true, 3, 0⟩ (.full none []))) ∧
    decode [0, 0, 0, 3, 0x00, 0x00] = .raised .invalidFrameType (some 3) ∧
    decode [0, 0, 0, 3, 0x3C, 0x00] = .raised .invalidFrameType (some 3) ∧
    decode [0, 0, 0, 3, 0xF8, 0x00] = .raised .invalidFrameType (some 3) ∧
    decode [0, 0, 0, 5, 0x28] = .raised .malformedFrame none ∧
    decode [] = .raised .malformedFrame none := by decide

/-- Frames that are cut short are frames still (60_exceptions.md R262 (b)). -/
theorem test_decode_cut :
    decode [0, 0, 0, 5, 0x29, 0x00, 0, 0, 5, 1, 2] = .ok (.payload (hd 5 0x100) (.cut [0, 0, 5, 1, 2])) ∧
    decode [0, 0, 0, 7, 0x18, 0x00, 0, 0] = .ok (.requestStream (hd 7 0) (.cut [0, 0])) := by decide

/-- The table numbers a frame's bits as the 48-bit header (30_encoding.md R87); operand bytes are zeros. -/
theorem test_decodeTableWord :
    decodeTableWord 16 0x2860 = some (.nextComplete (hd 0 0x060) (.full none [])) ∧
    decodeTableWord 48 0x800000031D00 = some (.requestChannel ⟨true, 3, 0x100⟩ (.full 0 (some []) [])) ∧
    decodeTableWord 16 0x3C00 = none := by decide

/-! ## Part 2. Codec vectors (95_test_vectors.md 2.2) -/

theorem test_encode :
    encodeFrame 1 (.frag .requestResponse) 0 [] (some [0x6D, 0x64]) [0x68] =
      .ok [0, 0, 0, 1, 0x11, 0x00, 0, 0, 2, 0x6D, 0x64, 0x68] ∧
    encodeFrame 2 (.frag .requestResponse) 0 [] (some []) [] = .ok [0, 0, 0, 2, 0x11, 0x00, 0, 0, 0] ∧
    encodeFrame 2 (.frag .requestResponse) 0x100 [] none [1] = .ok [0, 0, 0, 2, 0x10, 0x00, 1] ∧
    encodeFrame 7 (.frag .requestStream) 0 [0, 0, 0, 0x2A] none [0] = .ok [0, 0, 0, 7, 0x18, 0x00, 0, 0, 0, 0x2A, 0] ∧
    encodeFrame 7 (.frag .requestStream) 0 [] none [0] = .refused .unsupportedLayout ∧
    encodeFrame 5 (.other .cancel) 0 [] none [] = .refused .unsupportedLayout ∧
    encodeOpaque 5 .cancel 0 [] = [0, 0, 0, 5, 0x24, 0x00] := by decide

theorem test_slices :
    sliceMetadata [0, 0, 0, 1, 0x11, 0x00, 0, 0, 2, 0x6D, 0x64, 0x68] (.frag .requestResponse) = .ok (some [0x6D, 0x64]) ∧
    sliceData [0, 0, 0, 1, 0x11, 0x00, 0, 0, 2, 0x6D, 0x64, 0x68] (.frag .requestResponse) = .ok [0x68] ∧
    sliceMetadata [0, 0, 0, 2, 0x11, 0x00, 0, 0, 0] (.frag .requestResponse) = .ok (some []) ∧
    sliceMetadata [0, 0, 0, 2, 0x10, 0x00, 1] (.frag .requestResponse) = .ok none ∧
    sliceMetadata [0, 0, 0, 5, 0x29, 0x00, 0, 0, 5, 1, 2] (.frag .payload) = .raised .malformedFrame (some 5) ∧
    sliceMetadata [0, 0, 0, 5, 0x29, 0x00, 0, 0] (.frag .payload) = .raised .malformedFrame (some 5) ∧
    sliceData [0, 0, 0, 7, 0x18, 0x00, 0, 0] (.frag .requestStream) = .raised .malformedFrame (some 7) ∧
    sliceData [0, 0, 0, 5, 0x24, 0x00] (.other .cancel) = .refused .unsupportedLayout := by decide

theorem test_initialRequestN :
    initialRequestN [0, 0, 0, 7, 0x18, 0x00, 0, 0, 0, 0x2A, 0] = .ok 42 ∧
    initialRequestN [0x7F, 0xFF, 0xFF, 0xFF, 0x1F, 0x40, 0xFF, 0xFF, 0xFF, 0xFF] = .ok 4294967295 ∧
    initialRequestN [0, 0, 0, 7, 0x18, 0x00, 0, 0] = .raised .malformedFrame (some 7) ∧
    initialRequestN [0, 0, 0, 1, 0x10, 0x00] = .refused .unsupportedLayout := by decide

theorem test_length_field :
    lenEncode [0, 0, 0, 5, 0x24, 0x00] = .ok [0, 0, 6, 0, 0, 0, 5, 0x24, 0x00] ∧
    lenDecode [0, 0, 6, 0, 0, 0, 5, 0x24, 0x00, 0xFF, 0xFF] = .ok [0, 0, 0, 5, 0x24, 0x00] ∧
    lenDecode [0, 0, 7, 0, 0, 0, 5, 0x24, 0x00] = .raised .malformedFrame none ∧
    lenDecode [0, 0] = .raised .malformedFrame none ∧
    lenDecode [0, 0, 3, 0, 0, 0] = .ok [0, 0, 0] ∧
    frameLength [0, 0, 0, 5, 0x24, 0x00] = 6 := by decide

/-- A codec call answers its caller and marks a refusal (41_codec_ops.md R140; log entry 12). -/
theorem test_codec_calls :
    one (block 14 false 0) (.codec (.initialRequestN [0, 0, 0, 7, 0x18, 0x00, 0, 0, 0, 0x2A])) =
      some { block 14 false 0 with replies := [.irn 42] } ∧
    one (block 14 false 0) (.codec (.sliceData [0, 0, 0, 5, 0x24, 0x00] (.other .cancel))) =
      some { block 14 false 0 with replies := [.refused .unsupportedLayout], refusals := [.unsupportedLayout] } := by decide

/-- The text form (30_encoding.md R98, R99; the examples of 40_frame_types.md R118, R127 and R129). -/
theorem test_assemble :
    assemble { mnemonic := .requestStream, sid := 7, n := some 42, data := some [0] } =
      some [0, 0, 0, 7, 0x18, 0x00, 0, 0, 0, 0x2A, 0] ∧
    assemble { mnemonic := .ext, sid := 1, fl := some 0x3FF } = some [0, 0, 0, 1, 0xFF, 0xFF] ∧
    assemble { mnemonic := .complete, sid := 9 } = some [0, 0, 0, 9, 0x28, 0x40] ∧
    assemble { mnemonic := .nextPayload, sid := 9, fl := some flagC } = none ∧
    assemble { mnemonic := .requestStream, sid := 7 } = none := by decide

/-! ## Part 3. Steps -/

/-- S2 f0, f1 and f3 of 95_test_vectors.md, and the state a block is in after f0. -/
def s2f0 : Bytes := [0, 0, 0, 3, 0x14, 0x80, 0, 1, 2, 3, 4, 5, 6, 7]
def s2f1 : Bytes := [0, 0, 0, 3, 0x28, 0x80, 8, 9, 10, 11, 12, 13, 14, 15]

/-- The entry of S2's chain after f0 (95_test_vectors.md P1). -/
def s2Entry : Entry :=
  { type := .requestFnf, flags := 0x080, pre := [], mdAcc := [], dataAcc := [0, 1, 2, 3, 4, 5, 6, 7], anyMd := false }

/-- A block collecting S2's chain. -/
def collecting (cap : Nat) : State := { block 14 false cap with reasm := [(3, s2Entry)] }

/-- R113 (2.5): a SETUP longer than `MTU` is queued whole. -/
theorem test_setup_send :
    one (block 7 false 0) (.send [0, 0, 0, 0, 0x04, 0x00, 0xAA, 0xBB]) =
      some { block 7 false 0 with op := .send, sq := [[0, 0, 0, 0, 0x04, 0x00, 0xAA, 0xBB]] } := by decide

/-- R114: a LEASE passes up. -/
theorem test_lease_receive :
    one (block 14 false 0) (.receive [0, 0, 0, 0, 0x08, 0x00]) =
      some { block 14 false 0 with up := [[0, 0, 0, 0, 0x08, 0x00]] } := by decide

/-- R115 (2.4): a KEEPALIVE with bit 7 set passes up and opens no chain. -/
theorem test_keepalive_receive_bit7 :
    one (block 14 false 0) (.receive [0, 0, 0, 0, 0x0C, 0x80, 0, 0]) =
      some { block 14 false 0 with up := [[0, 0, 0, 0, 0x0C, 0x80, 0, 0]] } := by decide

/-- R116 (S6): a REQUEST_RESPONSE fragment opens a chain. -/
theorem test_requestResponse_opens :
    one (block 14 false 0) (.receive [0, 0, 0, 2, 0x10, 0x80, 1]) =
      some { block 14 false 0 with
        reasm := [(2, { type := .requestResponse, flags := 0x080, pre := [], mdAcc := [], dataAcc := [1], anyMd := false })] } := by
  decide

/-- S3 after FRAG_START: the fragmenter registers of the 29-byte frame. -/
def s3 (mdOff dataOff : Nat) (mdOpen isFirst : Bool) : FragSeq :=
  { sid := 5, type := .requestResponse, oflags := 0x100, pre := []
    md := [0xA0, 0xA1, 0xA2, 0xA3, 0xA4, 0xA5, 0xA6, 0xA7, 0xA8, 0xA9], mdOff := mdOff, mdOpen := mdOpen
    data := [0xD0, 0xD1, 0xD2, 0xD3, 0xD4, 0xD5, 0xD6, 0xD7, 0xD8, 0xD9], dataOff := dataOff, isFirst := isFirst }

/-- S3: f0 and f1 under `MTU = 15`. -/
theorem test_requestResponse_fragments :
    one { block 15 false 0 with fr := some (s3 0 0 true true) } .fragNext =
      some { block 15 false 0 with
        fr := some (s3 6 0 true false)
        down := [[0, 0, 0, 5, 0x11, 0x80, 0, 0, 6, 0xA0, 0xA1, 0xA2, 0xA3, 0xA4, 0xA5]] } ∧
    one { block 15 false 0 with fr := some (s3 6 0 true false) } .fragNext =
      some { block 15 false 0 with
        fr := some (s3 10 2 false false)
        down := [[0, 0, 0, 5, 0x29, 0x80, 0, 0, 4, 0xA6, 0xA7, 0xA8, 0xA9, 0xD0, 0xD1]] } := by decide

/-- R117 (S6): a second request on a collecting stream aborts it; and (E6) the reserved bit is not copied. -/
theorem test_requestFnf_aborts :
    one (collecting 0) (.receive [0, 0, 0, 3, 0x14, 0x80, 3]) =
      some { block 14 false 0 with errors := [⟨.reassemblyProtocolViolation, some 3⟩] } := by decide
theorem test_requestFnf_pull_first_fragment :
    one { block 12 false 0 with sq := [[0x80, 0, 0, 3, 0x14, 0x00, 0, 1, 2, 3, 4, 5, 6, 7]] } .pull =
      some { block 12 false 0 with
        fr := some { sid := 3, type := .requestFnf, oflags := 0, pre := [], md := [], mdOff := 0, mdOpen := false,
                     data := [0, 1, 2, 3, 4, 5, 6, 7], dataOff := 6, isFirst := false }
        down := [[0, 0, 0, 3, 0x14, 0x80, 0, 1, 2, 3, 4, 5]] } := by decide

/-- R118 (E8): the floor of REQUEST_STREAM is 14. -/
theorem test_requestStream_mtuTooSmall :
    one (block 13 false 0) (.fragStart [0, 0, 0, 7, 0x18, 0x00, 0, 0, 0, 0x2A]) =
      some { block 13 false 0 with op := .fragStart, refusals := [.mtuTooSmall] } := by decide

/-- R118 (S4): at the floor the registers are loaded. -/
theorem test_requestStream_loads :
    one (block 14 false 0) (.fragStart [0, 0, 0, 7, 0x18, 0x00, 0, 0, 0, 0x2A, 0]) =
      some { block 14 false 0 with
        op := .fragStart
        fr := some { sid := 7, type := .requestStream, oflags := 0, pre := [0, 0, 0, 0x2A], md := [], mdOff := 0,
                     mdOpen := false, data := [0], dataOff := 0, isFirst := true } } := by decide

/-- R119 (E3, P3): the first fragment of a REQUEST_CHANNEL, wrapped. -/
theorem test_requestChannel_first_fragment :
    (one { block 14 true 0 with
        sq := [[0x7F, 0xFF, 0xFF, 0xFF, 0x1F, 0x40, 0x7F, 0xFF, 0xFF, 0xFF, 0, 0, 3, 0xAA, 0xBB, 0xCC, 1, 2, 3, 4, 5, 6, 7]] }
      .pull).map (fun s => s.down) =
    some [[0, 0, 0x0E, 0x7F, 0xFF, 0xFF, 0xFF, 0x1F, 0xC0, 0x7F, 0xFF, 0xFF, 0xFF, 0, 0, 1, 0xAA]] := by decide

/-- R120, R172: FRAG_START of a non-fragmentable frame. -/
theorem test_requestN_fragStart :
    one (block 14 false 0) (.fragStart [0, 0, 0, 5, 0x20, 0x00, 0, 0, 0, 1]) =
      some { block 14 false 0 with op := .fragStart, errors := [⟨.invalidFrameType, some 5⟩] } := by decide

/-- R121 (2.4, 2.5): a CANCEL aborts the chain of its stream; with a length prefix it passes up without it. -/
theorem test_cancel_aborts :
    one (collecting 0) (.receive [0, 0, 0, 3, 0x24, 0x00]) =
      some { block 14 false 0 with errors := [⟨.reassemblyProtocolViolation, some 3⟩] } := by decide
theorem test_cancel_unwrapped :
    one (block 14 true 0) (.receive [0, 0, 6, 0, 0, 0, 5, 0x24, 0x00]) =
      some { block 14 true 0 with up := [[0, 0, 0, 5, 0x24, 0x00]] } := by decide

/-- R122 (P1): a continuation appends; and a stream-5 fragment with a lying length disposes the block (2.4). -/
theorem test_payload_appends :
    one (collecting 0) (.receive s2f1) =
      some { block 14 false 0 with
        reasm := [(3, { s2Entry with dataAcc := [0, 1, 2, 3, 4, 5, 6, 7, 8, 9, 10, 11, 12, 13, 14, 15] })] } := by decide
theorem test_payload_malformed :
    one (collecting 0) (.receive [0, 0, 0, 5, 0x29, 0x80, 0, 0, 5, 1, 2]) =
      some { block 14 false 0 with disposed := true, errors := [⟨.malformedFrame, some 5⟩] } := by decide

/-- R123: an ERROR frame is written out whole, with its length prefix. -/
theorem test_error_pull :
    one { block 7 true 0 with sq := [[0, 0, 0, 5, 0x2C, 0x00, 0, 0, 2, 1]] } .pull =
      some { block 7 true 0 with down := [[0, 0, 0x0A, 0, 0, 0, 5, 0x2C, 0x00, 0, 0, 2, 1]] } := by decide

/-- R124: a METADATA_PUSH is not looked into, though its M bit is set. -/
theorem test_metadataPush_receive :
    one (collecting 0) (.receive [0, 0, 0, 0, 0x31, 0x00, 1, 2]) =
      some { collecting 0 with up := [[0, 0, 0, 0, 0x31, 0x00, 1, 2]] } := by decide

/-- R125, R35: SEND on a disposed block. -/
theorem test_resume_disposed :
    one { block 14 false 0 with disposed := true } (.send [0, 0, 0, 0, 0x34, 0x00]) =
      some { block 14 false 0 with disposed := true, op := .send, refusals := [.disposed] } := by decide

/-- R126: a RESUME_OK is queued behind what waits. -/
theorem test_resumeOk_send :
    one { block 14 false 0 with sq := [s2f1] } (.send [0, 0, 0, 0, 0x38, 0x00]) =
      some { block 14 false 0 with op := .send, sq := [s2f1, [0, 0, 0, 0, 0x38, 0x00]] } := by decide

/-- R127: all flag bits of an EXT frame pass. -/
theorem test_ext_receive :
    one (block 14 false 0) (.receive [0, 0, 0, 1, 0xFF, 0xFF]) =
      some { block 14 false 0 with up := [[0, 0, 0, 1, 0xFF, 0xFF]] } := by decide

/-- R128 (E5): the terminal fragment of a NEXT carries N, the first does not. -/
theorem test_next_fragments :
    (after (Sys2Proof.core.run 3 { block 10 false 0 with
        inbox := [.fragStart [0, 0, 0, 2, 0x29, 0x20, 0, 0, 2, 0x11, 0x22], .fragNext, .fragNext] })).map
      (fun s => (s.down, s.fr)) =
    some ([[0, 0, 0, 2, 0x29, 0x80, 0, 0, 1, 0x11], [0, 0, 0, 2, 0x29, 0x20, 0, 0, 1, 0x22]], none) := by decide

/-- R129 (2.4): a PAYLOAD chain takes the flags of its terminal fragment. -/
theorem test_complete_terminal :
    one { block 14 false 0 with
        reasm := [(5, { type := .payload, flags := 0x0A0, pre := [], mdAcc := [], dataAcc := [0xAA], anyMd := false })] }
      (.receive [0, 0, 0, 5, 0x28, 0x40, 0xBB]) =
      some { block 14 false 0 with up := [[0, 0, 0, 5, 0x28, 0x40, 0xAA, 0xBB]] } := by decide

/-- R130 (2.4): on a request chain N and C of the terminal fragment are ignored; and the size cap (31) is checked on it. -/
theorem test_nextComplete_terminal :
    one { block 14 false 0 with
        reasm := [(5, { type := .requestResponse, flags := 0x080, pre := [], mdAcc := [], dataAcc := [0xAA], anyMd := false })] }
      (.receive [0, 0, 0, 5, 0x28, 0x60, 0xBB]) =
      some { block 14 false 0 with up := [[0, 0, 0, 5, 0x10, 0x00, 0xAA, 0xBB]] } := by decide
theorem test_nextComplete_too_large :
    one (collecting 8) (.receive [0, 0, 0, 3, 0x28, 0x60, 8]) =
      some { block 14 false 8 with errors := [⟨.reassemblyTooLarge, some 3⟩] } ∧
    one (collecting 9) (.receive [0, 0, 0, 3, 0x28, 0x60, 8]) =
      some { block 14 false 9 with up := [[0, 0, 0, 3, 0x14, 0x00, 0, 1, 2, 3, 4, 5, 6, 7, 8]] } := by decide

/-- Demand with nothing pending, close, and what is refused after it (2.5, P5). -/
theorem test_adapter_events :
    one (block 14 false 0) .pull = some (block 14 false 0) ∧
    one { collecting 0 with sq := [s2f1] } .close = some { block 14 false 0 with disposed := true } ∧
    one { block 14 false 0 with disposed := true } .pull =
      some { block 14 false 0 with disposed := true, refusals := [.disposed] } ∧
    one (collecting 0) .isDisposed = some { collecting 0 with replies := [.isDisposed false] } ∧
    one (block 14 false 0) .fragNext = some { block 14 false 0 with refusals := [.noSequence] } := by decide

/-- The next event after `withFetchWord` is the RECEIVE of the table frame, with a length prefix and without. -/
theorem test_withFetchWord :
    after (step (State.reset.withFetchWord 16 0x2800)) =
      some { State.reset with up := [[0, 0, 0, 0, 0x28, 0x00]] } ∧
    after (step ((block 14 true 0).withFetchWord 48 0x000000092820)) =
      some { block 14 true 0 with up := [[0, 0, 0, 9, 0x28, 0x20]] } := by decide

/-- The codes of the error kinds and which are per connection (60_exceptions.md R266, R267). -/
theorem test_error_kinds :
    [ErrorKind.invalidFrameType, .malformedFrame, .reassemblyProtocolViolation, .reassemblyTooLarge, .transportFailure].map
      (fun k => (errorCode k, perConnection k)) = [(1, false), (2, true), (3, false), (4, false), (5, true)] := by decide

/-! ## Part 4. For each obligation with hypotheses, a case that meets them together -/

/-- A 15-byte REQUEST_FNF under `MTU = 14`: its sequence before and after the first fragment. -/
def fnf15 (off : Nat) (isFirst : Bool) : FragSeq :=
  { sid := 3, type := .requestFnf, oflags := 0, pre := [], md := [], mdOff := 0, mdOpen := false
    data := [0, 1, 2, 3, 4, 5, 6, 7, 8], dataOff := off, isFirst := isFirst }

theorem fnf15_wf_first : (fnf15 0 true).Wf 14 := by constructor <;> simp [fnf15, mtuFloor, FragType.prefixSize]
theorem fnf15_wf_second : (fnf15 8 false).Wf 14 := by constructor <;> simp [fnf15, mtuFloor, FragType.prefixSize]

/-- E1 (zero-length metadata) and E2 (metadata that exactly fills the first fragment) of 95_test_vectors.md. -/
def e1 : FragSeq :=
  { sid := 11, type := .requestFnf, oflags := 0x100, pre := [], md := [], mdOff := 0, mdOpen := true
    data := [0, 1, 2, 3, 4, 5, 6, 7, 8, 9], dataOff := 0, isFirst := true }
def e2 : FragSeq :=
  { sid := 13, type := .requestResponse, oflags := 0x100, pre := [], md := [0xA0, 0xA1, 0xA2, 0xA3, 0xA4], mdOff := 0
    mdOpen := true, data := [0xD0, 0xD1, 0xD2, 0xD3], dataOff := 0, isFirst := true }

theorem e1_wf : e1.Wf 12 := by constructor <;> simp [e1, mtuFloor, FragType.prefixSize]
theorem e2_wf : e2.Wf 14 := by constructor <;> simp [e2, mtuFloor, FragType.prefixSize]

/-- A block in the middle of everything: a sequence in progress, a frame queued, a chain collected. -/
def busy (e : Event) : State :=
  { block 14 false 0 with
    fr := some (fnf15 8 false), sq := [[0, 0, 0, 5, 0x24, 0x00]], reasm := [(3, s2Entry)], inbox := [e] }

theorem busy_inv (e : Event) : (busy e).Inv where
  disposed h := by simp [busy, block, State.reset] at h
  table := rfl
  entries p hp := by
    simp only [busy, List.mem_singleton] at hp; subst hp
    exact ⟨rfl, rfl, by simp [s2Entry], by decide, by decide⟩
  sequence q hq := by cases hq; exact fnf15_wf_second
  queue bs h := by
    simp only [busy, List.mem_singleton] at h; subst h
    exact ⟨_, rfl, rfl⟩

/-- A disposed block. -/
def gone (es : List Event) : State := { block 14 false 0 with disposed := true, inbox := es }

theorem gone_inv (es : List Event) : (gone es).Inv where
  disposed _ := ⟨rfl, rfl, rfl⟩
  table := rfl
  entries p hp := by simp [gone, block, State.reset] at hp
  sequence q hq := by simp [gone, block, State.reset] at hq
  queue bs h := by simp [gone, block, State.reset] at h

/-- A CANCEL with a body of `n` zeros, and its length. -/
def longCancel (n : Nat) : Instr := .cancel (hd 5 0) (List.replicate n 0)
theorem length_longCancel (n : Nat) : (encode (longCancel n)).length = 6 + n := by
  simp [longCancel, encode, Instr.head, Instr.body, Instr.type, headerBytes, ube]; omega

/-- A frame that declares 5 metadata bytes and has 2 (95_test_vectors.md 2.4). -/
def lying : Instr := .payload (hd 5 0x180) (.cut [0, 0, 5, 1, 2])

theorem test_witness_DecodeOfEncode :
    (Instr.requestChannel ⟨true, 0x7FFFFFFF, 0x3C0⟩ (.full 0xFFFFFFFF (some []) [1])).wf = true ∧
    lying.wf = true := by decide
theorem test_witness_EncodeOfDecode :
    decode [0x80, 0, 0, 5, 0x29, 0x00, 0, 0, 5, 1, 2] = .ok (.payload ⟨true, 5, 0x100⟩ (.cut [0, 0, 5, 1, 2])) := by decide
theorem test_witness_HeaderByBytes :
    parseHeader [0xFF, 0xFF, 0xFF, 0xFF, 0xFF, 0xFF] = .ok ⟨0x7FFFFFFF, .other .ext, 0x3FF⟩ ∧
    parseHeader [0, 0, 0, 0, 0x04, 0x00] = .ok ⟨0, .other .setup, 0⟩ := by decide
theorem test_witness_DecoderRejections :
    headerTypeFlags [0, 0, 0, 3, 0x03, 0xFF] / 1024 = 0 ∧ headerTypeFlags [0, 0, 0, 3, 0x04, 0x00] / 1024 = 1 ∧
    headerTypeFlags [0, 0, 0, 3, 0x3B, 0xFF] / 1024 = 14 ∧ headerTypeFlags [0, 0, 0, 3, 0x3C, 0x00] / 1024 = 15 ∧
    headerTypeFlags [0, 0, 0, 3, 0xFB, 0xFF] / 1024 = 62 ∧ headerTypeFlags [0, 0, 0, 3, 0xFC, 0x00] / 1024 = 63 := by decide
theorem test_witness_DecodeFollowsOpcodeTable : 6 ≤ ([0, 0, 0, 9, 0x28, 0x60] : Bytes).length := by decide
theorem test_witness_CodecLaws :
    encodeFrame 7 (.frag .requestStream) 0x3FF [0, 0, 0, 0x2A] none [0] =
      .ok [0, 0, 0, 7, 0x1A, 0xFF, 0, 0, 0, 0x2A, 0] ∧
    encodeFrame 2 (.frag .requestResponse) 0 [] (some []) [] = .ok [0, 0, 0, 2, 0x11, 0x00, 0, 0, 0] ∧
    (List.replicate 0xFFFFFF (0 : Byte)).length ≤ 0xFFFFFF ∧ 0xFFFFFF < (List.replicate 0x1000000 (0 : Byte)).length ∧
    ([0, 0, 0] : Bytes).length ≠ FragType.requestStream.prefixSize ∧ ([] : Bytes).length = FragType.payload.prefixSize :=
  ⟨by decide, by decide, by rw [List.length_replicate], by rw [List.length_replicate]; decide, by decide, by decide⟩
theorem test_witness_CodecAccessors :
    parseHeader [0, 0, 0, 5, 0x24, 0x00] = .ok ⟨5, .other .cancel, 0⟩ ∧
    parseHeader [0, 0, 0, 5, 0x29, 0x00, 0, 0, 1, 9] = .ok ⟨5, .frag .payload, 0x100⟩ ∧
    cutShort FragType.payload.prefixSize 0x100 [0, 0, 1, 9] = false ∧
    cutShort FragType.payload.prefixSize 0x100 [0, 0, 2, 9] = true ∧
    cutShort FragType.payload.prefixSize 0x100 [0, 0] = true ∧
    parseHeader [0, 0, 0, 7, 0x18, 0x00, 0, 0, 0] = .ok ⟨7, .frag .requestStream, 0⟩ ∧
    cutShort FragType.requestStream.prefixSize 0 [0, 0, 0] = true ∧
    cutShort FragType.requestStream.prefixSize 0 [0, 0, 0, 1] = false := by decide
theorem test_witness_EncodeOfSplit :
    split [0, 0, 0, 5, 0x29, 0x00, 0, 0, 1, 9] = .ok (⟨5, .frag .payload, 0x100⟩, ⟨[], some [9], []⟩) ∧
    (headerWord [0, 0, 0, 5, 0x29, 0x00, 0, 0, 1, 9]).testBit 31 = false := by decide
theorem test_witness_EncodeOpaqueOfParsed :
    parseHeader [0, 0, 0, 5, 0x24, 0x00] = .ok ⟨5, .other .cancel, 0⟩ ∧
    (headerWord [0, 0, 0, 5, 0x24, 0x00]).testBit 31 = false := by decide
theorem test_witness_TextAliases : cSet 0x040 = true ∧ nSet 0x020 = true := by decide
theorem test_witness_ConstructionValues :
    State.construct (-1) false (some 7) = some (block 0 false 7) ∧
    State.construct 0xFFFFFF true none = some (block 0xFFFFFF true 0) ∧
    State.construct 0x1000000 true none = none := by decide
theorem test_witness_ResetMeetsInvariant :
    State.construct 10 true none = some (block 10 true 0) ∧ (block 10 true 0).Launch ∧
    State.construct 9 true none = some (block 9 true 0) ∧ ¬ (block 9 true 0).Launch :=
  ⟨by decide, ⟨rfl, rfl, rfl, rfl, rfl, .inr (by decide), rfl⟩, by decide,
    fun h => absurd h.2.2.2.2.2.1 (by unfold legalMtu; decide)⟩
theorem test_witness_StepKeepsInvariant :
    (busy .pull).Inv ∧ ∃ t, step (busy .pull) = .next t ∧ t.fr = none ∧ t.down = [[0, 0, 0, 3, 0x28, 0x00, 8]] :=
  ⟨busy_inv _, _, rfl, by decide, by decide⟩
theorem test_witness_ConfigurationIsConstant : ∃ t, step (busy .close) = .next t ∧ t.disposed = true :=
  ⟨_, rfl, by decide⟩
theorem test_witness_DisposedIsForGood :
    (gone [.pull]).Inv ∧ (gone [.pull]).disposed = true ∧ ∃ t, step (gone [.pull]) = .next t :=
  ⟨gone_inv _, rfl, _, rfl⟩
theorem test_witness_DisposedRefusesOperations :
    after (runEvent (.sendMany [s2f0, s2f1]) (gone [])) = some { gone [] with op := .send, refusals := [.disposed, .disposed] } := by
  decide
theorem test_witness_DisposedRefusesEveryFrame :
    (gone []).disposed = true ∧ after (exec (longCancel 0) (gone [])) = some { gone [] with refusals := [.disposed] } := by decide
theorem test_witness_StepRunsDecodedFrame :
    ∃ (s : State) (buf : Bytes), decode [0, 0, 0, 5, 0x24, 0x00] = .ok (longCancel 0) ∧
      { s with inbox := [.send [0, 0, 0, 5, 0x24, 0x00]] }.inbox = [.send [0, 0, 0, 5, 0x24, 0x00]] ∧
      s.inbox = [.receive buf] ∧ s.fr = none ∧ s.disposed = false ∧ unwrap s.encodeLength buf = .ok [0, 0, 0, 5, 0x24, 0x00] :=
  ⟨{ block 14 true 0 with inbox := [.receive [0, 0, 6, 0, 0, 0, 5, 0x24, 0x00]] }, [0, 0, 6, 0, 0, 0, 5, 0x24, 0x00], by decide⟩
theorem test_witness_IdleStepDoesNothing :
    (block 14 false 0).inbox = [] ∧ (block 14 false 0).disposed = false ∧ (block 14 false 0).fr = none ∧
    (block 14 false 0).sq = [] := by decide
theorem test_witness_HeldFragStartWaits :
    let s := { busy .pull with inbox := [.fragStart s2f0, .cancelTx] }
    s.fr ≠ none ∧ s.disposed = false ∧ { s with op := .fragStart }.op = .fragStart ∧
    (after (step s)).map (fun t => (t.inbox, t.fr)) = some ([.fragStart s2f0], none) := by decide
theorem test_witness_SendEnqueuesNonFragmentable :
    ∃ (i : Instr) (s : State), s.op = .send ∧ s.disposed = false ∧ i.type.fragmentable = false ∧ s.encodeLength = true ∧
      (encode i).length = 0xFFFFFF :=
  ⟨longCancel 0xFFFFF9, { block 7 true 0 with op := .send }, rfl, rfl, rfl, rfl, by rw [length_longCancel]⟩
theorem test_witness_SendEnqueuesFragmentable :
    (∃ (i : Instr) (s : State), s.op = .send ∧ s.disposed = false ∧
      (frameOf i).body = .frag .payload (some ⟨[], none, [1]⟩) ∧ (encode i).length = s.mtu ∧ s.encodeLength = true ∧
      (encode i).length ≤ 0xFFFFFF) ∧
    (∃ (i : Instr) (s : State), s.op = .send ∧ s.disposed = false ∧
      (frameOf i).body = .frag .payload none ∧ s.mtu = 0 ∧ s.encodeLength = false) ∧
    ∃ (i : Instr) (s : State) (p : Parts), s.op = .send ∧ s.disposed = false ∧
      (frameOf i).body = .frag .requestStream (some p) ∧ 0 < s.mtu ∧ s.mtu < (encode i).length ∧
      6 + FragType.requestStream.prefixSize + 4 = s.mtu :=
  ⟨⟨.next (hd 9 0x020) (.full none [1]), { block 7 true 0 with op := .send }, by decide⟩,
    ⟨lying, { block 0 false 0 with op := .send }, by decide⟩,
    ⟨.requestStream (hd 7 0) (.full 42 none [0, 0, 0, 0, 0]), { block 14 false 0 with op := .send },
      ⟨[0, 0, 0, 42], none, [0, 0, 0, 0, 0]⟩, by decide⟩⟩
theorem test_witness_SendChecks :
    (∃ (i : Instr) (s : State) (parts : Option Parts), s.op = .send ∧ s.disposed = false ∧
      (frameOf i).body = .frag .requestStream parts ∧ 0 < s.mtu ∧ s.mtu < (encode i).length ∧
      s.mtu + 1 = 6 + FragType.requestStream.prefixSize + 4) ∧
    (∃ (i : Instr) (s : State), s.op = .send ∧ s.disposed = false ∧ (frameOf i).body = .frag .payload none ∧ 0 < s.mtu ∧
      s.mtu < (encode i).length ∧ 6 + FragType.payload.prefixSize + 4 = s.mtu) ∧
    ∃ (i : Instr) (s : State), s.op = .send ∧ s.disposed = false ∧ i.type.fragmentable = false ∧ s.encodeLength = true ∧
      0xFFFFFF < (encode i).length :=
  ⟨⟨.requestStream (hd 7 0) (.full 42 none [0, 0, 0, 0]), { block 13 false 0 with op := .send },
      some ⟨[0, 0, 0, 42], none, [0, 0, 0, 0]⟩, by decide⟩,
    ⟨lying, { block 10 false 0 with op := .send }, by decide⟩,
    ⟨longCancel 0xFFFFFA, { block 14 true 0 with op := .send }, rfl, rfl, rfl, rfl, by rw [length_longCancel]; decide⟩⟩
theorem test_witness_SoftwareMtuIsEnough :
    (∃ (i : Instr) (s t : State), s.op = .send ∧ s.mtu = 14 ∧ softwareMtu s.mtu ∧ exec i s = .next t) ∧ softwareMtu 0 :=
  ⟨⟨.requestStream (hd 7 0) (.full 42 none [0, 0, 0, 0, 0]), { block 14 false 0 with op := .send }, _, rfl, rfl,
    .inr (by decide), rfl⟩, .inl rfl⟩
theorem test_witness_SendLeavesTheRest :
    ∃ t, exec (.payload (hd 5 0x180) (.cut [0, 0, 9, 1, 2, 3, 4, 5, 6])) { busy .pull with op := .send } = .next t ∧
      t.disposed = true := ⟨_, rfl, by decide⟩
theorem test_witness_IdleStreamPassesUp :
    (∃ (i : Instr) (s : State), s.op = .reassemble ∧ s.disposed = false ∧ s.phase i.head.sid = .idle ∧
      i.type = .frag .payload ∧ fSet i.head.flags = false) ∧
    ∃ (i : Instr) (s : State), s.op = .reassemble ∧ s.disposed = false ∧ s.phase i.head.sid = .idle ∧
      i.type.fragmentable = false ∧ fSet i.head.flags = true :=
  ⟨⟨.complete (hd 5 0x37F) (.cut []), collecting 0, by decide⟩, ⟨.keepalive (hd 5 0x3FF) [], collecting 0, by decide⟩⟩
theorem test_witness_FirstFragmentOpensChain :
    ∃ (i : Instr) (s : State) (p : Parts), s.op = .reassemble ∧ s.disposed = false ∧ s.phase i.head.sid = .idle ∧
      (frameOf i).body = .frag .payload (some p) ∧ fSet i.head.flags = true ∧
      (p.md.getD []).length + p.data.length = s.maxReassemblySize ∧ (p.md.getD []).length ≤ 0xFFFFFF :=
  ⟨.next (hd 5 0x1A0) (.full (some [1]) [2]), block 14 false 2, ⟨[], some [1], [2]⟩, by decide⟩
theorem test_witness_ContinuationAppends :
    ∃ (i : Instr) (s : State) (e : Entry) (p : Parts), s.op = .reassemble ∧ s.disposed = false ∧
      Table.lookup i.head.sid s.reasm = some e ∧ (frameOf i).body = .frag .payload (some p) ∧
      fSet i.head.flags = true ∧ tooLarge s.maxReassemblySize (afterAppend e p) = false :=
  ⟨.payload (hd 3 0x080) (.full none [8]), collecting 9, s2Entry, ⟨[], none, [8]⟩, by decide⟩
theorem test_witness_TerminalFragmentEmits :
    ∃ (i : Instr) (s : State) (e : Entry) (p : Parts), s.op = .reassemble ∧ s.disposed = false ∧
      Table.lookup i.head.sid s.reasm = some e ∧ e.pre.length = e.type.prefixSize ∧
      (frameOf i).body = .frag .payload (some p) ∧ fSet i.head.flags = false ∧
      tooLarge s.maxReassemblySize (afterAppend e p) = false :=
  ⟨.nextComplete (hd 3 0x060) (.full none [8]), collecting 9, s2Entry, ⟨[], none, [8]⟩, by decide⟩
theorem test_witness_NonPayloadMidChainAborts :
    ∃ (i j : Instr) (s : State), s.op = .reassemble ∧ s.disposed = false ∧ s.phase i.head.sid = .collecting ∧
      i.type ≠ .frag .payload ∧ s.phase j.head.sid = .collecting ∧ j.type ≠ .frag .payload ∧ j.type.fragmentable = false :=
  ⟨.requestStream (hd 3 0) (.cut []), .cancel (hd 3 0) [], collecting 0, by decide⟩
theorem test_witness_OversizeAborts :
    (∃ (i : Instr) (s : State) (p : Parts), s.op = .reassemble ∧ s.disposed = false ∧ s.phase i.head.sid = .idle ∧
      (frameOf i).body = .frag .requestFnf (some p) ∧ fSet i.head.flags = true ∧ 0 < s.maxReassemblySize ∧
      s.maxReassemblySize + 1 = (p.md.getD []).length + p.data.length) ∧
    (∃ (i : Instr) (s : State) (e : Entry) (p : Parts), s.op = .reassemble ∧ s.disposed = false ∧
      Table.lookup i.head.sid s.reasm = some e ∧ (frameOf i).body = .frag .payload (some p) ∧ 0 < s.maxReassemblySize ∧
      s.maxReassemblySize + 1 = (e.mdAcc.length + (p.md.getD []).length) + (e.dataAcc.length + p.data.length)) ∧
    ∃ (i : Instr) (s : State) (p : Parts), s.op = .reassemble ∧ s.disposed = false ∧ s.phase i.head.sid = .idle ∧
      (frameOf i).body = .frag .payload (some p) ∧ fSet i.head.flags = true ∧ 0xFFFFFF < (p.md.getD []).length :=
  ⟨⟨.requestFnf (hd 5 0x080) (.full none [1, 2]), block 14 false 1, ⟨[], none, [1, 2]⟩, by decide⟩,
    ⟨.complete (hd 3 0x040) (.full none [8]), collecting 8, s2Entry, ⟨[], none, [8]⟩, by decide⟩,
    ⟨.payload (hd 5 0x180) (.full (some (List.replicate 0x1000000 0)) []), block 14 false 0,
      ⟨[], some (List.replicate 0x1000000 0), []⟩, rfl, rfl, rfl, rfl, rfl,
      by rw [Option.getD_some, List.length_replicate]; decide⟩⟩
theorem test_witness_CutShortFragmentDisposes :
    (∃ (i : Instr) (s : State), s.op = .reassemble ∧ s.disposed = false ∧ (frameOf i).body = .frag .requestChannel none ∧
      s.phase i.head.sid = .idle ∧ fSet i.head.flags = true) ∧
    ∃ (i : Instr) (s : State), s.op = .reassemble ∧ s.disposed = false ∧ (frameOf i).body = .frag .payload none ∧
      s.phase i.head.sid = .collecting :=
  ⟨⟨.requestChannel (hd 5 0x080) (.cut [0, 0, 0]), collecting 0, by decide⟩,
    ⟨.complete (hd 3 0x140) (.cut [0]), collecting 0, by decide⟩⟩
theorem test_witness_ReassembleLeavesTheRest :
    ∃ t, exec (.complete (hd 3 0x040) (.full none [8])) (collecting 0) = .next t ∧ t.up ≠ [] := ⟨_, rfl, by decide⟩
/-- P2: two chains interleaved. -/
theorem test_witness_StreamsAreIndependent :
    let frames : List Instr := [.requestFnf (hd 1 0x080) (.full none [1]), .next (hd 2 0x0A0) (.full none [5]),
      .payload (hd 1 0) (.full none [2]), .complete (hd 2 0x040) (.full none [6])]
    (∃ t, reassembleAll frames (block 14 false 0) = .next t ∧ t.disposed = false ∧
      t.up = [[0, 0, 0, 1, 0x14, 0x00, 1, 2], [0, 0, 0, 2, 0x28, 0x40, 5, 6]]) ∧
    ∃ u, reassembleAll (frames.filter fun i => i.head.sid == 2) (block 14 false 0) = .next u ∧
      u.up = [[0, 0, 0, 2, 0x28, 0x40, 5, 6]] :=
  ⟨⟨_, rfl, by decide, by decide⟩, _, rfl, by decide⟩
theorem test_witness_UnreadableHeaders :
    (∃ (s : State) (bs : Bytes), s.disposed = false ∧ s.fr = none ∧ s.inbox = [.fragStart bs, .send bs] ∧ bs.length = 5) ∧
    (∃ (s : State) (bs buf : Bytes), s.disposed = false ∧ s.inbox = [.receive buf] ∧
      unwrap s.encodeLength buf = .ok bs ∧ bs.length = 6 ∧ headerTypeFlags bs / 1024 = 0) ∧
    headerTypeFlags [0, 0, 0, 3, 0x3C, 0x00] / 1024 = 15 ∧ headerTypeFlags [0, 0, 0, 3, 0xFB, 0xFF] / 1024 = 62 :=
  ⟨⟨{ block 14 false 0 with inbox := [.fragStart [0, 0, 0, 5, 0x28], .send [0, 0, 0, 5, 0x28]] }, [0, 0, 0, 5, 0x28], by decide⟩,
    ⟨{ block 14 true 0 with inbox := [.receive [0, 0, 6, 0, 0, 0, 3, 0x03, 0xFF]] }, [0, 0, 0, 3, 0x03, 0xFF],
      [0, 0, 6, 0, 0, 0, 3, 0x03, 0xFF], by decide⟩, by decide, by decide⟩
theorem test_witness_RaisingIsPrecise :
    let s := { busy .pull with reasm := [(3, s2Entry), (8, s2Entry)] }
    (raiseError .reassemblyTooLarge (some 3) s).reasm = [(8, s2Entry)] ∧ (some 3 : Option StreamId) ≠ some 8 ∧
    (raiseError .invalidFrameType (some 3) s).reasm = s.reasm := by decide
theorem test_witness_FragStartLoads :
    ∃ (i : Instr) (s : State) (p : Parts), s.op = .fragStart ∧ s.disposed = false ∧ s.fr = none ∧
      (frameOf i).body = .frag .requestStream (some p) ∧ 6 + FragType.requestStream.prefixSize + 4 = s.mtu :=
  ⟨.requestStream (hd 7 0) (.full 42 none []), { block 14 false 0 with op := .fragStart }, ⟨[0, 0, 0, 42], none, []⟩, by decide⟩
theorem test_witness_FragStartChecks :
    (∃ (i : Instr) (s : State), s.op = .fragStart ∧ s.disposed = false ∧ s.fr = none ∧ i.type.fragmentable = false) ∧
    (∃ (i : Instr) (s : State) (parts : Option Parts), s.op = .fragStart ∧ s.disposed = false ∧ s.fr = none ∧
      (frameOf i).body = .frag .requestFnf parts ∧ s.mtu + 1 = 6 + FragType.requestFnf.prefixSize + 4) ∧
    ∃ (i : Instr) (s : State), s.op = .fragStart ∧ s.disposed = false ∧ s.fr = none ∧
      (frameOf i).body = .frag .payload none ∧ 6 + FragType.payload.prefixSize + 4 = s.mtu :=
  ⟨⟨.cancel (hd 5 0) [], { block 14 false 0 with op := .fragStart }, by decide⟩,
    ⟨.requestFnf (hd 3 0) (.full none []), { block 9 false 0 with op := .fragStart }, some ⟨[], none, []⟩, by decide⟩,
    ⟨lying, { block 10 false 0 with op := .fragStart }, by decide⟩⟩
theorem test_witness_FragNextEmitsOne :
    ((busy .fragNext).disposed = false ∧ (busy .fragNext).fr = some (fnf15 8 false) ∧
      (fnf15 8 false).Wf (busy .fragNext).mtu ∧ (busy .fragNext).Admitted) ∧
    (block 14 false 0).disposed = false ∧ (block 14 false 0).fr = none := ⟨⟨rfl, rfl, fnf15_wf_second, rfl⟩, rfl, rfl⟩
theorem test_witness_FragmentContents :
    (fnf15 0 true).Wf 14 ∧ (fnf15 8 false).Wf 14 ∧ e1.Wf 12 ∧ e2.Wf 14 := ⟨fnf15_wf_first, fnf15_wf_second, e1_wf, e2_wf⟩
theorem test_witness_FragmenterMakesProgress :
    (fnf15 0 true).Wf 14 ∧ advance 14 (fnf15 0 true) = some (fnf15 8 false) ∧
    e1.Wf 12 ∧ (advance 12 e1).map (fun q => (q.mdOpen, q.dataOff, q.isFirst)) = some (false, 3, false) :=
  ⟨fnf15_wf_first, by decide, e1_wf, by decide⟩
theorem test_witness_SequenceProperties :
    (fnf15 0 true).Wf 14 ∧ (fnf15 0 true).isFirst = true ∧
    fragmentsOf 14 (fnf15 0 true) = [s2f0, [0, 0, 0, 3, 0x28, 0x00, 8]] := ⟨fnf15_wf_first, by decide, by decide⟩
/-- E7: 9 data bytes under `MTU = 14` give two fragments, 8 give one. -/
theorem test_witness_FragmentCount :
    (fnf15 0 true).Wf 14 ∧ (fnf15 0 true).isFirst = true ∧ (fnf15 0 true).mdOpen = false ∧ (fnf15 0 true).md = [] ∧
    (fragmentsOf 14 (fnf15 0 true)).length = 2 ∧
    (fragmentsOf 14 { fnf15 0 true with data := [0, 1, 2, 3, 4, 5, 6, 7] }).length = 1 :=
  ⟨fnf15_wf_first, by decide, by decide, by decide, by decide, by decide⟩
/-- E6, second part: F set on the input, exactly `MTU` bytes. -/
theorem test_witness_FrameThatFitsIsOneFragment :
    (Instr.requestFnf (hd 1 0x080) (.full none [0, 0, 0, 0, 0, 0, 0, 0])).wf = true ∧
    (encode (.requestFnf (hd 1 0x080) (.full none [0, 0, 0, 0, 0, 0, 0, 0]))).length ≤ 14 ∧
    ((loadSequence 14 (frameOf (.requestFnf (hd 1 0x080) (.full none [0, 0, 0, 0, 0, 0, 0, 0])))).bind (fragmentFrame 14)) =
      .ok [0, 0, 0, 1, 0x14, 0x00, 0, 0, 0, 0, 0, 0, 0, 0] := by decide
theorem test_witness_MetadataPlacement :
    (e1.Wf 12 ∧ e1.mdOpen = true ∧ e1.isFirst = true ∧ e1.md = [] ∧
      fragmentsOf 12 e1 = [[0, 0, 0, 0x0B, 0x15, 0x80, 0, 0, 0, 0, 1, 2], [0, 0, 0, 0x0B, 0x28, 0x80, 3, 4, 5, 6, 7, 8],
        [0, 0, 0, 0x0B, 0x28, 0x00, 9]]) ∧
    e2.Wf 14 ∧ e2.mdOpen = true ∧ e2.md.length - e2.mdOff = 14 - 6 - (if e2.isFirst then e2.pre.length else 0) - 3 ∧
      fragmentFrame 14 e2 = .ok [0, 0, 0, 0x0D, 0x11, 0x80, 0, 0, 5, 0xA0, 0xA1, 0xA2, 0xA3, 0xA4] :=
  ⟨⟨e1_wf, by decide, by decide, by decide, by decide⟩, e2_wf, by decide, by decide, by decide⟩
/-- Sender `MTU` 14, receiver cap 2, the length prefix on both sides; the receiver is collecting another stream. -/
theorem test_witness_RoundTrip :
    let a := block 14 true 0
    let b := { collecting 2 with encodeLength := true }
    (Instr.requestStream ⟨true, 7, 0x2FF⟩ (.full 42 none [1, 2])).wf = true ∧
    (frameOf (.requestStream ⟨true, 7, 0x2FF⟩ (.full 42 none [1, 2]))).body =
      .frag .requestStream (some ⟨[0, 0, 0, 42], none, [1, 2]⟩) ∧
    a.disposed = false ∧ a.fr = none ∧ admitted a.mtu a.encodeLength = true ∧
    6 + FragType.requestStream.prefixSize + 4 ≤ a.mtu ∧ b.disposed = false ∧ b.encodeLength = a.encodeLength ∧
    b.phase 7 = .idle ∧ 0 + ([1, 2] : Bytes).length ≤ b.maxReassemblySize := by decide
theorem test_witness_PullEmitsExactlyOne :
    (busy .pull).Inv ∧ (busy .pull).Admitted ∧ (busy .pull).disposed = false ∧ (busy .pull).fr ≠ none :=
  ⟨busy_inv _, rfl, rfl, by decide⟩
theorem test_witness_PullsDrainTheBlock :
    (busy .pull).Inv ∧ (busy .pull).Admitted ∧ (busy .pull).disposed = false ∧
    (after (Sys2Proof.core.run 2 { busy .pull with inbox := [.pull, .pull] })).map (fun s => (s.down, s.fr, s.sq)) =
      some ([[0, 0, 0, 3, 0x28, 0x00, 8], [0, 0, 0, 5, 0x24, 0x00]], none, []) :=
  ⟨busy_inv _, rfl, rfl, by decide⟩
theorem test_witness_PullStartsTheOldestFrame :
    (∃ (s : State) (i : Instr) (rest : List Bytes), s.disposed = false ∧ s.fr = none ∧ i.wf = true ∧
      s.sq = encode i :: rest ∧ useC2 s.mtu (frameOf i) = false ∧ s.encodeLength = true ∧ (encode i).length ≤ 0xFFFFFF) ∧
    ∃ (s : State) (i : Instr) (rest : List Bytes) (q : FragSeq) (out : Bytes), s.disposed = false ∧ s.fr = none ∧
      i.wf = true ∧ s.sq = encode i :: rest ∧ useC2 s.mtu (frameOf i) = true ∧ loadSequence s.mtu (frameOf i) = .ok q ∧
      fragmentFrame s.mtu q = .ok out ∧ s.encodeLength = true ∧ out.length ≤ 0xFFFFFF :=
  ⟨⟨{ block 14 true 0 with sq := [[0, 0, 0, 5, 0x24, 0x00], s2f1] }, .cancel (hd 5 0) [], [s2f1], by decide⟩,
    ⟨{ block 14 true 0 with sq := [[0, 0, 0, 3, 0x14, 0x00, 0, 1, 2, 3, 4, 5, 6, 7, 8]] },
      .requestFnf (hd 3 0) (.full none [0, 1, 2, 3, 4, 5, 6, 7, 8]), [], fnf15 0 true, s2f0, by decide⟩⟩
theorem test_witness_ChainsAreContiguous :
    (busy .pull).fr = some (fnf15 8 false) ∧ ∃ t, runEvent .pull (busy .pull) = .next t ∧ t.down ≠ (busy .pull).down :=
  ⟨rfl, _, rfl, by decide⟩
theorem test_witness_QueueIsFifo :
    ∃ t, runEvent .pull { busy .pull with fr := none } = .next t ∧ t.sq = [] ∧ t.down = [[0, 0, 0, 5, 0x24, 0x00]] :=
  ⟨_, rfl, by decide, by decide⟩
theorem test_witness_ReceiveUnwraps :
    ((block 14 true 0).disposed = false ∧ (block 14 true 0).encodeLength = true ∧
      ([0, 0] : Bytes).length < 3 ∧ ([0, 0, 7, 0, 0, 0, 5, 0x24, 0x00] : Bytes).length < 3 + be [0, 0, 7]) ∧
    (block 14 false 0).encodeLength = false ∧ (List.replicate 0xFFFFFF (0 : Byte)).length ≤ 0xFFFFFF :=
  ⟨by decide, rfl, by rw [List.length_replicate]⟩
theorem test_witness_CodecCallsArePure (bs : Bytes) :
    CodecCall.split [0, 0, 0, 5] ≠ .wrap bs ∧ CodecCall.split [0, 0, 0, 5] ≠ .unwrap bs := ⟨nofun, nofun⟩
theorem test_witness_DisposeAndClose :
    (busy .close).inbox = .close :: [] ∧ (busy .dispose).inbox = .dispose :: [] := by decide
theorem test_witness_CancelTxDropsOutbound :
    (busy .cancelTx).disposed = false ∧ (busy .cancelTx).inbox = .cancelTx :: [] := by decide
theorem test_witness_CancelRxDropsInbound :
    (busy .cancelRx).disposed = false ∧ (busy .cancelRx).inbox = .cancelRx :: [] := by decide
theorem test_witness_TransportFailureDisposes :
    (busy .transportFailure).disposed = false ∧ (busy .transportFailure).inbox = .transportFailure :: [] := by decide

end Sys2Proof.Tests
end

section
/-!
PROOFS. The two edge cases of 42_fragmenter.md section 4: a frame that fits in one `MTU` (R180) and where zero-length and
exactly fitting metadata go (R181). The first part says what one fragment of a well-formed sequence leaves for the next.
-/

namespace Sys2Proof.Machine

/-! ### The registers after a fragment -/

theorem exists_fragment {mtu : Nat} {q : FragSeq} (hw : q.Wf mtu) : ∃ out, fragmentFrame mtu q = .ok out :=
  ⟨_, fragmentFrame_eq hw⟩

/-- While more follows, the registers take the cursors BUDGET gives and something is left (42_fragmenter.md R179). -/
theorem eq_of_advance_eq_some {mtu : Nat} {q q' : FragSeq} (hw : q.Wf mtu) (h : advance mtu q = some q') :
    ¬((budget mtu q).mdOff = q.md.length ∧ (budget mtu q).dataOff = q.data.length) ∧
      q' = { q with
        mdOff := (budget mtu q).mdOff, mdOpen := (budget mtu q).mdOpen, dataOff := (budget mtu q).dataOff
        isFirst := false } := by
  rw [advance_eq hw] at h
  split_ifs at h with hdone
  exact ⟨hdone, (Option.some.inj h).symm⟩

/-- FRAG_NEXT keeps a sequence well formed (42_fragmenter.md R179). -/
theorem wf_of_advance_eq_some {mtu : Nat} {q q' : FragSeq} (hw : q.Wf mtu) (h : advance mtu q = some q') :
    q'.Wf mtu := by
  obtain ⟨hleft, rfl⟩ := eq_of_advance_eq_some hw h
  have hb := budget_spec hw
  have hmd := hb.mdWithin
  have hdata := hb.dataWithin
  have hopen : (budget mtu q).mdOpen = true → (budget mtu q).mdOff < q.md.length := by
    rw [hb.mdOpen, Bool.and_eq_true, decide_eq_true_eq]; exact And.right
  have hclosed : (budget mtu q).mdOpen = false → (budget mtu q).mdOff = q.md.length := by
    rw [hb.mdOpen, Bool.and_eq_false_iff, decide_eq_false_iff_not]
    rintro (ho | hm)
    · have := hw.closed ho
      have := hb.mdOff
      omega
    · omega
  refine ⟨hw.prefixLength, hw.mtuFloor, hw.metadataLength, hmd, hdata, hclosed, ?metadataFirst, nofun,
    fun _ => ⟨hopen, ?pending⟩⟩
  case metadataFirst =>
    intro hpos
    by_cases hnew : (budget mtu q).fdata = []
    · have hoff := hb.dataOff
      rw [hnew, List.length_nil] at hoff
      have ho := hw.metadataFirst (by dsimp only at hpos; omega)
      change (budget mtu q).mdOpen = false
      rw [hb.mdOpen, ho, Bool.false_and]
    · have hall := hb.order hnew
      change (budget mtu q).mdOpen = false
      rw [hb.mdOpen, hall, decide_eq_false (Nat.lt_irrefl _), Bool.and_false]
  case pending =>
    change (budget mtu q).mdOpen = true ∨ (budget mtu q).dataOff < q.data.length
    cases ho : (budget mtu q).mdOpen with
    | true => exact .inl rfl
    | false =>
      have := hclosed ho
      exact .inr (by omega)

/-- Once a fragment has carried the last metadata byte, later fragments find `FR.md_open` clear. -/
theorem mdOpen_eq_false_of_advance {mtu : Nat} {q q' : FragSeq} (hw : q.Wf mtu)
    (hall : (budget mtu q).mdOff = q.md.length) (h : advance mtu q = some q') : q'.mdOpen = false := by
  obtain ⟨-, rfl⟩ := eq_of_advance_eq_some hw h
  change (budget mtu q).mdOpen = false
  rw [(budget_spec hw).mdOpen, hall, decide_eq_false (Nat.lt_irrefl _), Bool.and_false]

theorem budget_mdOff_of_closed {mtu : Nat} {q : FragSeq} (hw : q.Wf mtu) (hc : q.mdOpen = false) :
    (budget mtu q).mdOff = q.md.length := by
  have hb := budget_spec hw
  have := hw.closed hc
  have := hb.mdOff
  have := hb.mdWithin
  omega

/-- A fragment that exhausts the metadata carries all that remained of it. -/
theorem budget_fmd_of_exhausted {mtu : Nat} {q : FragSeq} (hw : q.Wf mtu)
    (hall : (budget mtu q).mdOff = q.md.length) : (budget mtu q).fmd.getD [] = q.md.drop q.mdOff := by
  rw [(budget_spec hw).mdBytes, hall, List.drop_length, List.append_nil]

/-- A fragment that exhausts the data carries all that remained of it. -/
theorem budget_fdata_of_exhausted {mtu : Nat} {q : FragSeq} (hw : q.Wf mtu)
    (hall : (budget mtu q).dataOff = q.data.length) : (budget mtu q).fdata = q.data.drop q.dataOff := by
  rw [(budget_spec hw).dataBytes, hall, List.drop_length, List.append_nil]

/-- The metadata of a fragment is determined by `FR.md_open` and its bytes. -/
theorem budget_fmd_eq {mtu : Nat} {q : FragSeq} (hw : q.Wf mtu) {md : Option Bytes} (hs : md.isSome = q.mdOpen)
    (hg : (budget mtu q).fmd.getD [] = md.getD []) : (budget mtu q).fmd = md := by
  have hf := (budget_spec hw).hasMetadata
  rw [← hs] at hf
  generalize (budget mtu q).fmd = fmd at *
  cases fmd <;> cases md <;> simp_all

/-- With `FR.md_open` clear the fragment has no metadata and M clear (42_fragmenter.md R176, R181). -/
theorem split_fragment_of_closed {mtu : Nat} {q : FragSeq} (hw : q.Wf mtu) (hc : q.mdOpen = false) {out : Bytes}
    (h : fragmentFrame mtu q = .ok out) :
    ∃ (hd : Header) (p : Parts), split out = .ok (hd, p) ∧ p.md = none ∧ mSet hd.flags = false := by
  refine ⟨_, _, split_fragment hw h, ?_, ?_⟩
  · have hs := (budget_spec hw).hasMetadata
    rw [hc] at hs
    simpa using hs
  · rw [writtenFlags, mSet_withM, hc]

/-! ### The whole sequence -/

/-- A sequence is its first fragment followed by the sequence of the registers after it. -/
theorem sequenceFrom_succ {mtu : Nat} {q : FragSeq} {out : Bytes} (h : fragmentFrame mtu q = .ok out) (n : Nat) :
    sequenceFrom mtu (n + 1) q = out :: (advance mtu q).elim [] (sequenceFrom mtu n) := by
  rw [sequenceFrom, h]
  cases advance mtu q <;> rfl

theorem fragmentsOf_eq_cons {mtu : Nat} {q : FragSeq} {out : Bytes} (h : fragmentFrame mtu q = .ok out) :
    fragmentsOf mtu q = out :: (advance mtu q).elim [] (sequenceFrom mtu (q.md.length + q.data.length)) := by
  rw [fragmentsOf, Nat.add_assoc, Nat.add_comm 1, sequenceFrom_succ h]

/-- From a sequence with `FR.md_open` clear on, no fragment carries metadata. -/
theorem split_sequenceFrom_of_closed {mtu : Nat} (n : Nat) :
    ∀ {q : FragSeq}, q.Wf mtu → q.mdOpen = false → ∀ out ∈ sequenceFrom mtu n q,
      ∃ (hd : Header) (p : Parts), split out = .ok (hd, p) ∧ p.md = none ∧ mSet hd.flags = false := by
  induction n with
  | zero => intro q _ _ out hmem; cases hmem
  | succ n ih =>
    intro q hw hc out hmem
    obtain ⟨first, hfirst⟩ := exists_fragment hw
    rw [sequenceFrom_succ hfirst, List.mem_cons] at hmem
    rcases hmem with rfl | hlater
    · exact split_fragment_of_closed hw hc hfirst
    · cases ha : advance mtu q with
      | none => rw [ha] at hlater; cases hlater
      | some q' =>
        rw [ha] at hlater
        exact ih (wf_of_advance_eq_some hw ha) (mdOpen_eq_false_of_advance hw (budget_mdOff_of_closed hw hc) ha)
          out hlater

/-! ### A sequence whose rest fits -/

/-- When all that remains fits in one fragment, BUDGET takes all of it. -/
theorem budget_exhausts_of_fits {mtu : Nat} {q : FragSeq} (hw : q.Wf mtu)
    (hfit : 6 + (fragmentPrefix q).length + (if q.mdOpen then 3 else 0) + (q.md.length - q.mdOff) +
      (q.data.length - q.dataOff) ≤ mtu) :
    (budget mtu q).mdOff = q.md.length ∧ (budget mtu q).dataOff = q.data.length := by
  have hb := budget_spec hw
  have hmdOff := hb.mdOff
  have hdataOff := hb.dataOff
  have hdata := hb.fdataLength
  have h1 := hw.mdOff
  have h2 := hw.dataOff
  have hall : (budget mtu q).mdOff = q.md.length := by
    cases ho : q.mdOpen with
    | false => exact budget_mdOff_of_closed hw ho
    | true =>
      have hmd := hb.fmdLength ho
      rw [ho, if_pos rfl] at hfit
      omega
  exact ⟨hall, by omega⟩

/-- On a fragment that is first and last every flag but F is the original's (42_fragmenter.md R176). -/
theorem withM_fragmentFlags_single (t : FragType) (fl : Flags) :
    withM (fragmentFlags t fl true false) (mSet fl) = fl &&& 0x37F#10 := by
  have hother : fragmentFlags t fl true false = otherFlags fl := by cases t <;> simp [fragmentFlags, carriesOther]
  have hbits : ∀ fl : Flags, withM (otherFlags fl) (mSet fl) = fl &&& 0x37F#10 := by
    unfold withM otherFlags mSet flagM; decide
  rw [hother, hbits]

/-- A well-formed instruction that loads is a whole fragmentable frame, and its sequence is well formed. -/
theorem of_loadSequence_frameOf {i : Instr} {mtu : Nat} {q : FragSeq} (hwf : i.wf = true)
    (hload : loadSequence mtu (frameOf i) = .ok q) :
    q.Wf mtu ∧ ∃ t p, (frameOf i).body = .frag t (some p) ∧
      q = { sid := i.head.sid, type := t, oflags := i.head.flags, pre := p.pre, md := p.md.getD [], mdOff := 0,
            mdOpen := mSet i.head.flags, data := p.data, dataOff := 0, isFirst := true } := by
  constructor
  · refine (wf_of_loadSequence (fun t p hb => ?_) hload).1
    obtain ⟨hpre, hmd, -⟩ := body_spell hwf hb
    exact ⟨hpre, by rwa [frameOf_flags]⟩
  · rcases loadSequence_cases mtu (frameOf i) with ⟨-, e⟩ | ⟨t, parts, -, -, e⟩ | ⟨t, -, -, e⟩ | ⟨t, p, hb, -, e⟩
    · rw [e] at hload; cases hload
    · rw [e] at hload; cases hload
    · rw [e] at hload; cases hload
    · rw [e, frameOf_sid, frameOf_flags] at hload
      injection hload with hq
      exact ⟨t, p, hb, hq.symm⟩

/-- Settles O46: BUDGET takes all that a fitting frame holds, so the first fragment is the last one. -/
theorem frameThatFitsIsOneFragment : Obligations.FrameThatFitsIsOneFragment := by
  unfold Obligations.FrameThatFitsIsOneFragment
  intro i mtu q hwf hload hlen
  obtain ⟨hw, t, p, hb, hq⟩ := of_loadSequence_frameOf hwf hload
  obtain ⟨-, hmd, hspell⟩ := body_spell hwf hb
  obtain ⟨hM, -⟩ := (metadataWf_iff _ _).mp hmd
  obtain ⟨hmdOff, hdataOff⟩ : (budget mtu q).mdOff = q.md.length ∧ (budget mtu q).dataOff = q.data.length := by
    refine budget_exhausts_of_fits hw (le_trans (le_of_eq ?_) hlen)
    rw [length_encode, ← hspell, hq, ← hM]
    cases hpm : p.md <;> simp [fragmentPrefix] <;> omega
  have hlast : advance mtu q = none := by rw [advance_eq hw, if_pos ⟨hmdOff, hdataOff⟩]
  have hfmd : (budget mtu q).fmd = p.md :=
    budget_fmd_eq hw (by rw [hq, hM]) (by rw [budget_fmd_of_exhausted hw hmdOff, hq, List.drop_zero])
  have hfdata : (budget mtu q).fdata = p.data := by rw [budget_fdata_of_exhausted hw hdataOff, hq, List.drop_zero]
  have hflags : writtenFlags mtu q = i.head.flags &&& 0x37F#10 := by
    rw [writtenFlags, moreAfter_eq, hlast, ← withM_fragmentFlags_single t, hq]; rfl
  refine ⟨?_, hlast⟩
  rw [fragmentFrame_eq hw, hflags, hfmd, hfdata, type_of_body_frag hb, ← hspell, hq]
  rfl

/-! ### Zero-length and exactly fitting metadata -/

/-- The sequence of a frame with M set and no metadata bytes: length 0 and M on element 0, neither on any later one. -/
theorem split_fragmentsOf_of_empty_metadata {mtu : Nat} {q : FragSeq} (hw : q.Wf mtu) (ho : q.mdOpen = true)
    (hmd : q.md = []) (n : Nat) (out : Bytes) (hn : (fragmentsOf mtu q)[n]? = some out) :
    ∃ (h : Header) (p : Parts), split out = .ok (h, p) ∧ p.md = (if n = 0 then some [] else none) ∧
      mSet h.flags = decide (n = 0) := by
  have hall : (budget mtu q).mdOff = q.md.length := by
    have hle := (budget_spec hw).mdWithin
    rw [hmd] at hle ⊢
    exact Nat.le_zero.mp hle
  obtain ⟨first, hfirst⟩ := exists_fragment hw
  rw [fragmentsOf_eq_cons hfirst] at hn
  cases n with
  | zero =>
    obtain rfl : first = out := by simpa using hn
    refine ⟨_, _, split_fragment hw hfirst, budget_fmd_eq hw ho.symm ?_, ?_⟩
    · rw [budget_fmd_of_exhausted hw hall, hmd, List.drop_nil, if_pos rfl, Option.getD_some]
    · rw [writtenFlags, mSet_withM, ho]; rfl
  | succ n =>
    rw [List.getElem?_cons_succ] at hn
    cases ha : advance mtu q with
    | none => rw [ha] at hn; cases hn
    | some q' =>
      rw [ha] at hn
      exact split_sequenceFrom_of_closed _ (wf_of_advance_eq_some hw ha) (mdOpen_eq_false_of_advance hw hall ha) out
        (List.mem_of_getElem? hn)

/-- BUDGET of metadata that exactly fills the fragment: all of it is taken, and no data. -/
theorem budget_of_exact_metadata {mtu : Nat} {q : FragSeq} (hw : q.Wf mtu) (ho : q.mdOpen = true)
    (hfill : q.md.length - q.mdOff = mtu - 6 - (fragmentPrefix q).length - 3) :
    (budget mtu q).mdOff = q.md.length ∧ (budget mtu q).fdata = [] := by
  have hb := budget_spec hw
  have hmd := hb.fmdLength ho
  have hdata := hb.fdataLength
  have hoff := hb.mdOff
  have h1 := hw.mdOff
  rw [ho, if_pos rfl] at hdata
  exact ⟨by omega, List.length_eq_zero_iff.mp (by omega)⟩

/-- Settles O47: the fragment that exhausts the metadata closes `FR.md_open` for all that follow it. -/
theorem metadataPlacement : Obligations.MetadataPlacement := by
  unfold Obligations.MetadataPlacement
  intro mtu q hw ho
  refine ⟨fun _ hmd => split_fragmentsOf_of_empty_metadata hw ho hmd, fun hfill => ?_⟩
  rw [← length_fragmentPrefix] at hfill
  obtain ⟨hall, hnodata⟩ := budget_of_exact_metadata hw ho hfill
  have hfmd := budget_fmd_of_exhausted hw hall
  obtain ⟨out, hout⟩ := exists_fragment hw
  refine ⟨out, _, _, hout, split_fragment hw hout, ?length, budget_fmd_eq hw ho.symm hfmd, hnodata, fun q' ha => ?_⟩
  case length =>
    have hroom := length_fragmentPrefix_le hw
    rw [length_fragment hw hout, hfmd, hnodata, ho, if_pos rfl, List.length_drop, List.length_nil]
    omega
  · have hw' := wf_of_advance_eq_some hw ha
    have hc := mdOpen_eq_false_of_advance hw hall ha
    obtain ⟨out', hout'⟩ := exists_fragment hw'
    obtain ⟨h', p', hsplit, hnone, hM⟩ := split_fragment_of_closed hw' hc hout'
    exact ⟨hc, out', h', p', hout', hsplit, hnone, hM⟩

end Sys2Proof.Machine
end

section
/-!
PROOFS. The decoder and the encoder: they are inverse to each other on well-formed instructions, which byte sequences
are rejected, and the header and the opcode table bit by bit (30_encoding.md sections 1 to 4, 41_codec_ops.md
PARSE_HEADER).
-/

namespace Sys2Proof.Machine

/-! ### Decoding what was encoded -/

/-- The N and C bits of a well-formed instruction are those of its mnemonic. -/
theorem classify_of_wf {i : Instr} (hw : i.wf = true) : classify i.type i.head.flags = i.mnemonic := by
  cases i with
  | payload h p | next h p | complete h p | nextComplete h p =>
    simp only [Instr.wf, aliasWf, Bool.and_eq_true, beq_iff_eq] at hw
    obtain ⟨⟨hn, hc⟩, -⟩ := hw
    simp only [classify, Instr.type, Instr.head, hn, hc, Instr.mnemonic]
  | _ => rfl

/-- The instruction read from the bytes of a well-formed instruction is that instruction. -/
theorem instrOf_encode {i : Instr} (hw : i.wf = true) :
    instrOf { sid := i.head.sid, type := i.type, flags := i.head.flags } (encode i) = i := by
  unfold instrOf
  dsimp only
  rw [classify_of_wf hw, headOf_encode, bodyOf_encode]
  cases i with
  | requestResponse h p | requestFnf h p =>
    simp only [Instr.mnemonic, Instr.head]
    exact congrArg _ (payloadOf_bytes rfl rfl (length_headerBytes _ _ _ _) hw)
  | requestStream h p | requestChannel h p =>
    simp only [Instr.mnemonic, Instr.head]
    exact congrArg _ (nPayloadOf_bytes rfl rfl (length_headerBytes _ _ _ _) hw)
  | payload h p | next h p | complete h p | nextComplete h p =>
    simp only [Instr.mnemonic, Instr.head]
    rw [Instr.wf, Bool.and_eq_true] at hw
    exact congrArg _ (payloadOf_bytes rfl rfl (length_headerBytes _ _ _ _) hw.2)
  | _ => rfl

theorem decode_encode {i : Instr} (hw : i.wf = true) : decode (encode i) = .ok i := by
  rw [decode, parseHeader_encode, Codec.bind_ok, instrOf_encode hw]

/-- Settles O2: the header reads back, and the operands of each format are read back from their bytes. -/
theorem decodeOfEncode : Obligations.DecodeOfEncode := fun _ hw => decode_encode hw

/-! ### Encoding what was decoded -/

/-- A decoded instruction is the one its header and its bytes give. -/
theorem decode_eq_ok_iff {bs : Bytes} {i : Instr} :
    decode bs = .ok i ↔ ∃ h, parseHeader bs = .ok h ∧ instrOf h bs = i := by
  unfold decode
  cases parseHeader bs <;> simp [Codec.bind]

theorem instrOf_mnemonic (h : Header) (bs : Bytes) : (instrOf h bs).mnemonic = classify h.type h.flags := by
  unfold instrOf
  cases classify h.type h.flags <;> rfl

theorem instrOf_head (h : Header) (bs : Bytes) : (instrOf h bs).head = headOf h bs := by
  unfold instrOf
  cases classify h.type h.flags <;> rfl

theorem type_eq_of_mnemonic (i : Instr) : i.type = i.mnemonic.wire.1 := by cases i <;> rfl

/-- CLASSIFY answers a mnemonic exactly for its wire type and, for the PAYLOAD family, its N and C bits. -/
theorem classify_eq_iff (t : WireType) (fl : Flags) (m : Mnemonic) :
    classify t fl = m ↔ t = m.wire.1 ∧ (t = .frag .payload → fl &&& (flagN ||| flagC) = m.wire.2) := by
  have hbits : ∀ fl : Flags, fl &&& (flagN ||| flagC) =
      (if nSet fl then flagN else 0#10) ||| (if cSet fl then flagC else 0#10) := by
    unfold nSet cSet flagN flagC; decide
  rcases t with t | t <;> cases t
  case frag.payload =>
    simp only [classify, hbits]
    cases nSet fl <;> cases cSet fl <;> cases m <;> decide
  all_goals cases m <;> simp [classify, Mnemonic.wire]

theorem instrOf_type (h : Header) (bs : Bytes) : (instrOf h bs).type = h.type := by
  rw [type_eq_of_mnemonic, instrOf_mnemonic]
  exact ((classify_eq_iff h.type h.flags _).mp rfl).1.symm

/-- The operands read from a frame spell the bytes after its header and are well formed. -/
theorem instrOf_body_wf (h : Header) {bs : Bytes} (hl : 6 ≤ bs.length) :
    (instrOf h bs).body = bodyOf bs ∧ (instrOf h bs).wf = true := by
  have htake : (bs.take 6).length = 6 := by rw [List.length_take]; omega
  have hP : ∀ t : FragType, h.type = .frag t → t.prefixSize = 0 →
      (payloadOf h bs).wf h.flags = true ∧ (payloadOf h bs).bytes = bodyOf bs := by
    intro t ht h0
    have := payloadOf_spell ht h0 htake (bs.drop 6)
    rwa [List.take_append_drop] at this
  have hNP : ∀ t : FragType, h.type = .frag t → t.prefixSize = 4 →
      (nPayloadOf h bs).wf h.flags = true ∧ (nPayloadOf h bs).bytes = bodyOf bs := by
    intro t ht h4
    have := nPayloadOf_spell ht h4 htake (bs.drop 6)
    rwa [List.take_append_drop] at this
  obtain ⟨sid, ty, fl⟩ := h
  unfold instrOf
  rcases ty with t | t <;> cases t
  case frag.payload =>
    obtain ⟨hw, hb⟩ := hP .payload rfl rfl
    cases hn : nSet fl <;> cases hc : cSet fl <;>
      simp [classify, hn, hc, Instr.body, Instr.wf, aliasWf, headOf, hb] <;> exact hw
  case frag.requestResponse => exact (hP _ rfl rfl).symm
  case frag.requestFnf => exact (hP _ rfl rfl).symm
  case frag.requestStream => exact (hNP _ rfl rfl).symm
  case frag.requestChannel => exact (hNP _ rfl rfl).symm
  all_goals exact ⟨rfl, rfl⟩

/-- Settles O3: header and operands are written back as they were read. -/
theorem encodeOfDecode : Obligations.EncodeOfDecode := by
  unfold Obligations.EncodeOfDecode
  intro bs i hd
  obtain ⟨h, hp, rfl⟩ := decode_eq_ok_iff.mp hd
  obtain ⟨hl, hbytes⟩ := headerBytes_of_parseHeader hp
  obtain ⟨hbody, hwf⟩ := instrOf_body_wf h hl
  refine ⟨?_, hwf⟩
  rw [encode_eq, instrOf_head, instrOf_type, hbody]
  exact hbytes

/-! ### What the decoder rejects -/

theorem typeCode_lt {bs : Bytes} (hl : 6 ≤ bs.length) : headerTypeFlags bs / 1024 < 64 := by
  have := headerTypeFlags_lt hl
  omega

/-- The codes without a wire type (30_encoding.md R93). -/
theorem ofCode_eq_none_iff {c : Nat} (hc : c < 64) :
    WireType.ofCode (BitVec.ofNat 6 c) = none ↔ c = 0 ∨ 15 ≤ c ∧ c ≤ 62 := by
  interval_cases c <;> decide

/-- Settles O5: PARSE_HEADER fails in two ways only, told apart by the length and by the type code. -/
theorem decoderRejections : Obligations.DecoderRejections := by
  unfold Obligations.DecoderRejections
  intro bs
  unfold decode
  rcases parseHeader_cases bs with ⟨hl, e⟩ | ⟨hl, hnone, e⟩ | ⟨hl, t, hsome, e⟩ <;> rw [e]
  · simp; omega
  · have := (ofCode_eq_none_iff (typeCode_lt hl)).mp hnone
    simp; omega
  · have hc := typeCode_lt hl
    have := mt (ofCode_eq_none_iff hc).mpr (by rw [hsome]; simp)
    simp; omega

/-- The flags that a row of the opcode table looks at: N and C for the PAYLOAD family, none for the other types. -/
def rowFlags (m : Mnemonic) : Flags := if m.wire.1 = .frag .payload then flagN ||| flagC else 0#10

/-- A row of the opcode table: the whole type code and `rowFlags`, and the values they must have. -/
theorem tableRow_eq (m : Mnemonic) :
    tableRow m =
      ((63#6 : TypeCode).toNat * 1024 + (rowFlags m).toNat, m.wire.1.code.toNat * 1024 + m.wire.2.toNat) := by
  cases m <;> rfl

theorem and_rowFlags_eq_iff (m : Mnemonic) (fl : Flags) :
    fl &&& rowFlags m = m.wire.2 ↔ (m.wire.1 = .frag .payload → fl &&& (flagN ||| flagC) = m.wire.2) := by
  unfold rowFlags
  split_ifs with h
  · simp [h]
  · simp only [h, BitVec.and_zero, false_implies, iff_true]
    revert h
    cases m <;> decide

/-- A type/flags field is its type code and its flags. -/
theorem typeFlags_eq_append (c : TypeCode) (f : Flags) : c.toNat * 1024 + f.toNat = (c ++ f).toNat := by
  have hor := Nat.two_pow_add_eq_or_of_lt f.isLt c.toNat
  rw [BitVec.toNat_append, Nat.shiftLeft_eq, Nat.mul_comm _ (2 ^ 10), ← hor]
  omega

/-- Masking acts on the code and on the flags of a type/flags field apart. -/
theorem and_typeFlags (c d : TypeCode) (f g : Flags) :
    (c.toNat * 1024 + f.toNat) &&& (d.toNat * 1024 + g.toNat) = (c &&& d).toNat * 1024 + (f &&& g).toNat := by
  rw [typeFlags_eq_append, typeFlags_eq_append, typeFlags_eq_append, ← BitVec.toNat_and, BitVec.and_append]

theorem typeFlags_inj {c d : TypeCode} {f g : Flags} :
    c.toNat * 1024 + f.toNat = d.toNat * 1024 + g.toNat ↔ c = d ∧ f = g := by
  have hf := f.isLt
  have hg := g.isLt
  rw [← BitVec.toNat_inj, ← BitVec.toNat_inj]
  omega

theorem headerTypeFlags_eq {bs : Bytes} (hl : 6 ≤ bs.length) :
    headerTypeFlags bs = (BitVec.ofNat 6 (headerTypeFlags bs / 1024)).toNat * 1024 +
      (BitVec.ofNat 10 (headerTypeFlags bs)).toNat := by
  have := headerTypeFlags_lt hl
  rw [BitVec.toNat_ofNat, BitVec.toNat_ofNat]
  omega

theorem ofCode_eq_some_iff {c : TypeCode} {t : WireType} : WireType.ofCode c = some t ↔ c = t.code :=
  ⟨fun h => (WireType.code_of_ofCode h).symm, fun h => h ▸ WireType.ofCode_code t⟩

/-- A frame with a whole header decodes to mnemonic `m` iff its type code has a wire type that CLASSIFY reads as `m`. -/
theorem decode_mnemonic_iff {bs : Bytes} (hl : 6 ≤ bs.length) (m : Mnemonic) :
    (∃ i, decode bs = .ok i ∧ i.mnemonic = m) ↔
      ∃ t : WireType, BitVec.ofNat 6 (headerTypeFlags bs / 1024) = t.code ∧
        classify t (BitVec.ofNat 10 (headerTypeFlags bs)) = m := by
  rcases parseHeader_cases bs with ⟨hlt, -⟩ | ⟨-, hnone, e⟩ | ⟨-, t, hsome, e⟩
  · omega
  · refine iff_of_false ?_ ?_
    · rintro ⟨i, hd, -⟩
      rw [decode, e] at hd
      cases hd
    · rintro ⟨t, ht, -⟩
      rw [ht, WireType.ofCode_code] at hnone
      cases hnone
  · rw [ofCode_eq_some_iff] at hsome
    simp only [decode, e, Codec.bind_ok, Codec.ok.injEq, exists_eq_left', instrOf_mnemonic]
    constructor
    · exact fun h => ⟨t, hsome, h⟩
    · rintro ⟨u, hu, h⟩
      have htu : some t = some u := by rw [← WireType.ofCode_code t, ← hsome, hu, WireType.ofCode_code]
      rwa [Option.some.inj htu]

/-- Settles O6: a row's mask and match compare the type code and, for the PAYLOAD family, N and C, as CLASSIFY does. -/
theorem decodeFollowsOpcodeTable : Obligations.DecodeFollowsOpcodeTable := by
  unfold Obligations.DecodeFollowsOpcodeTable
  intro bs m hl
  rw [decode_mnemonic_iff hl, tableRow_eq]
  dsimp only
  rw [headerTypeFlags_eq hl, and_typeFlags, typeFlags_inj, ← headerTypeFlags_eq hl, and_rowFlags_eq_iff,
    show (63#6 : TypeCode) = BitVec.allOnes 6 from rfl, BitVec.and_allOnes]
  constructor
  · rintro ⟨t, hc, hm⟩
    obtain ⟨rfl, hnc⟩ := (classify_eq_iff _ _ _).mp hm
    exact ⟨hc, hnc⟩
  · rintro ⟨hc, hnc⟩
    exact ⟨m.wire.1, hc, (classify_eq_iff _ _ _).mpr ⟨rfl, hnc⟩⟩

/-! ### The header byte by byte -/

theorem toNat_append_byte {w : Nat} (x : BitVec w) (b : Byte) : (x ++ b).toNat = x.toNat * 256 + b.toNat := by
  have hor := Nat.two_pow_add_eq_or_of_lt b.isLt x.toNat
  rw [BitVec.toNat_append, Nat.shiftLeft_eq, Nat.mul_comm _ (2 ^ 8), ← hor, Nat.mul_comm]

/-- The flags of the last two header bytes: the low two bits of the first and the whole second (30_encoding.md R85). -/
theorem flags_of_bytes (b4 b5 : Byte) : BitVec.ofNat 10 (b4 ++ b5).toNat = b4.extractLsb' 0 2 ++ b5 := by
  apply BitVec.eq_of_toNat_eq
  have h5 := b5.isLt
  rw [BitVec.toNat_ofNat, toNat_append_byte, toNat_append_byte, BitVec.extractLsb'_toNat]
  omega

theorem typeCode_of_bytes (b4 b5 : Byte) : BitVec.ofNat 6 ((b4 ++ b5).toNat / 1024) = b4.extractLsb' 2 6 := by
  apply BitVec.eq_of_toNat_eq
  have h5 := b5.isLt
  rw [BitVec.toNat_ofNat, toNat_append_byte, BitVec.extractLsb'_toNat, Nat.shiftRight_eq_div_pow]
  omega

/-- Settles O4: big-endian words are the concatenations of their bytes. -/
theorem headerByBytes : Obligations.HeaderByBytes := by
  unfold Obligations.HeaderByBytes
  intro b0 b1 b2 b3 b4 b5 rest
  have hword : headerWord (b0 :: b1 :: b2 :: b3 :: b4 :: b5 :: rest) = (b0 ++ b1 ++ b2 ++ b3).toNat := by
    simp [headerWord, slice, be, toNat_append_byte]
  have htf : headerTypeFlags (b0 :: b1 :: b2 :: b3 :: b4 :: b5 :: rest) = (b4 ++ b5).toNat := by
    simp [headerTypeFlags, slice, be, toNat_append_byte]
  refine ⟨hword, htf, fun h hp => ?_⟩
  rcases parseHeader_cases (b0 :: b1 :: b2 :: b3 :: b4 :: b5 :: rest) with ⟨-, e⟩ | ⟨-, -, e⟩ | ⟨-, t, ht, e⟩ <;>
    rw [e] at hp <;> cases hp
  rw [htf, typeCode_of_bytes, ofCode_eq_some_iff] at ht
  rw [hword, htf, flags_of_bytes]
  have hbit : ∀ n, (b4.extractLsb' 0 2 ++ b5).getLsbD n = _ := fun _ => BitVec.getLsbD_append
  exact ⟨rfl, ht.symm, rfl, (hbit 8).trans (by simp), (hbit 7).trans (by simp), (hbit 6).trans (by simp),
    (hbit 5).trans (by simp)⟩

/-- Settles O1: the eight frames evaluate. -/
theorem specExamplesDecode : Obligations.SpecExamplesDecode := by
  unfold Obligations.SpecExamplesDecode
  decide

end Sys2Proof.Machine
end

section
/-!
PROOFS. The codec functions of 41_codec_ops.md: ENCODE against PARSE_HEADER and the slicing accessors, SPLIT against
ENCODE, the frame-length field, the text form of NEXT, COMPLETE and NEXT_COMPLETE (30_encoding.md R99), and the codec
calls.
-/

namespace Sys2Proof.Machine

/-! ### ENCODE -/

/-- ENCODE completes exactly on a fragmentable type with as many bytes before the payload as it has, and metadata of a
24-bit length. -/
theorem encodeFrame_eq_ok_iff {sid : StreamId} {t : WireType} {fl : Flags} {pre : Bytes} {md : Option Bytes}
    {data out : Bytes} :
    encodeFrame sid t fl pre md data = .ok out ↔
      ∃ u : FragType, t = .frag u ∧ pre.length = u.prefixSize ∧ (md.getD []).length ≤ 0xFFFFFF ∧
        headerBytes false sid t.code (withM fl md.isSome) ++ (pre ++ metadataField md ++ data) = out := by
  cases t with
  | other t => simp [encodeFrame]
  | frag t =>
    simp only [encodeFrame, Config.maxU24_eq, List.append_assoc, WireType.code, WireType.frag.injEq, exists_eq_left']
    split_ifs with hp hm
    · simp [hp]
    · exact iff_of_false nofun (by omega)
    · simp only [Codec.ok.injEq]
      exact ⟨fun h => ⟨not_not.mp hp, by omega, h⟩, fun ⟨_, _, h⟩ => h⟩

theorem metadataWf_withM {fl : Flags} {md : Option Bytes} (h : (md.getD []).length ≤ 0xFFFFFF) :
    metadataWf (withM fl md.isSome) md = true := by
  rw [metadataWf_iff, mSet_withM]
  exact ⟨rfl, by omega⟩

/-- SLICE_METADATA is the metadata that SPLIT finds. -/
theorem sliceMetadata_eq {bs : Bytes} {h : Header} (hp : parseHeader bs = .ok h) :
    sliceMetadata bs h.type = (splitAt h bs).bind fun p => .ok p.md := by
  rw [sliceMetadata, hp, Codec.bind_ok, splitAt]
  cases offsets h.sid bs h.type h.flags <;> rfl

/-- SLICE_DATA is the data that SPLIT finds. -/
theorem sliceData_eq {bs : Bytes} {h : Header} (hp : parseHeader bs = .ok h) :
    sliceData bs h.type = (splitAt h bs).bind fun p => .ok p.data := by
  rw [sliceData, hp, Codec.bind_ok, splitAt]
  cases offsets h.sid bs h.type h.flags <;> rfl

theorem split_eq {bs : Bytes} {h : Header} (hp : parseHeader bs = .ok h) :
    split bs = (splitAt h bs).bind fun p => .ok (h, p) := by
  rw [split, hp, Codec.bind_ok]

/-- SPLIT of the bytes of a header and whole operands gives them back. -/
theorem split_whole (r : Bool) (sid : StreamId) {t : FragType} {fl : Flags} {pre data : Bytes} {md : Option Bytes}
    (hp : pre.length = t.prefixSize) (hm : metadataWf fl md = true) :
    splitAt ⟨sid, .frag t, fl⟩ (headerBytes r sid (WireType.frag t).code fl ++ (pre ++ metadataField md ++ data)) =
      .ok ⟨pre, md, data⟩ :=
  splitAt_whole (h := ⟨sid, .frag t, fl⟩) rfl (length_headerBytes _ _ _ _) hp hm

theorem lenEncode_of_le {bs : Bytes} (h : bs.length ≤ 0xFFFFFF) : lenEncode bs = .ok (ube 3 bs.length ++ bs) :=
  if_neg (Nat.not_lt.mpr h)

/-- LEN_DECODE reads back a prefixed frame, whatever trails it. -/
theorem lenDecode_prefixed {bs : Bytes} (h : bs.length ≤ 0xFFFFFF) (trailing : Bytes) :
    lenDecode (ube 3 bs.length ++ bs ++ trailing) = .ok bs := by
  have hlen := slice_append_left (ube 3 bs.length) (bs ++ trailing)
  have hbs := slice_append_right (ube 3 bs.length) (bs ++ trailing) 0 bs.length
  rw [slice_append_left] at hbs
  rw [length_ube] at hlen hbs
  rw [List.append_assoc, lenDecode, if_neg (by simp)]
  simp only [Config.framelenSize_eq]
  rw [hlen, be_ube_of_lt (by omega), if_neg (by simp)]
  exact congrArg _ hbs

/-- Settles O7: what ENCODE writes is a header and whole operands, which the accessors read back. -/
theorem codecLaws : Obligations.CodecLaws := by
  unfold Obligations.CodecLaws
  refine ⟨fun sid t fl pre md data out he => ?built, fun bs hl => ?lengthRound, fun bs hl => if_pos hl,
    fun sid fl pre md data => ⟨fun t => rfl, fun t => ⟨fun hp => if_pos hp, fun hp hm => ?overflow, fun hp hm => ?ok⟩⟩⟩
  case built =>
    obtain ⟨u, rfl, hp, hm, rfl⟩ := encodeFrame_eq_ok_iff.mp he
    have hparse := parseHeader_headerBytes false sid (.frag u) (withM fl md.isSome) (pre ++ metadataField md ++ data)
    have hsplit := split_whole false sid (data := data) hp (metadataWf_withM (fl := fl) hm)
    refine ⟨by rw [hparse]; cases md <;> rfl, ?_, ?_, ?_⟩
    · exact (sliceMetadata_eq hparse).trans (by rw [hsplit]; rfl)
    · exact (sliceData_eq hparse).trans (by rw [hsplit]; rfl)
    · cases md <;> simp <;> omega
  case lengthRound =>
    refine ⟨_, lenEncode_of_le hl, ?_⟩
    simpa using lenDecode_prefixed hl []
  case overflow =>
    exact (if_neg (by simp [hp])).trans (if_pos hm)
  case ok =>
    refine encodeFrame_eq_ok_iff.mpr ⟨t, rfl, hp, hm, ?_⟩
    cases md <;> simp [headerBytes, withM, flagM, WireType.code]

/-! ### The accessors -/

/-- Settles O8: the slices and SPLIT share OFFSETS, which fails exactly on a cut region. -/
theorem codecAccessors : Obligations.CodecAccessors := by
  unfold Obligations.CodecAccessors
  intro bs h hp
  obtain ⟨hl, -⟩ := headerBytes_of_parseHeader hp
  rw [sliceMetadata_eq hp, sliceData_eq hp, split_eq hp, initialRequestN, hp, Codec.bind_ok]
  refine ⟨fun hnf => ?other, fun t ht => ?frag⟩
  case other =>
    cases ht : h.type with
    | frag t => rw [ht] at hnf; cases hnf
    | other t => simp [splitAt, offsets, ht]
  case frag =>
    have hsplit := splitAt_body ht (hdr := bs.take 6) (by rw [List.length_take]; omega) (bs.drop 6)
    rw [List.take_append_drop] at hsplit
    rw [hsplit]
    refine ⟨fun hc => by simp [hc], fun hc => ⟨rawParts t.prefixSize h.flags (bs.drop 6), by simp [hc], by simp [hc],
      by simp [hc], ?_, ?_⟩, ?_⟩
    · unfold rawParts; split <;> rfl
    · exact ((metadataWf_iff _ _).mp (rawParts_spell hc).2.1).1
    · rw [ht]
      cases t <;> simp [slice]

/-! ### SPLIT, then ENCODE -/

/-- Settles O9: the parts of a frame spell its bytes after the header. -/
theorem encodeOfSplit : Obligations.EncodeOfSplit := by
  unfold Obligations.EncodeOfSplit
  intro bs h p hs hr
  cases hp : parseHeader bs with
  | raised k sid => rw [split, hp] at hs; cases hs
  | refused r => rw [split, hp] at hs; cases hs
  | ok h' =>
    obtain ⟨hl, hbytes⟩ := headerBytes_of_parseHeader hp
    rw [split_eq hp] at hs
    cases ht : h'.type with
    | other t => simp [splitAt, offsets, ht] at hs
    | frag t =>
      have hsplit := splitAt_body ht (hdr := bs.take 6) (by rw [List.length_take]; omega) (bs.drop 6)
      rw [List.take_append_drop] at hsplit
      rw [hsplit] at hs
      split_ifs at hs with hc
      · cases hs
      · cases hs
        obtain ⟨hpre, hmd, hspell⟩ := rawParts_spell (Bool.eq_false_iff.mpr hc)
        obtain ⟨hM, hm⟩ := (metadataWf_iff _ _).mp hmd
        refine encodeFrame_eq_ok_iff.mpr ⟨t, ht, hpre, by omega, ?_⟩
        rw [hM, withM_mSet, hspell]
        rw [headOf, hr] at hbytes
        exact hbytes

/-- Settles O10: ENCODE_OPAQUE writes the header fields that were read, reserved bit 0. -/
theorem encodeOpaqueOfParsed : Obligations.EncodeOpaqueOfParsed := by
  unfold Obligations.EncodeOpaqueOfParsed
  intro bs h t hp ht hr
  obtain ⟨-, hbytes⟩ := headerBytes_of_parseHeader hp
  rw [headOf, hr, ht] at hbytes
  exact hbytes

/-! ### The text form -/

/-- A PAYLOAD mnemonic with bits of its own, written without `fl=`, stands for PAYLOAD with those bits in `fl=`. -/
theorem assemble_alias {m : Mnemonic} {fl : Flags} (hw : m.wire = (.frag .payload, fl)) (hM : mSet fl = false)
    (sid : StreamId) (md data : Option Bytes) :
    assemble { mnemonic := m, sid := sid, md := md, data := data } =
      assemble { mnemonic := .payload, sid := sid, fl := some fl, md := md, data := data } := by
  have h0 : mSet 0#10 = false := rfl
  have hp : Mnemonic.payload.wire = (.frag .payload, 0#10) := rfl
  simp [assemble, hw, hp, hM, h0]

/-- Settles O11: the three mnemonics add their bits to `fl=`, and no other of N and C may be written there. -/
theorem textAliases : Obligations.TextAliases := by
  unfold Obligations.TextAliases
  have hN : ∀ fl : Flags, nSet fl = true → (fl &&& (flagN ||| flagC) &&& ~~~flagC) ≠ 0#10 := by
    unfold nSet flagN flagC; decide
  have hC : ∀ fl : Flags, cSet fl = true → (fl &&& (flagN ||| flagC) &&& ~~~flagN) ≠ 0#10 := by
    unfold cSet flagN flagC; decide
  refine fun sid md data => ⟨assemble_alias rfl rfl sid md data, assemble_alias rfl rfl sid md data,
    assemble_alias rfl rfl sid md data, fun fl h => ?_, fun fl h => ?_⟩
  · have hne : flagN ≠ 0#10 := by decide
    simp [assemble, Mnemonic.wire, hne, hC fl h]
  · have hne : flagC ≠ 0#10 := by decide
    simp [assemble, Mnemonic.wire, hne, hN fl h]

/-! ### Codec calls -/

/-- Settles O60: a codec call answers with the function of its name; only WRAP and UNWRAP read ENCODE_LENGTH. -/
theorem codecCallsArePure : Obligations.CodecCallsArePure := by
  unfold Obligations.CodecCallsArePure
  refine ⟨fun c s => ?call, fun c hc => ?pure, ?byName, fun s => rfl⟩
  case call =>
    simp only [runEvent, callCodec]
    cases codecReply s.encodeLength c <;> rfl
  case pure =>
    cases c with
    | wrap bs => exact absurd rfl (hc bs).1
    | unwrap bs => exact absurd rfl (hc bs).2
    | _ => rfl
  case byName => intros; exact ⟨rfl, rfl, rfl, rfl, rfl, rfl, rfl, rfl, rfl, rfl, rfl, rfl, rfl, rfl⟩

end Sys2Proof.Machine
end

section
/-!
PROOFS. The fragmenter of 42_fragmenter.md: what FRAG_START loads and turns away, what one FRAG_NEXT hands down and what
it holds, and the whole sequence with its length, by one induction over the fragments that follow.
-/

namespace Sys2Proof.Machine

/-! ### FRAG_START -/

theorem exec_fragStart {s : State} (h : s.op = .fragStart) (i : Instr) :
    exec i s = .next (fragStartFrame (frameOf i) s) := by
  rw [exec_eq, onFrame, h]

theorem fragStartFrame_of_idle {s : State} (hd : s.disposed = false) (hf : s.fr = none) (f : Frame) :
    fragStartFrame f s = onCodec (loadSequence s.mtu f) s fun q => { s with fr := some q } := by
  rw [fragStartFrame, unlessDisposed_of_live hd, if_neg (by simp [State.busy, hf])]

/-! FRAG_START's checks, outcome by outcome (42_fragmenter.md R171 to R173). -/

theorem loadSequence_of_other {mtu : Nat} {f : Frame} {t : OtherType} (hb : f.body = .other t) :
    loadSequence mtu f = .raised .invalidFrameType (some f.sid) := by
  rw [loadSequence, hb]

theorem loadSequence_of_lt_floor {mtu : Nat} {f : Frame} {t : FragType} {parts : Option Parts}
    (hb : f.body = .frag t parts) (hm : mtu < mtuFloor t) : loadSequence mtu f = .refused .mtuTooSmall := by
  rw [loadSequence, hb]
  exact if_pos hm

theorem loadSequence_of_cut {mtu : Nat} {f : Frame} {t : FragType} (hb : f.body = .frag t none)
    (hm : mtuFloor t ≤ mtu) : loadSequence mtu f = .raised .malformedFrame (some f.sid) := by
  rw [loadSequence, hb]
  exact if_neg (Nat.not_lt.mpr hm)

/-- The registers FRAG_START loads for a whole frame (42_fragmenter.md R171). -/
def loadedSequence (f : Frame) (t : FragType) (p : Parts) : FragSeq :=
  { sid := f.sid, type := t, oflags := f.flags, pre := p.pre, md := p.md.getD [], mdOff := 0, mdOpen := mSet f.flags
    data := p.data, dataOff := 0, isFirst := true }

theorem loadSequence_of_whole {mtu : Nat} {f : Frame} {t : FragType} {p : Parts} (hb : f.body = .frag t (some p))
    (hm : mtuFloor t ≤ mtu) : loadSequence mtu f = .ok (loadedSequence f t p) := by
  rw [loadSequence, hb]
  exact if_neg (Nat.not_lt.mpr hm)

/-- Settles O39: a whole frame at or above the floor passes all checks. -/
theorem fragStartLoads : Obligations.FragStartLoads := by
  unfold Obligations.FragStartLoads
  intro i s t p hop hd hf hb hm
  rw [exec_fragStart hop, fragStartFrame_of_idle hd hf, loadSequence_of_whole hb hm, onCodec_ok, loadedSequence,
    frameOf_sid, frameOf_flags]

/-- Settles O40: the three checks of FRAG_START in their order. -/
theorem fragStartChecks : Obligations.FragStartChecks := by
  unfold Obligations.FragStartChecks
  intro i s hop hd hf
  rw [exec_fragStart hop, fragStartFrame_of_idle hd hf, ← frameOf_sid]
  refine ⟨fun hnf => ?_, fun t parts hb => ⟨fun hm => ?_, fun hm hcut => ?_⟩⟩
  · obtain ⟨t, hb⟩ := body_of_not_fragmentable hnf
    rw [loadSequence_of_other hb]
    rfl
  · rw [loadSequence_of_lt_floor hb hm]
    rfl
  · rw [loadSequence_of_cut (hcut ▸ hb) hm]
    rfl

/-! ### One fragment -/

theorem length_fragment_le {mtu : Nat} {q : FragSeq} (hw : q.Wf mtu) {out : Bytes}
    (h : fragmentFrame mtu q = .ok out) : out.length ≤ mtu :=
  length_fragment hw h ▸ (budget_spec hw).size

theorem wrap_of_le {enc : Bool} {bs : Bytes} (h : enc = true → bs.length ≤ 0xFFFFFF) :
    wrap enc bs = .ok (wireBuffer enc bs) := by
  rcases wrap_cases enc bs with ⟨he, hlong, -⟩ | ⟨-, e⟩
  · have := h he
    omega
  · exact e

theorem mtu_le_of_admitted {mtu : Nat} {enc : Bool} (h : admitted mtu enc = true) (he : enc = true) :
    mtu ≤ 0xFFFFFF := by
  simpa [admitted, he] using h

/-- In an admitted configuration every fragment can be wrapped (42_fragmenter.md R178). -/
theorem fragmentBuffer_eq {mtu : Nat} {enc : Bool} {q : FragSeq} (hw : q.Wf mtu) (ha : admitted mtu enc = true)
    {out : Bytes} (h : fragmentFrame mtu q = .ok out) : fragmentBuffer mtu enc q = .ok (wireBuffer enc out) := by
  have hle := length_fragment_le hw h
  rw [fragmentBuffer, h, Codec.bind_ok, wrap_of_le fun he => hle.trans (mtu_le_of_admitted ha he)]

/-- In an admitted configuration an element of a well-formed sequence is handed down (42_fragmenter.md R174). -/
theorem produceFragment_eq {s : State} {q : FragSeq} (hw : q.Wf s.mtu) (ha : s.Admitted) {out : Bytes}
    (h : fragmentFrame s.mtu q = .ok out) :
    produceFragment q s =
      { s with down := s.down ++ [wireBuffer s.encodeLength out], fr := advance s.mtu q } := by
  rw [produceFragment, fragmentBuffer_eq hw ha h]
  rfl

theorem fragNext_of_busy {s : State} {q : FragSeq} (hd : s.disposed = false) (hf : s.fr = some q) :
    fragNext s = produceFragment q s := by
  rw [fragNext, unlessDisposed_of_live hd, hf]

theorem fragNext_of_idle {s : State} (hd : s.disposed = false) (hf : s.fr = none) :
    fragNext s = refuse .noSequence s := by
  rw [fragNext, unlessDisposed_of_live hd, hf]

/-- Settles O41: a fragment is no longer than `MTU`, so in an admitted configuration WRAP does not refuse it. -/
theorem fragNextEmitsOne : Obligations.FragNextEmitsOne := by
  unfold Obligations.FragNextEmitsOne
  refine ⟨fun s q hd hf hw ha => ?_, fun s hd hf => ?_⟩
  · obtain ⟨out, hout⟩ := exists_fragment hw
    exact ⟨out, hout, (fragNext_of_busy hd hf).trans (produceFragment_eq hw ha hout)⟩
  · exact fragNext_of_idle hd hf

/-! The flags of a fragment (42_fragmenter.md R176). -/

theorem fSet_withM (fl : Flags) (b : Bool) : fSet (withM fl b) = fSet fl := by
  cases b <;> simp [fSet, withM, flagM]

theorem otherFlags_withM (fl : Flags) (b : Bool) : otherFlags (withM fl b) = otherFlags fl := by
  have h : ∀ fl : Flags, otherFlags (withM fl true) = otherFlags fl ∧ otherFlags (withM fl false) = otherFlags fl := by
    unfold otherFlags withM flagM; decide
  cases b
  · exact (h fl).2
  · exact (h fl).1

theorem fSet_fragmentFlags (t : FragType) (fl : Flags) (isFirst more : Bool) :
    fSet (fragmentFlags t fl isFirst more) = more := by
  unfold fragmentFlags
  cases more <;> cases carriesOther t isFirst _ <;> simp [fSet, flagF, otherFlags]

theorem otherFlags_fragmentFlags (t : FragType) (fl : Flags) (isFirst more : Bool) :
    otherFlags (fragmentFlags t fl isFirst more) =
      if carriesOther t isFirst more then otherFlags fl else 0#10 := by
  have h : ∀ fl : Flags, otherFlags (flagF ||| otherFlags fl) = otherFlags fl ∧
      otherFlags (otherFlags fl) = otherFlags fl := by
    unfold otherFlags flagF; decide
  have h0 : otherFlags flagF = 0#10 := by decide
  have h00 : otherFlags 0#10 = 0#10 := by decide
  unfold fragmentFlags
  cases more <;> cases carriesOther t isFirst _ <;> simp [h, h0, h00]

theorem fSet_writtenFlags (mtu : Nat) (q : FragSeq) : fSet (writtenFlags mtu q) = (advance mtu q).isSome := by
  rw [writtenFlags, fSet_withM, fSet_fragmentFlags, moreAfter_eq]

theorem mSet_writtenFlags (mtu : Nat) (q : FragSeq) : mSet (writtenFlags mtu q) = q.mdOpen := mSet_withM _ _

theorem otherFlags_writtenFlags (mtu : Nat) (q : FragSeq) :
    otherFlags (writtenFlags mtu q) =
      if carriesOther q.type q.isFirst (advance mtu q).isSome then otherFlags q.oflags else 0#10 := by
  rw [writtenFlags, otherFlags_withM, otherFlags_fragmentFlags, moreAfter_eq]

theorem carriesOther_eq (t : FragType) (isFirst : Bool) {α : Type} (next : Option α) :
    carriesOther t isFirst next.isSome = if t = .payload then next.isNone else isFirst := by
  cases t <;> cases next <;> rfl

/-- The reserved bit of every fragment is 0 (42_fragmenter.md R178). -/
theorem testBit_headerWord_fragment {mtu : Nat} {q : FragSeq} (hw : q.Wf mtu) {out : Bytes}
    (h : fragmentFrame mtu q = .ok out) : (headerWord out).testBit 31 = false := by
  rw [fragmentFrame_eq hw] at h
  cases h
  exact testBit_headerWord _ _ _ _ _

/-- Settles O42: SPLIT of the fragment gives what BUDGET took. -/
theorem fragmentContents : Obligations.FragmentContents := by
  unfold Obligations.FragmentContents
  intro mtu q hw
  have hb := budget_spec hw
  obtain ⟨out, hout⟩ := exists_fragment hw
  refine ⟨out, _, _, hout, split_fragment hw hout, length_fragment_le hw hout, testBit_headerWord_fragment hw hout,
    rfl, rfl, rfl, fSet_writtenFlags mtu q, mSet_writtenFlags mtu q, ?flags, ?md, ?data, ?order, ?mdLength, ?dataLength,
    ?registers⟩
  case flags =>
    rw [← carriesOther_eq]
    exact otherFlags_writtenFlags mtu q
  case md => rw [← hb.mdOff]; exact hb.mdBytes
  case data => rw [← hb.dataOff]; exact hb.dataBytes
  case order => rw [← hb.mdOff]; exact hb.order
  case mdLength =>
    rw [← length_fragmentPrefix]
    cases ho : q.mdOpen with
    | true => exact hb.fmdLength ho
    | false =>
      have hs := hb.hasMetadata
      rw [ho, Option.isSome_eq_false_iff, Option.isNone_iff_eq_none] at hs
      simp [hs]
  case dataLength =>
    rw [← length_fragmentPrefix]
    exact hb.fdataLength
  case registers =>
    rw [← hb.mdOff, ← hb.dataOff]
    split
    next q' ha => rw [← hb.mdOpen]; exact (eq_of_advance_eq_some hw ha).2
    next ha =>
      rw [advance_eq hw] at ha
      split_ifs at ha with hdone
      exact hdone

/-! ### Progress -/

/-- The bytes that a sequence has still to emit. -/
def FragSeq.remaining (q : FragSeq) : Nat := (q.md.length - q.mdOff) + (q.data.length - q.dataOff)

/-- While more follows the fragment is full, and the floor leaves room for at least one byte of payload in it. -/
theorem budget_nonempty_of_advance {mtu : Nat} {q q' : FragSeq} (hw : q.Wf mtu) (h : advance mtu q = some q') :
    0 < ((budget mtu q).fmd.getD []).length + (budget mtu q).fdata.length := by
  have hb := budget_spec hw
  have hroom := length_fragmentPrefix_le hw
  have hmore : (budget mtu q).mdOpen = true ∨ (budget mtu q).dataOff < q.data.length := by
    have hsome : moreAfter q (budget mtu q) = true := by rw [moreAfter_eq, h]; rfl
    simpa [moreAfter] using hsome
  have hfull := hb.full hmore
  split_ifs at hfull <;> omega

theorem remaining_lt_of_advance {mtu : Nat} {q q' : FragSeq} (hw : q.Wf mtu) (h : advance mtu q = some q') :
    q'.remaining < q.remaining := by
  have hpos := budget_nonempty_of_advance hw h
  have hb := budget_spec hw
  have hmd := hb.mdOff
  have hdata := hb.dataOff
  have hmdLe := hb.mdWithin
  have hdataLe := hb.dataWithin
  obtain ⟨-, rfl⟩ := eq_of_advance_eq_some hw h
  simp only [FragSeq.remaining]
  omega

/-- Settles O43: while more follows every fragment carries at least one byte. -/
theorem fragmenterMakesProgress : Obligations.FragmenterMakesProgress := by
  unfold Obligations.FragmenterMakesProgress
  intro mtu q q' hw h
  have hpos := budget_nonempty_of_advance hw h
  have hb := budget_spec hw
  have hmd := hb.mdOff
  have hdata := hb.dataOff
  refine ⟨wf_of_advance_eq_some hw h, ?_⟩
  obtain ⟨-, rfl⟩ := eq_of_advance_eq_some hw h
  exact ⟨rfl, by dsimp only; omega, by dsimp only; omega, .inl (by dsimp only; omega)⟩

/-! ### The whole sequence -/

/-- Induction over the fragments of a sequence: from the last one back to the first. -/
theorem FragSeq.Wf.sequenceInduction {mtu : Nat} {P : ∀ q : FragSeq, q.Wf mtu → Prop}
    (last : ∀ q (hw : q.Wf mtu), advance mtu q = none → P q hw)
    (more : ∀ q q' (hw : q.Wf mtu) (hw' : q'.Wf mtu), advance mtu q = some q' → P q' hw' → P q hw)
    {q : FragSeq} (hw : q.Wf mtu) : P q hw := by
  induction hn : q.remaining using Nat.strong_induction_on generalizing q with
  | _ n ih =>
    cases ha : advance mtu q with
    | none => exact last q hw ha
    | some q' =>
      have hw' := wf_of_advance_eq_some hw ha
      exact more q q' hw hw' ha (ih _ (hn ▸ remaining_lt_of_advance hw ha) hw' rfl)

/-- The wire frames that a sequence has still to emit. -/
def elementsFrom (mtu : Nat) (q : FragSeq) : List Bytes := sequenceFrom mtu (q.remaining + 1) q

/-- Fuel beyond the remaining bytes does not matter. -/
theorem sequenceFrom_eq_elementsFrom {mtu : Nat} {q : FragSeq} (hw : q.Wf mtu) {n : Nat} (hn : q.remaining < n) :
    sequenceFrom mtu n q = elementsFrom mtu q := by
  unfold elementsFrom
  induction hw using FragSeq.Wf.sequenceInduction generalizing n with
  | last q hw ha =>
    obtain ⟨out, hout⟩ := exists_fragment hw
    obtain ⟨m, rfl⟩ : ∃ m, n = m + 1 := ⟨n - 1, by omega⟩
    rw [sequenceFrom_succ hout, sequenceFrom_succ hout, ha]
    rfl
  | more q q' hw hw' ha ih =>
    obtain ⟨out, hout⟩ := exists_fragment hw
    obtain ⟨m, rfl⟩ : ∃ m, n = m + 1 := ⟨n - 1, by omega⟩
    have hlt := remaining_lt_of_advance hw ha
    rw [sequenceFrom_succ hout, sequenceFrom_succ hout, ha]
    simp only [Option.elim_some]
    rw [ih (by omega), ih (n := q.remaining) hlt]

theorem elementsFrom_of_last {mtu : Nat} {q : FragSeq} {out : Bytes} (hout : fragmentFrame mtu q = .ok out)
    (ha : advance mtu q = none) : elementsFrom mtu q = [out] := by
  rw [elementsFrom, sequenceFrom_succ hout, ha]
  rfl

theorem elementsFrom_of_more {mtu : Nat} {q q' : FragSeq} {out : Bytes} (hw : q.Wf mtu)
    (hout : fragmentFrame mtu q = .ok out) (ha : advance mtu q = some q') :
    elementsFrom mtu q = out :: elementsFrom mtu q' := by
  rw [elementsFrom, sequenceFrom_succ hout, ha, Option.elim_some,
    sequenceFrom_eq_elementsFrom (wf_of_advance_eq_some hw ha) (remaining_lt_of_advance hw ha)]

/-- The sequence of a loaded frame is all that it has still to emit. -/
theorem fragmentsOf_eq_elementsFrom {mtu : Nat} {q : FragSeq} (hw : q.Wf mtu) :
    fragmentsOf mtu q = elementsFrom mtu q :=
  sequenceFrom_eq_elementsFrom hw (by simp only [FragSeq.remaining]; omega)

/-- What SPLIT reads from the next fragment. -/
def parsedFragment (mtu : Nat) (q : FragSeq) : Header × Parts :=
  (⟨q.sid, .frag (fragmentType q), writtenFlags mtu q⟩, ⟨fragmentPrefix q, (budget mtu q).fmd, (budget mtu q).fdata⟩)

/-- `parsed` is what SPLIT reads from the elements that `q` has still to emit (42_fragmenter.md R184). -/
structure ParsedFrom (mtu : Nat) (q : FragSeq) (parsed : List (Header × Parts)) : Prop where
  splits   : (elementsFrom mtu q).map split = parsed.map Codec.ok
  nonempty : 0 < parsed.length
  count    : parsed.length ≤ 1 + q.remaining
  size     : ∀ out ∈ elementsFrom mtu q, out.length ≤ mtu
  element  : ∀ (n : Nat) (r : Header × Parts), parsed[n]? = some r →
    fSet r.1.flags = decide (n + 1 < parsed.length) ∧
    r.1.type = .frag (if n = 0 then fragmentType q else .payload) ∧ r.1.sid = q.sid ∧
    r.2.pre = (if n = 0 then fragmentPrefix q else [])
  metadata : (parsed.map fun r => r.2.md.getD []).flatten = q.md.drop q.mdOff
  data     : (parsed.map fun r => r.2.data).flatten = q.data.drop q.dataOff

theorem exhausted_of_last {mtu : Nat} {q : FragSeq} (hw : q.Wf mtu) (h : advance mtu q = none) :
    (budget mtu q).mdOff = q.md.length ∧ (budget mtu q).dataOff = q.data.length := by
  rw [advance_eq hw] at h
  split_ifs at h with hdone
  exact hdone

/-- A last fragment is the whole rest of the sequence. -/
theorem parsedFrom_of_last {mtu : Nat} {q : FragSeq} (hw : q.Wf mtu) (ha : advance mtu q = none) :
    ParsedFrom mtu q [parsedFragment mtu q] := by
  obtain ⟨out, hout⟩ := exists_fragment hw
  obtain ⟨hmd, hdata⟩ := exhausted_of_last hw ha
  have hel := elementsFrom_of_last hout ha
  refine ⟨?_, Nat.one_pos, by simp, ?_, ?_, ?_, ?_⟩
  · rw [hel, List.map_singleton, List.map_singleton, split_fragment hw hout]
    rfl
  · rw [hel]
    simpa using length_fragment_le hw hout
  · intro n r hr
    obtain ⟨rfl, rfl⟩ : n = 0 ∧ parsedFragment mtu q = r := by
      cases n <;> simp_all
    exact ⟨by simp [parsedFragment, fSet_writtenFlags, ha], rfl, rfl, rfl⟩
  · simpa [parsedFragment] using budget_fmd_of_exhausted hw hmd
  · simpa [parsedFragment] using budget_fdata_of_exhausted hw hdata

/-- A fragment that more follow stands in front of what SPLIT reads from the others. -/
theorem parsedFrom_of_more {mtu : Nat} {q q' : FragSeq} (hw : q.Wf mtu) (ha : advance mtu q = some q')
    {parsed : List (Header × Parts)} (hp : ParsedFrom mtu q' parsed) :
    ParsedFrom mtu q (parsedFragment mtu q :: parsed) := by
  obtain ⟨out, hout⟩ := exists_fragment hw
  have hb := budget_spec hw
  have hel := elementsFrom_of_more hw hout ha
  have hlt := remaining_lt_of_advance hw ha
  have hcount := hp.count
  have hmd := hp.metadata
  have hdata := hp.data
  have helement := hp.element
  obtain ⟨-, hq'⟩ := eq_of_advance_eq_some hw ha
  refine ⟨?_, Nat.succ_pos _, by rw [List.length_cons]; omega, ?_, ?_, ?_, ?_⟩
  · rw [hel, List.map_cons, List.map_cons, hp.splits, split_fragment hw hout]
    rfl
  · rw [hel]
    exact List.forall_mem_cons.mpr ⟨length_fragment_le hw hout, hp.size⟩
  · intro n r hr
    cases n with
    | zero =>
      obtain rfl : parsedFragment mtu q = r := by simpa using hr
      have hpos := hp.nonempty
      exact ⟨by simpa [parsedFragment, fSet_writtenFlags, ha] using hpos, rfl, rfl, rfl⟩
    | succ n =>
      obtain ⟨hF, htype, hsid, hpre⟩ := helement n r hr
      subst hq'
      refine ⟨by simpa using hF, htype.trans ?_, hsid, hpre.trans ?_⟩ <;> cases n <;> rfl
  · rw [hq'] at hmd
    rw [List.map_cons, List.flatten_cons, hmd]
    exact hb.mdBytes.symm
  · rw [hq'] at hdata
    rw [List.map_cons, List.flatten_cons, hdata]
    exact hb.dataBytes.symm

theorem exists_parsedFrom {mtu : Nat} {q : FragSeq} (hw : q.Wf mtu) : ∃ parsed, ParsedFrom mtu q parsed := by
  induction hw using FragSeq.Wf.sequenceInduction with
  | last q hw ha => exact ⟨_, parsedFrom_of_last hw ha⟩
  | more q q' hw hw' ha ih =>
    obtain ⟨parsed, hp⟩ := ih
    exact ⟨_, parsedFrom_of_more hw ha hp⟩

/-- Settles O44: `ParsedFrom` at the first fragment, where both cursors are 0. -/
theorem sequenceProperties : Obligations.SequenceProperties := by
  unfold Obligations.SequenceProperties
  intro mtu q hw hfirst
  obtain ⟨parsed, hp⟩ := exists_parsedFrom hw
  obtain ⟨hmd0, hdata0⟩ := hw.fresh hfirst
  have hcount := hp.count
  have helement := hp.element
  have hmd := hp.metadata
  have hdata := hp.data
  rw [fragmentType, fragmentPrefix, hfirst, if_pos rfl, if_pos rfl] at helement
  rw [FragSeq.remaining, hmd0, hdata0, Nat.sub_zero, Nat.sub_zero, ← Nat.add_assoc] at hcount
  rw [hmd0, List.drop_zero] at hmd
  rw [hdata0, List.drop_zero] at hdata
  rw [fragmentsOf_eq_elementsFrom hw]
  exact ⟨parsed, hp.splits, hp.nonempty, hcount, hp.size, helement, hmd, hdata⟩

/-! ### How many fragments -/

/-- Without metadata a fragment takes as much data as fits after the header and the type's own bytes. -/
theorem fdata_length_of_closed {mtu : Nat} {q : FragSeq} (hw : q.Wf mtu) (hc : q.mdOpen = false) :
    (budget mtu q).fdata.length =
      min (mtu - 6 - (fragmentPrefix q).length) (q.data.length - q.dataOff) := by
  have hb := budget_spec hw
  have hs := hb.hasMetadata
  rw [hc, Option.isSome_eq_false_iff, Option.isNone_iff_eq_none] at hs
  have hlen := hb.fdataLength
  rwa [hc, hs] at hlen

/-- Once the metadata is closed, the sequence ends with this fragment exactly when the rest of the data fits. -/
theorem advance_eq_none_iff_of_closed {mtu : Nat} {q : FragSeq} (hw : q.Wf mtu) (hc : q.mdOpen = false) :
    advance mtu q = none ↔ q.data.length - q.dataOff ≤ mtu - 6 - (fragmentPrefix q).length := by
  have hlen := fdata_length_of_closed hw hc
  have hb := budget_spec hw
  have hoff := hb.dataOff
  have hle := hw.dataOff
  rw [advance_eq hw]
  split_ifs with hdone
  · exact iff_of_true rfl (by omega)
  · have := budget_mdOff_of_closed hw hc
    exact iff_of_false nofun (by omega)

/-- With `c` bytes of room in a fragment, a fragment that is full leaves one fewer for the rest. -/
theorem ceil_sub_add_one {n c : Nat} (hc : 0 < c) (h : c < n) : (n - c + c - 1) / c + 1 = (n + c - 1) / c := by
  rw [← Nat.add_div_right _ hc]
  congr 1
  omega

/-- The fragments after the first of a frame without metadata: the rest of the data in pieces of `MTU - 6`. -/
theorem length_elementsFrom_of_closed {mtu : Nat} {q : FragSeq} (hw : q.Wf mtu) (hc : q.mdOpen = false)
    (hfirst : q.isFirst = false) :
    (elementsFrom mtu q).length = (q.data.length - q.dataOff + (mtu - 6) - 1) / (mtu - 6) := by
  induction hw using FragSeq.Wf.sequenceInduction with
  | last q hw ha =>
    obtain ⟨out, hout⟩ := exists_fragment hw
    have hroom := length_fragmentPrefix_le hw
    have hfits := (advance_eq_none_iff_of_closed hw hc).mp ha
    have hleft : q.dataOff < q.data.length := (hw.pending hfirst).2.resolve_left (by simp [hc])
    rw [length_fragmentPrefix, hfirst, if_neg (by simp)] at hfits
    rw [elementsFrom_of_last hout ha, List.length_singleton]
    exact (Nat.div_eq_of_lt_le (by omega) (by omega)).symm
  | more q q' hw hw' ha ih =>
    obtain ⟨out, hout⟩ := exists_fragment hw
    have hroom := length_fragmentPrefix_le hw
    have hlong := mt (advance_eq_none_iff_of_closed hw hc).mpr (by simp [ha])
    have hlen := fdata_length_of_closed hw hc
    have hoff := (budget_spec hw).dataOff
    have hc' := mdOpen_eq_false_of_advance hw (budget_mdOff_of_closed hw hc) ha
    obtain ⟨-, hq'⟩ := eq_of_advance_eq_some hw ha
    rw [length_fragmentPrefix, hfirst, if_neg (by simp)] at hlong hlen
    have hrest : q'.data.length - q'.dataOff = q.data.length - q.dataOff - (mtu - 6) := by
      rw [hq']
      dsimp only
      omega
    rw [elementsFrom_of_more hw hout ha, List.length_cons, ih hc' (by rw [hq']), hrest]
    exact ceil_sub_add_one (by omega) (by omega)

/-- Settles O45: the first fragment has room for `MTU - 6` less the type's own bytes, every later one for `MTU - 6`. -/
theorem fragmentCount : Obligations.FragmentCount := by
  unfold Obligations.FragmentCount
  intro mtu q hw hfirst hc _
  obtain ⟨out, hout⟩ := exists_fragment hw
  obtain ⟨-, hdata0⟩ := hw.fresh hfirst
  have hiff := advance_eq_none_iff_of_closed hw hc
  have hlen := fdata_length_of_closed hw hc
  have hoff := (budget_spec hw).dataOff
  rw [length_fragmentPrefix, hfirst, if_pos rfl, hw.prefixLength, hdata0, Nat.sub_zero] at hiff hlen
  rw [fragmentsOf_eq_elementsFrom hw]
  cases ha : advance mtu q with
  | none => rw [if_pos (hiff.mp ha), elementsFrom_of_last hout ha, List.length_singleton]
  | some q' =>
    have hlong := mt hiff.mpr (by simp [ha])
    have hw' := wf_of_advance_eq_some hw ha
    have hc' := mdOpen_eq_false_of_advance hw (budget_mdOff_of_closed hw hc) ha
    obtain ⟨-, hq'⟩ := eq_of_advance_eq_some hw ha
    have hrest : q'.data.length - q'.dataOff = q.data.length - (mtu - 6 - q.type.prefixSize) := by
      rw [hq']
      dsimp only
      omega
    rw [if_neg hlong, elementsFrom_of_more hw hout ha, List.length_cons,
      length_elementsFrom_of_closed hw' hc' (by rw [hq']), hrest, Nat.add_comm]

end Sys2Proof.Machine
end

section
/-!
PROOFS. SEND (44_adapter_ops.md R242): when it enqueues, what it refuses or raises, and what it leaves alone.
-/

namespace Sys2Proof.Machine

theorem exec_send {s : State} (h : s.op = .send) (i : Instr) : exec i s = .next (sendFrame (frameOf i) s) := by
  rw [exec_eq, onFrame, h]

theorem sendFrame_of_live {s : State} (hd : s.disposed = false) (f : Frame) :
    sendFrame f s = onCodec (sendCheck s.mtu s.encodeLength f) s fun _ => { s with sq := s.sq ++ [f.bytes] } := by
  rw [sendFrame, unlessDisposed_of_live hd]

/-! ### Which frames are fragmented -/

theorem useC2_of_other {mtu : Nat} {f : Frame} {t : OtherType} (hb : f.body = .other t) : useC2 mtu f = false := by
  rw [useC2, hb]

theorem useC2_of_frag {mtu : Nat} {f : Frame} {t : FragType} {parts : Option Parts} (hb : f.body = .frag t parts) :
    useC2 mtu f = true ↔ 0 < mtu ∧ mtu < f.bytes.length := by
  rw [useC2, hb]
  simp only [Bool.and_eq_true, decide_eq_true_eq]
  rfl

/-- A frame that SEND will write whole: of an opaque type, under no `MTU`, or short enough. -/
theorem useC2_eq_false {mtu : Nat} {i : Instr}
    (h : i.type.fragmentable = false ∨ mtu = 0 ∨ (encode i).length ≤ mtu) : useC2 mtu (frameOf i) = false := by
  rcases frameOf_body_cases i with ⟨t, hb, -⟩ | ⟨t, parts, hb, ht⟩
  · exact useC2_of_other hb
  · rw [ht] at h
    rw [Bool.eq_false_iff, Ne, useC2_of_frag hb, frameOf_bytes]
    rcases h with h | h | h
    · cases h
    all_goals omega

theorem useC2_frameOf {mtu : Nat} {i : Instr} {t : FragType} {parts : Option Parts}
    (hb : (frameOf i).body = .frag t parts) (hm : 0 < mtu) (hl : mtu < (encode i).length) :
    useC2 mtu (frameOf i) = true :=
  (useC2_of_frag hb).mpr ⟨hm, by rwa [frameOf_bytes]⟩

/-! ### The checks, outcome by outcome -/

theorem sendCheck_of_useC2 {mtu : Nat} {enc : Bool} {f : Frame} (h : useC2 mtu f = true) :
    sendCheck mtu enc f = (loadSequence mtu f).bind fun _ => .ok () := if_pos h

theorem sendCheck_of_whole {mtu : Nat} {enc : Bool} {f : Frame} (h : useC2 mtu f = false)
    (hl : enc = true → f.bytes.length ≤ 0xFFFFFF) : sendCheck mtu enc f = .ok () := by
  rw [sendCheck, h, if_neg (by simp), if_neg]
  simp only [Config.maxU24_eq, Bool.and_eq_true, decide_eq_true_eq]
  rintro ⟨he, hlong⟩
  have := hl he
  omega

theorem sendCheck_of_overflow {mtu : Nat} {enc : Bool} {f : Frame} (h : useC2 mtu f = false) (he : enc = true)
    (hl : 0xFFFFFF < f.bytes.length) : sendCheck mtu enc f = .refused .fieldOverflow := by
  rw [sendCheck, h, if_neg (by simp), if_pos]
  simpa [he] using hl

/-- A frame that passes SEND's checks is enqueued. -/
theorem exec_send_of_check {i : Instr} {s : State} (hop : s.op = .send) (hd : s.disposed = false)
    (hc : sendCheck s.mtu s.encodeLength (frameOf i) = .ok ()) :
    exec i s = .next { s with sq := s.sq ++ [encode i] } := by
  rw [exec_send hop, sendFrame_of_live hd, hc, onCodec_ok, frameOf_bytes]

/-- Settles O23: an opaque frame is never fragmented, so only its length is checked. -/
theorem sendEnqueuesNonFragmentable : Obligations.SendEnqueuesNonFragmentable := by
  unfold Obligations.SendEnqueuesNonFragmentable
  intro i s hop hd hnf hl
  exact exec_send_of_check hop hd (sendCheck_of_whole (useC2_eq_false (.inl hnf)) (by rwa [frameOf_bytes]))

/-- Settles O24: a frame that fits is written whole, a longer one is loaded under an `MTU` above the floor. -/
theorem sendEnqueuesFragmentable : Obligations.SendEnqueuesFragmentable := by
  unfold Obligations.SendEnqueuesFragmentable
  intro i s t parts hop hd hb
  refine ⟨fun hfits hl => ?_, fun hm hlong hfloor hwhole => ?_⟩
  · exact exec_send_of_check hop hd (sendCheck_of_whole (useC2_eq_false (.inr hfits)) (by rwa [frameOf_bytes]))
  · obtain ⟨p, rfl⟩ := Option.ne_none_iff_exists'.mp hwhole
    refine exec_send_of_check hop hd ?_
    rw [sendCheck_of_useC2 (useC2_frameOf hb hm hlong), loadSequence_of_whole hb hfloor, Codec.bind_ok]

/-- Settles O25: the checks in the order of 60_exceptions.md R269. -/
theorem sendChecks : Obligations.SendChecks := by
  unfold Obligations.SendChecks
  intro i s hop hd
  rw [exec_send hop, sendFrame_of_live hd, ← frameOf_sid, ← frameOf_bytes]
  refine ⟨fun t parts hb hm hlong => ?_, fun hwhole he hlong => ?_⟩
  · rw [frameOf_bytes] at hlong
    rw [sendCheck_of_useC2 (useC2_frameOf hb hm hlong)]
    refine ⟨fun hfloor => ?_, fun hfloor hcut => ?_⟩
    · rw [loadSequence_of_lt_floor hb hfloor]
      rfl
    · rw [loadSequence_of_cut (hcut ▸ hb) hfloor]
      rfl
  · rw [frameOf_bytes] at hwhole
    rw [sendCheck_of_overflow (useC2_eq_false hwhole) he hlong]
    rfl

/-- SEND's checks refuse with MtuTooSmall only below the floor of a type. -/
theorem sendCheck_ne_mtuTooSmall {mtu : Nat} (hm : softwareMtu mtu) (enc : Bool) (f : Frame) :
    sendCheck mtu enc f ≠ .refused .mtuTooSmall := by
  cases hu : useC2 mtu f with
  | true =>
    rw [sendCheck_of_useC2 hu]
    rcases loadSequence_cases mtu f with ⟨-, e⟩ | ⟨t, parts, hb, hlt, -⟩ | ⟨t, -, -, e⟩ | ⟨t, p, -, -, e⟩
    · rw [e]; simp
    · have hpos := ((useC2_of_frag hb).mp hu).1
      have hle := prefixSize_le t
      rw [mtuFloor_eq] at hlt
      rcases hm with hm | hm <;> omega
    · rw [e]; simp
    · rw [e]; simp
  | false =>
    rw [sendCheck, hu, if_neg (by simp)]
    split_ifs <;> simp

/-- Settles O26: the floor of every type is at most 14. -/
theorem softwareMtuIsEnough : Obligations.SoftwareMtuIsEnough := by
  unfold Obligations.SoftwareMtuIsEnough
  intro i s t hop hm he
  rw [exec_send hop] at he
  cases he
  cases hd : s.disposed with
  | true => simp [sendFrame, unlessDisposed_of_disposed hd]
  | false =>
    have hne := sendCheck_ne_mtuTooSmall hm s.encodeLength (frameOf i)
    rw [sendFrame_of_live hd]
    cases hc : sendCheck s.mtu s.encodeLength (frameOf i) with
    | ok u => simp
    | raised k sid => simp
    | refused r => simpa [hc] using hne

/-- Settles O27: a mark, a teardown, or one more queued frame. -/
theorem sendLeavesTheRest : Obligations.SendLeavesTheRest := by
  unfold Obligations.SendLeavesTheRest
  intro i s t hop he
  rw [exec_send hop] at he
  cases he
  rcases sendFrame_cases (frameOf i) s with ⟨r, e⟩ | e | ⟨-, -, e⟩ <;> rw [e]
  · simp
  · simp [raiseError_malformedFrame]
  · simp

end Sys2Proof.Machine
end

section
/-!
PROOFS. REASSEMBLE (43_reassembler.md sections 1 to 4), case by case of its per-stream state machine, what it leaves
alone, and the independence of interleaved streams (R216).
-/

namespace Sys2Proof.Machine

theorem exec_reassemble {s : State} (h : s.op = .reassemble) (i : Instr) :
    exec i s = .next (reassembleFrame (frameOf i) s) := by
  rw [exec_eq, onFrame, h]

theorem phase_eq_idle_iff {s : State} {sid : StreamId} : s.phase sid = .idle ↔ Table.lookup sid s.reasm = none := by
  unfold State.phase
  cases Table.lookup sid s.reasm <;> simp

theorem phase_eq_collecting_iff {s : State} {sid : StreamId} :
    s.phase sid = .collecting ↔ ∃ e, Table.lookup sid s.reasm = some e := by
  unfold State.phase
  cases Table.lookup sid s.reasm <;> simp

theorem reassembleFrame_of_idle {f : Frame} {s : State} (hd : s.disposed = false)
    (hl : Table.lookup f.sid s.reasm = none) : reassembleFrame f s = reassembleIdle f s := by
  rw [reassembleFrame, unlessDisposed_of_live hd, hl]

theorem reassembleFrame_of_collecting {f : Frame} {s : State} {e : Entry} (hd : s.disposed = false)
    (hl : Table.lookup f.sid s.reasm = some e) : reassembleFrame f s = reassembleCollecting e f s := by
  rw [reassembleFrame, unlessDisposed_of_live hd, hl]

/-! ### An IDLE stream -/

/-- PASS (43_reassembler.md R202, R203). -/
theorem reassembleIdle_of_pass {f : Frame} (h : fSet f.flags = false ∨ ∃ t, f.body = .other t) (s : State) :
    reassembleIdle f s = emitUp f.bytes s := by
  unfold reassembleIdle
  cases hb : f.body with
  | other t => rfl
  | frag t parts =>
    have hF : fSet f.flags = false := h.resolve_right (by simp [hb])
    exact if_neg (by simp [hF])

/-- A fragmentable frame with F set on an IDLE stream is a first fragment (43_reassembler.md R204). -/
theorem reassembleIdle_of_first {f : Frame} {t : FragType} {parts : Option Parts} (hb : f.body = .frag t parts)
    (hF : fSet f.flags = true) (s : State) : reassembleIdle f s = openChain t parts f s := by
  rw [reassembleIdle, hb]
  exact if_pos hF

theorem openChain_of_fits {t : FragType} {p : Parts} {f : Frame} {s : State}
    (h : tooLarge s.maxReassemblySize (openEntry t f.flags p) = false) :
    openChain t (some p) f s = { s with reasm := Table.insert f.sid (openEntry t f.flags p) s.reasm } := by
  simp [openChain, h]

theorem openChain_of_tooLarge {t : FragType} {p : Parts} {f : Frame} {s : State}
    (h : tooLarge s.maxReassemblySize (openEntry t f.flags p) = true) :
    openChain t (some p) f s = raiseError .reassemblyTooLarge (some f.sid) s := by
  simp [openChain, h]

/-! ### A COLLECTING stream -/

/-- VIOLATION (43_reassembler.md R207). -/
theorem reassembleCollecting_of_violation {f : Frame} (h : ∀ parts, f.body ≠ .frag .payload parts) (e : Entry)
    (s : State) : reassembleCollecting e f s = raiseError .reassemblyProtocolViolation (some f.sid) s := by
  rcases reassembleCollecting_cases e f s with ⟨-, he⟩ | ⟨hb, -⟩ | ⟨p, hb, -⟩ | ⟨p, hb, -⟩ | ⟨p, hb, -⟩
  · exact he
  all_goals exact absurd hb (h _)

/-- A PAYLOAD frame on a COLLECTING stream is a continuation (43_reassembler.md R205, R206). -/
theorem reassembleCollecting_of_payload {f : Frame} {parts : Option Parts} (hb : f.body = .frag .payload parts)
    (e : Entry) (s : State) : reassembleCollecting e f s = continueChain e parts f s := by
  rw [reassembleCollecting, hb]

theorem continueChain_of_tooLarge {e : Entry} {p : Parts} {f : Frame} {s : State}
    (h : tooLarge s.maxReassemblySize (appendEntry e p) = true) :
    continueChain e (some p) f s = raiseError .reassemblyTooLarge (some f.sid) s := by
  simp [continueChain, h]

theorem continueChain_of_follows {e : Entry} {p : Parts} {f : Frame} {s : State}
    (h : tooLarge s.maxReassemblySize (appendEntry e p) = false) (hF : fSet f.flags = true) :
    continueChain e (some p) f s = { s with reasm := Table.insert f.sid (appendEntry e p) s.reasm } := by
  simp [continueChain, h, hF]

theorem continueChain_of_terminal {e : Entry} {p : Parts} {f : Frame} {s : State}
    (h : tooLarge s.maxReassemblySize (appendEntry e p) = false) (hF : fSet f.flags = false) :
    continueChain e (some p) f s =
      onCodec (reassembledFrame f.sid (appendEntry e p) f.flags) s fun out =>
        emitUp out { s with reasm := Table.erase f.sid s.reasm } := by
  simp [continueChain, h, hF]

theorem emittedFlags_of_ne_payload {t : FragType} (h : t ≠ .payload) (first terminal : Flags) :
    emittedFlags t first terminal = otherFlags first := by
  cases t with
  | payload => exact absurd rfl h
  | _ => rfl

/-- The flags of a reassembled frame, M included (43_reassembler.md R210 to R212). -/
theorem withM_emittedFlags (t : FragType) (first terminal : Flags) (b : Bool) :
    withM (emittedFlags t first terminal) b =
      ((if t = .payload then terminal else first) &&& 0x27F#10) ||| (if b then 0x100#10 else 0#10) := by
  have h : ∀ fl : Flags, otherFlags fl &&& ~~~flagM = fl &&& 0x27F#10 := by
    unfold otherFlags flagM; decide
  cases t <;> simp only [emittedFlags, withM, h] <;> rfl

/-! ### The state machine, case by case -/

/-- Settles O28 (PASS). -/
theorem idleStreamPassesUp : Obligations.IdleStreamPassesUp := by
  unfold Obligations.IdleStreamPassesUp
  intro i s hop hd hidle hpass
  rw [phase_eq_idle_iff, ← frameOf_sid] at hidle
  have hpass' : fSet (frameOf i).flags = false ∨ ∃ t, (frameOf i).body = .other t := by
    rw [frameOf_flags]
    exact hpass.imp_right body_of_not_fragmentable
  rw [exec_reassemble hop, reassembleFrame_of_idle hd hidle, reassembleIdle_of_pass hpass', frameOf_bytes]
  rfl

/-- Settles O29 (OPEN). -/
theorem firstFragmentOpensChain : Obligations.FirstFragmentOpensChain := by
  unfold Obligations.FirstFragmentOpensChain
  intro i s t p hop hd hidle hb hF hcap hmd
  rw [phase_eq_idle_iff, ← frameOf_sid] at hidle
  rw [← frameOf_flags] at hF
  rw [exec_reassemble hop, reassembleFrame_of_idle hd hidle, reassembleIdle_of_first hb hF,
    openChain_of_fits ((tooLarge_eq_false_iff _ _).mpr ⟨hcap, hmd⟩), frameOf_sid, frameOf_flags]
  rfl

/-- Settles O30 (APPEND). -/
theorem continuationAppends : Obligations.ContinuationAppends := by
  unfold Obligations.ContinuationAppends
  intro i s e p hop hd hl hb hF hfits
  rw [← frameOf_sid] at hl ⊢
  rw [← frameOf_flags] at hF
  rw [exec_reassemble hop, reassembleFrame_of_collecting hd hl, reassembleCollecting_of_payload hb,
    continueChain_of_follows hfits hF]
  rfl

/-- Settles O31 (EMIT): within the limits ENCODE refuses nothing, and its flags are those of R210 to R212. -/
theorem terminalFragmentEmits : Obligations.TerminalFragmentEmits := by
  unfold Obligations.TerminalFragmentEmits
  intro i s e p hop hd hl hpre hb hF hfits
  rw [← frameOf_sid] at hl ⊢
  rw [← frameOf_flags] at hF ⊢
  have hmd := ((tooLarge_eq_false_iff _ _).mp hfits).2
  rw [exec_reassemble hop, reassembleFrame_of_collecting hd hl, reassembleCollecting_of_payload hb,
    continueChain_of_terminal hfits hF,
    reassembledFrame_ok (e := appendEntry e p) hpre hmd, withM_emittedFlags, onCodec_ok]
  cases hM : (afterAppend e p).anyMd <;> rw [show (appendEntry e p).anyMd = _ from hM] <;> rfl

/-- Settles O32 (VIOLATION). -/
theorem nonPayloadMidChainAborts : Obligations.NonPayloadMidChainAborts := by
  unfold Obligations.NonPayloadMidChainAborts
  intro i s hop hd hcoll hne
  obtain ⟨e, hl⟩ := phase_eq_collecting_iff.mp hcoll
  rw [← frameOf_sid] at hl ⊢
  have hviolates : ∀ parts, (frameOf i).body ≠ .frag .payload parts := fun parts hb => hne (type_of_body_frag hb)
  rw [exec_reassemble hop, reassembleFrame_of_collecting hd hl, reassembleCollecting_of_violation hviolates,
    raiseError_reassemblyProtocolViolation]

/-- Settles O33: on both paths the entry with the new bytes is what exceeds the limits. -/
theorem oversizeAborts : Obligations.OversizeAborts := by
  unfold Obligations.OversizeAborts
  intro i s t p hop hd hb m d hcase hbig
  rw [← frameOf_sid, ← frameOf_flags] at hcase
  rw [← frameOf_sid, exec_reassemble hop, ← raiseError_reassemblyTooLarge]
  rcases hcase with ⟨hidle, hF, rfl, rfl⟩ | ⟨e, hl, rfl, rfl, rfl⟩
  · rw [reassembleFrame_of_idle hd (phase_eq_idle_iff.mp hidle), reassembleIdle_of_first hb hF,
      openChain_of_tooLarge ((tooLarge_iff _ _).mpr hbig)]
  · have hbig' : tooLarge s.maxReassemblySize (appendEntry e p) = true := by
      rw [tooLarge_iff]
      simpa [appendEntry] using hbig
    rw [reassembleFrame_of_collecting hd hl, reassembleCollecting_of_payload hb, continueChain_of_tooLarge hbig']

/-- Settles O34: without parts OPEN and APPEND both raise MalformedFrame. -/
theorem cutShortFragmentDisposes : Obligations.CutShortFragmentDisposes := by
  unfold Obligations.CutShortFragmentDisposes
  intro i s t hop hd hb hcase
  rw [← frameOf_sid, ← frameOf_flags] at hcase
  rw [← frameOf_sid, exec_reassemble hop]
  rcases hcase with ⟨hidle, hF⟩ | ⟨hcoll, rfl⟩
  · rw [reassembleFrame_of_idle hd (phase_eq_idle_iff.mp hidle), reassembleIdle_of_first hb hF]
    rfl
  · obtain ⟨e, hl⟩ := phase_eq_collecting_iff.mp hcoll
    rw [reassembleFrame_of_collecting hd hl, reassembleCollecting_of_payload hb]
    rfl

/-! ### What REASSEMBLE can do -/

/-- REASSEMBLE hands one frame up, writes one entry, raises one error or leaves one mark, always for the stream of its
frame. -/
theorem reassembleFrame_forms (f : Frame) (s : State) :
    (∃ out t, (t = s.reasm ∨ t = Table.erase f.sid s.reasm) ∧
      reassembleFrame f s = emitUp out { s with reasm := t }) ∨
    (∃ e, reassembleFrame f s = { s with reasm := Table.insert f.sid e s.reasm }) ∨
    (∃ k, reassembleFrame f s = raiseError k (some f.sid) s ∧ k ≠ .transportFailure) ∨
    ∃ r, reassembleFrame f s = refuse r s := by
  rcases reassembleFrame_cases f s with ⟨-, e⟩ | ⟨-, -, e⟩ | ⟨-, en, -, e⟩ <;> rw [e]
  · exact .inr (.inr (.inr ⟨_, rfl⟩))
  · rcases reassembleIdle_cases f s with ⟨h, -⟩ | ⟨t, -, -, h⟩ | ⟨t, p, -, -, -, h⟩ | ⟨t, p, -, -, -, h⟩ <;> rw [h]
    · exact .inl ⟨_, _, .inl rfl, rfl⟩
    · exact .inr (.inr (.inl ⟨_, rfl, nofun⟩))
    · exact .inr (.inr (.inl ⟨_, rfl, nofun⟩))
    · exact .inr (.inl ⟨_, rfl⟩)
  · rcases reassembleCollecting_cases en f s with ⟨-, h⟩ | ⟨-, h⟩ | ⟨p, -, -, h⟩ | ⟨p, -, -, -, h⟩ |
      ⟨p, -, -, -, ⟨out, -, h⟩ | ⟨r, -, h⟩⟩ <;> rw [h]
    · exact .inr (.inr (.inl ⟨_, rfl, nofun⟩))
    · exact .inr (.inr (.inl ⟨_, rfl, nofun⟩))
    · exact .inr (.inr (.inl ⟨_, rfl, nofun⟩))
    · exact .inr (.inl ⟨_, rfl⟩)
    · exact .inl ⟨_, _, .inr rfl, rfl⟩
    · exact .inr (.inr (.inr ⟨_, rfl⟩))

theorem lookup_raiseError_of_ne {k : ErrorKind} (hk : perConnection k = false) {sid j : StreamId} (hj : j ≠ sid)
    (s : State) : Table.lookup j (raiseError k (some sid) s).reasm = Table.lookup j s.reasm := by
  rcases raiseError_cases k (some sid) s with ⟨h, -⟩ | ⟨-, t, rfl | ⟨j', hj', rfl⟩, e⟩
  · rw [hk] at h; cases h
  · rw [e]
  · rw [e, ← Option.some.inj hj']
    exact Table.lookup_erase_of_ne _ hj

/-- Settles O35: the four forms of an outcome, and of the errors only MalformedFrame disposes. -/
theorem reassembleLeavesTheRest : Obligations.ReassembleLeavesTheRest := by
  unfold Obligations.ReassembleLeavesTheRest
  intro i s t hop he
  rw [exec_reassemble hop] at he
  cases he
  rcases reassembleFrame_forms (frameOf i) s with ⟨out, t, ht, e⟩ | ⟨en, e⟩ | ⟨k, e, hk⟩ | ⟨r, e⟩ <;> rw [e]
  · refine ⟨rfl, rfl, rfl, rfl, rfl, rfl, rfl, .inl ⟨out, rfl, rfl, rfl⟩, .inl ⟨fun j hj => ?_, rfl, rfl, rfl⟩⟩
    rcases ht with rfl | rfl
    · rfl
    · exact Table.lookup_erase_of_ne _ (by rwa [frameOf_sid])
  · refine ⟨rfl, rfl, rfl, rfl, rfl, rfl, rfl, .inr (.inl ⟨rfl, rfl, rfl⟩), .inl ⟨fun j hj => ?_, rfl, rfl, rfl⟩⟩
    exact Table.lookup_insert_of_ne _ _ (by rwa [frameOf_sid])
  · rw [frameOf_sid]
    refine ⟨by simp, by simp, by simp, by simp, by simp, by simp, by simp,
      .inr (.inr (.inl ⟨_, raiseError_errors k _ s, by simp, by simp⟩)), ?_⟩
    rcases raiseError_cases k (some i.head.sid) s with ⟨hp, e⟩ | ⟨hp, t, -, e⟩
    · obtain rfl : k = .malformedFrame := by cases k <;> simp_all [perConnection]
      exact .inr (by rw [e]; exact ⟨rfl, rfl, rfl, rfl, rfl⟩)
    · refine .inl ⟨fun j hj => lookup_raiseError_of_ne hp hj s, ?_⟩
      rw [e]
      exact ⟨rfl, rfl, rfl⟩
  · exact ⟨rfl, rfl, rfl, rfl, rfl, rfl, rfl, .inr (.inr (.inr ⟨r, rfl, rfl, rfl, rfl⟩)),
      .inl ⟨fun j _ => rfl, rfl, rfl, rfl⟩⟩

/-! ### Interleaved streams -/

theorem sidOf_headerBytes (r : Bool) (sid : StreamId) (c : TypeCode) (fl : Flags) (rest : Bytes) :
    sidOf (headerBytes r sid c fl ++ rest) = sid := by
  rw [sidOf, headerWord_headerBytes]
  apply BitVec.eq_of_toNat_eq
  have hs := sid.isLt
  rw [BitVec.toNat_ofNat]
  split <;> omega

theorem sidOf_reassembledFrame {sid : StreamId} {e : Entry} {fl : Flags} {out : Bytes}
    (h : reassembledFrame sid e fl = .ok out) : sidOf out = sid := by
  obtain ⟨u, -, -, -, rfl⟩ := encodeFrame_eq_ok_iff.mp h
  exact sidOf_headerBytes _ _ _ _ _

theorem sidOf_encode (i : Instr) : sidOf (encode i) = i.head.sid := sidOf_headerBytes _ _ _ _ _

/-- What REASSEMBLE of a frame makes of its stream when it does not dispose the block: the stream's entry afterwards,
the frames handed up and the errors raised. -/
structure StreamEffect where
  entry  : Option Entry
  up     : List Bytes
  errors : List ErrorEvent

/-- From `s` to `t` the stream `sid` has the effect `x`, and every other stream's entry is as it was. -/
structure StreamEffect.Relates (x : StreamEffect) (sid : StreamId) (s t : State) : Prop where
  live   : t.disposed = false
  cap    : t.maxReassemblySize = s.maxReassemblySize
  entry  : Table.lookup sid t.reasm = x.entry
  others : ∀ j, j ≠ sid → Table.lookup j t.reasm = Table.lookup j s.reasm
  up     : t.up = s.up ++ x.up
  errors : t.errors = s.errors ++ x.errors

/-- Everything an effect hands up or raises is of the stream. -/
def StreamEffect.Owned (x : StreamEffect) (sid : StreamId) : Prop :=
  (∀ bs ∈ x.up, sidOf bs = sid) ∧ ∀ ev ∈ x.errors, ev.sid = some sid

section
variable {s : State} (hd : s.disposed = false)
include hd

theorem relates_emitUp (sid : StreamId) (bs : Bytes) :
    StreamEffect.Relates ⟨Table.lookup sid s.reasm, [bs], []⟩ sid s (emitUp bs s) :=
  ⟨hd, rfl, rfl, fun _ _ => rfl, rfl, (List.append_nil _).symm⟩

theorem relates_emitUp_erase (sid : StreamId) (bs : Bytes) :
    StreamEffect.Relates ⟨none, [bs], []⟩ sid s (emitUp bs { s with reasm := Table.erase sid s.reasm }) :=
  ⟨hd, rfl, Table.lookup_erase_self _ _, fun _ hj => Table.lookup_erase_of_ne _ hj, rfl, (List.append_nil _).symm⟩

theorem relates_insert (sid : StreamId) (e : Entry) :
    StreamEffect.Relates ⟨some e, [], []⟩ sid s { s with reasm := Table.insert sid e s.reasm } :=
  ⟨hd, rfl, Table.lookup_insert_self _ _ _, fun _ hj => Table.lookup_insert_of_ne _ _ hj, (List.append_nil _).symm,
    (List.append_nil _).symm⟩

theorem relates_violation (sid : StreamId) :
    StreamEffect.Relates ⟨none, [], [⟨.reassemblyProtocolViolation, some sid⟩]⟩ sid s
      (raiseError .reassemblyProtocolViolation (some sid) s) :=
  ⟨hd, rfl, Table.lookup_erase_self _ _, fun _ hj => Table.lookup_erase_of_ne _ hj, (List.append_nil _).symm, rfl⟩

theorem relates_tooLarge (sid : StreamId) :
    StreamEffect.Relates ⟨none, [], [⟨.reassemblyTooLarge, some sid⟩]⟩ sid s
      (raiseError .reassemblyTooLarge (some sid) s) :=
  ⟨hd, rfl, Table.lookup_erase_self _ _, fun _ hj => Table.lookup_erase_of_ne _ hj, (List.append_nil _).symm, rfl⟩

theorem relates_refuse (sid : StreamId) (r : RefuseReason) :
    StreamEffect.Relates ⟨Table.lookup sid s.reasm, [], []⟩ sid s (refuse r s) :=
  ⟨hd, rfl, rfl, fun _ _ => rfl, (List.append_nil _).symm, (List.append_nil _).symm⟩

end

/-- What one frame does to its stream, or that it disposes the block, is settled by the stream's entry and the size cap:
nothing else of the state plays a part (43_reassembler.md R216). -/
def DependsOnEntryOnly (i : Instr) (entry : Option Entry) (cap : Nat) : Prop :=
  (∀ s : State, s.disposed = false → Table.lookup i.head.sid s.reasm = entry → s.maxReassemblySize = cap →
    (reassembleFrame (frameOf i) s).disposed = true) ∨
  ∃ x : StreamEffect, x.Owned i.head.sid ∧
    ∀ s : State, s.disposed = false → Table.lookup i.head.sid s.reasm = entry → s.maxReassemblySize = cap →
      x.Relates i.head.sid s (reassembleFrame (frameOf i) s)

theorem dependsOnEntryOnly_idle (i : Instr) (cap : Nat) : DependsOnEntryOnly i none cap := by
  unfold DependsOnEntryOnly
  rw [← frameOf_sid]
  by_cases hpass : fSet (frameOf i).flags = false ∨ ∃ t, (frameOf i).body = .other t
  · refine .inr ⟨⟨none, [encode i], []⟩, ⟨by simp [sidOf_encode], nofun⟩, fun s hd hl hc => ?_⟩
    have h := relates_emitUp hd (frameOf i).sid (encode i)
    rw [hl] at h
    rwa [reassembleFrame_of_idle hd hl, reassembleIdle_of_pass hpass, frameOf_bytes]
  · rw [not_or, Bool.not_eq_false] at hpass
    obtain ⟨hF, hfrag⟩ := hpass
    rcases frameOf_body_cases i with ⟨t, hb, -⟩ | ⟨t, parts, hb, -⟩
    · exact absurd ⟨t, hb⟩ hfrag
    cases parts with
    | none =>
      refine .inl fun s hd hl _ => ?_
      rw [reassembleFrame_of_idle hd hl, reassembleIdle_of_first hb hF]
      rfl
    | some p =>
      cases hbig : tooLarge cap (openEntry t (frameOf i).flags p) with
      | true =>
        refine .inr ⟨⟨none, [], [⟨.reassemblyTooLarge, some (frameOf i).sid⟩]⟩, ⟨nofun, by simp⟩,
          fun s hd hl hc => ?_⟩
        rw [reassembleFrame_of_idle hd hl, reassembleIdle_of_first hb hF, openChain_of_tooLarge (hc ▸ hbig)]
        exact relates_tooLarge hd _
      | false =>
        refine .inr ⟨⟨some (openEntry t (frameOf i).flags p), [], []⟩, ⟨nofun, nofun⟩, fun s hd hl hc => ?_⟩
        rw [reassembleFrame_of_idle hd hl, reassembleIdle_of_first hb hF, openChain_of_fits (hc ▸ hbig)]
        exact relates_insert hd _ _

theorem dependsOnEntryOnly_collecting (i : Instr) (e : Entry) (cap : Nat) : DependsOnEntryOnly i (some e) cap := by
  unfold DependsOnEntryOnly
  rw [← frameOf_sid]
  by_cases hviolates : ∀ parts, (frameOf i).body ≠ .frag .payload parts
  · refine .inr ⟨⟨none, [], [⟨.reassemblyProtocolViolation, some (frameOf i).sid⟩]⟩, ⟨nofun, by simp⟩,
      fun s hd hl _ => ?_⟩
    rw [reassembleFrame_of_collecting hd hl, reassembleCollecting_of_violation hviolates]
    exact relates_violation hd _
  · obtain ⟨parts, hb⟩ := not_forall_not.mp hviolates
    cases parts with
    | none =>
      refine .inl fun s hd hl _ => ?_
      rw [reassembleFrame_of_collecting hd hl, reassembleCollecting_of_payload hb]
      rfl
    | some p =>
      cases hbig : tooLarge cap (appendEntry e p) with
      | true =>
        refine .inr ⟨⟨none, [], [⟨.reassemblyTooLarge, some (frameOf i).sid⟩]⟩, ⟨nofun, by simp⟩,
          fun s hd hl hc => ?_⟩
        rw [reassembleFrame_of_collecting hd hl, reassembleCollecting_of_payload hb,
          continueChain_of_tooLarge (hc ▸ hbig)]
        exact relates_tooLarge hd _
      | false =>
        cases hF : fSet (frameOf i).flags with
        | true =>
          refine .inr ⟨⟨some (appendEntry e p), [], []⟩, ⟨nofun, nofun⟩, fun s hd hl hc => ?_⟩
          rw [reassembleFrame_of_collecting hd hl, reassembleCollecting_of_payload hb,
            continueChain_of_follows (hc ▸ hbig) hF]
          exact relates_insert hd _ _
        | false =>
          rcases reassembledFrame_cases (frameOf i).sid (appendEntry e p) (frameOf i).flags with ⟨out, ho⟩ | ⟨r, hr⟩
          · refine .inr ⟨⟨none, [out], []⟩, ⟨by simpa using sidOf_reassembledFrame ho, nofun⟩, fun s hd hl hc => ?_⟩
            rw [reassembleFrame_of_collecting hd hl, reassembleCollecting_of_payload hb,
              continueChain_of_terminal (hc ▸ hbig) hF, ho, onCodec_ok]
            exact relates_emitUp_erase hd _ _
          · refine .inr ⟨⟨some e, [], []⟩, ⟨nofun, nofun⟩, fun s hd hl hc => ?_⟩
            have h := relates_refuse hd (frameOf i).sid r
            rw [hl] at h
            rwa [reassembleFrame_of_collecting hd hl, reassembleCollecting_of_payload hb,
              continueChain_of_terminal (hc ▸ hbig) hF, hr, onCodec_refused]

theorem dependsOnEntryOnly (i : Instr) (entry : Option Entry) (cap : Nat) : DependsOnEntryOnly i entry cap := by
  cases entry with
  | none => exact dependsOnEntryOnly_idle i cap
  | some e => exact dependsOnEntryOnly_collecting i e cap

/-- The run `u` of the frames of stream `a` alone agrees with the run `t` of all frames on what concerns `a`. -/
structure SameStream (a : StreamId) (t u : State) : Prop where
  live   : u.disposed = false
  cap    : u.maxReassemblySize = t.maxReassemblySize
  entry  : Table.lookup a t.reasm = Table.lookup a u.reasm
  up     : t.up.filter (fun bs => sidOf bs == a) = u.up
  errors : t.errors.filter (fun ev => ev.sid == some a) = u.errors

theorem SameStream.setOp {a : StreamId} {t u : State} (h : SameStream a t u) (o o' : FrameOp) :
    SameStream a { t with op := o } { u with op := o' } := ⟨h.live, h.cap, h.entry, h.up, h.errors⟩

/-- A frame of another stream keeps the agreement. -/
theorem SameStream.of_other {a sid : StreamId} {s t u : State} {x : StreamEffect} (h : SameStream a s u)
    (hne : a ≠ sid) (hx : x.Relates sid s t) (ho : x.Owned sid) : SameStream a t u := by
  obtain ⟨hup, herr⟩ := ho
  refine ⟨h.live, h.cap.trans hx.cap.symm, (hx.others a hne).trans h.entry, ?_, ?_⟩
  · rw [hx.up, List.filter_append, h.up, List.filter_eq_nil_iff.mpr, List.append_nil]
    intro bs hbs
    simpa [hup bs hbs] using hne.symm
  · rw [hx.errors, List.filter_append, h.errors, List.filter_eq_nil_iff.mpr, List.append_nil]
    intro ev hev
    simpa [herr ev hev] using hne.symm

/-- A frame of the stream, executed in both runs, keeps the agreement. -/
theorem SameStream.of_same {a : StreamId} {s t u v : State} {x : StreamEffect} (h : SameStream a s u)
    (hx : x.Relates a s t) (hy : x.Relates a u v) (ho : x.Owned a) : SameStream a t v := by
  obtain ⟨hup, herr⟩ := ho
  refine ⟨hy.live, (hy.cap.trans h.cap).trans hx.cap.symm, hx.entry.trans hy.entry.symm, ?_, ?_⟩
  · rw [hx.up, hy.up, List.filter_append, h.up, List.filter_eq_self.mpr]
    simpa using hup
  · rw [hx.errors, hy.errors, List.filter_append, h.errors, List.filter_eq_self.mpr]
    simpa using herr

theorem reassembleAll_cons (i : Instr) (rest : List Instr) (s : State) :
    reassembleAll (i :: rest) s = reassembleAll rest (reassembleFrame (frameOf i) { s with op := .reassemble }) := by
  rw [reassembleAll, exec_reassemble rfl]

/-- `DISPOSED` is sticky over a run of frames (10_state.md R35). -/
theorem disposed_of_reassembleAll {frames : List Instr} {s t : State} (hd : s.disposed = true)
    (h : reassembleAll frames s = .next t) : t.disposed = true := by
  induction frames generalizing s with
  | nil => cases h; exact hd
  | cons i rest ih =>
    rw [reassembleAll_cons] at h
    refine ih ?_ h
    rw [reassembleFrame, unlessDisposed_of_disposed (by exact hd)]
    exact hd

theorem live_of_reassembleAll {frames : List Instr} {s t : State} (hd : t.disposed = false)
    (h : reassembleAll frames s = .next t) : s.disposed = false := by
  rw [Bool.eq_false_iff]
  intro htrue
  rw [disposed_of_reassembleAll htrue h] at hd
  cases hd

/-- The agreement of the two runs is kept along all frames (43_reassembler.md R216). -/
theorem sameStream_reassembleAll {a : StreamId} {frames : List Instr} {s t u v : State} (h : SameStream a s u)
    (hd : t.disposed = false) (hs : reassembleAll frames s = .next t)
    (hu : reassembleAll (frames.filter fun i => i.head.sid == a) u = .next v) : SameStream a t v := by
  induction frames generalizing s u with
  | nil => cases hs; cases hu; exact h
  | cons i rest ih =>
    have hsd := live_of_reassembleAll hd hs
    rw [reassembleAll_cons] at hs
    rcases dependsOnEntryOnly i (Table.lookup i.head.sid s.reasm) s.maxReassemblySize with hdisp | ⟨x, ho, hx⟩
    · rw [disposed_of_reassembleAll (hdisp { s with op := .reassemble } hsd rfl rfl) hs] at hd
      cases hd
    have hxs := hx { s with op := .reassemble } hsd rfl rfl
    by_cases ha : i.head.sid = a
    · subst ha
      rw [List.filter_cons_of_pos (by simp), reassembleAll_cons] at hu
      have hxu := hx { u with op := .reassemble } h.live h.entry.symm h.cap
      exact ih ((h.setOp _ _).of_same hxs hxu ho) hs hu
    · rw [List.filter_cons_of_neg (by simpa using ha)] at hu
      exact ih ((h.setOp _ u.op).of_other (Ne.symm ha) hxs ho) hs hu

/-- Settles O36: at the start nothing has been handed up or raised, so the two runs agree on the stream. -/
theorem streamsAreIndependent : Obligations.StreamsAreIndependent := by
  unfold Obligations.StreamsAreIndependent
  intro a frames s t u hup herr ht hd hu
  have hsd := live_of_reassembleAll hd ht
  have h : SameStream a t u := sameStream_reassembleAll ⟨hsd, rfl, rfl, by simp [hup], by simp [herr]⟩ hd ht hu
  exact ⟨h.entry, h.up, h.errors⟩

end Sys2Proof.Machine
end

section
/-!
PROOFS. Construction, one step and the events of the adapter, one by one: which event a step takes, what raising does,
frames whose header cannot be read, RECEIVE, SEND_MANY, the teardown operations, and what a disposed block refuses.
-/

namespace Sys2Proof.Machine

/-! ### Construction -/

theorem construct_eq_some {mtu : Int} {enc : Bool} {max : Option Nat} {s : State}
    (h : State.construct mtu enc max = some s) :
    admitted mtu.toNat enc = true ∧
      s = { State.reset with mtu := mtu.toNat, encodeLength := enc, maxReassemblySize := max.getD 0 } := by
  unfold State.construct at h
  split_ifs at h with ha
  exact ⟨ha, (Option.some.inj h).symm⟩

/-- Settles O12: a construction is `State.reset` with the configuration registers written. -/
theorem constructionValues : Obligations.ConstructionValues := by
  unfold Obligations.ConstructionValues
  refine ⟨fun mtu enc max => ?_, fun mtu enc max s h => ?_, rfl⟩
  · cases enc <;> simp [State.construct, admitted, mtuOfArgument]
  · obtain ⟨-, rfl⟩ := construct_eq_some h
    refine ⟨?_, rfl, by cases max <;> rfl, rfl, rfl, fun _ => rfl, rfl, rfl, rfl⟩
    dsimp only
    split_ifs <;> omega

/-- A live block that holds nothing meets the invariant. -/
theorem inv_of_empty {s : State} (hd : s.disposed = false) (hr : s.reasm = []) (hf : s.fr = none) (hq : s.sq = []) :
    s.Inv := by
  constructor <;> simp [hd, hr, hf, hq]

/-- Settles O13: a constructed block is live and empty. -/
theorem resetMeetsInvariant : Obligations.ResetMeetsInvariant := by
  unfold Obligations.ResetMeetsInvariant
  refine ⟨inv_of_empty rfl rfl rfl rfl, ⟨rfl, rfl, rfl, rfl, rfl, .inl rfl, rfl⟩, fun mtu enc max s h => ?_,
    fun s ⟨hd, hf, hq, hr, _⟩ => inv_of_empty hd hr hf hq⟩
  obtain ⟨ha, rfl⟩ := construct_eq_some h
  refine ⟨inv_of_empty rfl rfl rfl rfl, ?_⟩
  simp [State.Launch, State.reset, State.Legal, State.Admitted, legalMtu, ha]
  omega

/-! ### One step -/

theorem step_of_cons {s : State} {e : Event} {rest : List Event} (hin : s.inbox = e :: rest) (h : held s e = false) :
    step s = runEvent e { s with inbox := rest } := by
  rw [step, hin, takeEvent_cons h]

theorem held_fragStart {s : State} (bs : Bytes) (hf : s.fr = none) : held s (.fragStart bs) = false := by
  simp [held, State.busy, hf]

theorem held_eq_false {e : Event} (h : ∀ bs, e ≠ .fragStart bs) (s : State) : held s e = false := by
  cases e with
  | fragStart bs => exact absurd rfl (h bs)
  | _ => rfl

theorem receive_of_ok {s : State} {buf bs : Bytes} (hd : s.disposed = false) (h : unwrap s.encodeLength buf = .ok bs) :
    receive buf s = runFrame .reassemble bs s := by
  rw [receive, hd, if_neg (by simp), h]

/-- Settles O20: none of the four events is held, and each reads its frame by the decoder. -/
theorem stepRunsDecodedFrame : Obligations.StepRunsDecodedFrame := by
  unfold Obligations.StepRunsDecodedFrame
  intro s bs i rest hdec
  refine ⟨fun hin => ?_, fun hin => ?_, fun hin hf => ?_, fun buf hin hd hu => ?_⟩
  · rw [step_of_cons hin rfl, runEvent, runFrame_ok hdec]
  · rw [step_of_cons hin rfl, runEvent, runFrame_ok hdec]
  · rw [step_of_cons hin (held_fragStart bs hf), runEvent, runFrame_ok hdec]
  · rw [step_of_cons hin rfl, runEvent, receive_of_ok (by exact hd) (by exact hu), runFrame_ok hdec]

/-- Settles O21: no event is taken; a PULL finds neither a sequence nor a queued frame. -/
theorem idleStepDoesNothing : Obligations.IdleStepDoesNothing := by
  unfold Obligations.IdleStepDoesNothing
  refine ⟨fun s hin => ?_, fun s hd hf hq => ?_⟩
  · rw [step, hin, takeEvent]
  · rw [pull, unlessDisposed_of_live hd, hf, hq]

/-- Settles O22: FRAG_START is enabled only while no sequence is in progress. -/
theorem heldFragStartWaits : Obligations.HeldFragStartWaits := by
  unfold Obligations.HeldFragStartWaits
  refine ⟨fun s bs e rest hf hd hin he => ?_, fun i s hop hd hf => ?_⟩
  · have hheld : held s (.fragStart bs) = true := by
      simpa [held, State.busy, hd] using Option.isSome_iff_ne_none.mpr hf
    rw [step, hin, takeEvent, if_pos hheld, takeEvent_cons (held_eq_false he s)]
    rfl
  · have hbusy : s.busy = true := Option.isSome_iff_ne_none.mpr hf
    rw [exec_fragStart hop, fragStartFrame, unlessDisposed_of_live hd, if_pos hbusy]

/-! ### Every event answers a next state -/

/-- The state that taking an event leads to. -/
def eventResult (e : Event) (s : State) : State :=
  match e with
  | .send bs => frameResult .send bs s
  | .sendMany frames => frames.foldl (fun t bs => frameResult .send bs t) s
  | .pull => pull s
  | .receive buf => receiveResult buf s
  | .close => close s
  | .transportFailure => transportFailure s
  | .cancelTx => cancelTx s
  | .cancelRx => cancelRx s
  | .dispose => dispose s
  | .isDisposed => isDisposed s
  | .reassemble bs => frameResult .reassemble bs s
  | .fragStart bs => frameResult .fragStart bs s
  | .fragNext => fragNext s
  | .codec c => callCodec c s

theorem runEvent_eq (e : Event) (s : State) : runEvent e s = .next (eventResult e s) := by
  cases e with
  | send bs | reassemble bs | fragStart bs => exact runFrame_eq _ bs s
  | sendMany frames => exact sendMany_eq frames s
  | receive buf => exact receive_eq buf s
  | _ => rfl

/-- A step changes nothing or is what one event makes of the state without it. -/
theorem step_cases (s : State) :
    step s = .next s ∨ ∃ e rest, step s = .next (eventResult e { s with inbox := rest }) := by
  unfold step
  cases takeEvent s s.inbox with
  | none => exact .inl rfl
  | some r => exact .inr ⟨r.1, r.2, runEvent_eq _ _⟩

/-- Settles O15: every event and every instruction has a next state. -/
theorem stepNeverStops : Obligations.StepNeverStops := by
  unfold Obligations.StepNeverStops
  refine ⟨fun s => ?_, fun i s => ⟨_, exec_eq i s⟩⟩
  rcases step_cases s with h | ⟨e, rest, h⟩
  · exact ⟨_, h⟩
  · exact ⟨_, h⟩

/-! ### Raising -/

/-- Settles O38: the fields that no kind writes, then the effect kind by kind. -/
theorem raisingIsPrecise : Obligations.RaisingIsPrecise := by
  unfold Obligations.RaisingIsPrecise
  intro k sid s t
  refine ⟨raiseError_errors k sid s, raiseError_down k sid s, raiseError_up k sid s, raiseError_refusals k sid s,
    raiseError_inbox k sid s, raiseError_replies k sid s, raiseError_op k sid s, raiseError_mtu k sid s,
    raiseError_encodeLength k sid s, raiseError_maxReassemblySize k sid s, ?perConnection, ?perFrame, ?abort, ?drop⟩
  case perConnection => rintro (rfl | rfl) <;> exact ⟨rfl, rfl, rfl, rfl⟩
  case perFrame =>
    intro hk
    have hp : perConnection k = false := by rcases hk with rfl | rfl | rfl <;> rfl
    rcases raiseError_cases k sid s with ⟨h, -⟩ | ⟨-, tb, -, e⟩
    · rw [hp] at h; cases h
    have ht : t = { s with reasm := tb, errors := s.errors ++ [⟨k, sid⟩] } := e
    refine ⟨by rw [ht], by rw [ht], by rw [ht], fun j hj => ?_⟩
    cases sid with
    | none => rcases hk with rfl | rfl | rfl <;> rfl
    | some i => exact lookup_raiseError_of_ne hp (fun h => hj (congrArg some h.symm)) s
  case abort => rintro (rfl | rfl) j rfl <;> exact Table.lookup_erase_self j s.reasm
  case drop => rintro rfl; rfl

/-! ### Headers that cannot be read -/

theorem runFrame_of_raised {bs : Bytes} {k : ErrorKind} {sid : Option StreamId} (h : decode bs = .raised k sid)
    (op : FrameOp) {s : State} (hd : s.disposed = false) : runFrame op bs s = .next (raiseError k sid s) := by
  rw [runFrame, h]
  exact congrArg _ (unlessDisposed_of_live hd _)

theorem runFrame_of_short {bs : Bytes} (h : bs.length < 6) (op : FrameOp) {s : State} (hd : s.disposed = false) :
    runFrame op bs s = .next (raiseError .malformedFrame none s) :=
  runFrame_of_raised ((decoderRejections bs).1.mpr h) op hd

theorem runFrame_of_unknownType {bs : Bytes} (hl : 6 ≤ bs.length)
    (hc : headerTypeFlags bs / 1024 = 0 ∨ 15 ≤ headerTypeFlags bs / 1024 ∧ headerTypeFlags bs / 1024 ≤ 62)
    (op : FrameOp) {s : State} (hd : s.disposed = false) :
    runFrame op bs s = .next (raiseError .invalidFrameType (some (sidOf bs)) s) :=
  runFrame_of_raised ((decoderRejections bs).2.1.mpr ⟨hl, hc⟩) op hd

/-- A frame event runs its frame once it is taken. -/
theorem step_of_frame_event {s : State} {bs : Bytes} {e : Event} {rest : List Event} (hd : s.disposed = false)
    (hin : s.inbox = e :: rest)
    (he : e = .send bs ∨ e = .reassemble bs ∨ (e = .fragStart bs ∧ s.fr = none) ∨
      ∃ buf, e = .receive buf ∧ unwrap s.encodeLength buf = .ok bs) :
    ∃ op, step s = runFrame op bs { s with inbox := rest } := by
  rcases he with rfl | rfl | ⟨rfl, hf⟩ | ⟨buf, rfl, hu⟩
  · exact ⟨_, step_of_cons hin rfl⟩
  · exact ⟨_, step_of_cons hin rfl⟩
  · exact ⟨_, step_of_cons hin (held_fragStart bs hf)⟩
  · exact ⟨_, (step_of_cons hin rfl).trans (receive_of_ok (by exact hd) (by exact hu))⟩

/-- Settles O37: the decoder's two rejections, raised on a live block. -/
theorem unreadableHeaders : Obligations.UnreadableHeaders := by
  unfold Obligations.UnreadableHeaders
  refine ⟨fun s bs e rest hd hin he => ?_, fun op bs s hd _ => ⟨fun h => runFrame_of_short h op hd,
    fun hl hc => runFrame_of_unknownType hl hc op hd⟩⟩
  obtain ⟨op, hstep⟩ := step_of_frame_event hd hin he
  rw [hstep]
  exact ⟨fun h => runFrame_of_short h op hd, fun hl hc => runFrame_of_unknownType hl hc op hd⟩

/-! ### RECEIVE and SEND_MANY -/

theorem unwrap_prefixed {enc : Bool} (he : enc = true) {bs : Bytes} (h : bs.length ≤ 0xFFFFFF) (trailing : Bytes) :
    unwrap enc (ube 3 bs.length ++ bs ++ trailing) = .ok bs := by
  rw [unwrap, if_pos he]
  exact lenDecode_prefixed h trailing

theorem unwrap_of_short {enc : Bool} (he : enc = true) {buf : Bytes}
    (h : buf.length < 3 ∨ buf.length < 3 + be (buf.take 3)) : unwrap enc buf = .raised .malformedFrame none := by
  rw [unwrap, if_pos he, lenDecode]
  split_ifs with h3
  · rfl
  · exact if_pos (h.resolve_left h3)

/-- Settles O54: UNWRAP is LEN_DECODE or nothing, by `ENCODE_LENGTH`. -/
theorem receiveUnwraps : Obligations.ReceiveUnwraps := by
  unfold Obligations.ReceiveUnwraps
  refine fun s hd => ⟨fun he => ⟨fun bs trailing hl => receive_of_ok hd (unwrap_prefixed he hl trailing),
    fun buf h => ?_⟩, fun he buf => receive_of_ok hd ?_⟩
  · rw [receive, hd, if_neg (by simp), unwrap_of_short he h]
    rfl
  · rw [unwrap, he, if_neg (by simp)]

/-- Settles O55: SEND_MANY is a fold. -/
theorem sendManyIsSendInOrder : Obligations.SendManyIsSendInOrder := by
  unfold Obligations.SendManyIsSendInOrder
  refine ⟨fun s => rfl, fun bs s => ?_, fun xs ys s => ⟨_, sendMany_eq xs s, ?_⟩⟩
  · rw [sendMany_eq, runFrame_eq]
    rfl
  · rw [sendMany_eq, sendMany_eq, List.foldl_append]

/-! ### Teardown and cancellation -/

/-- Settles O56: both are `dispose`. -/
theorem disposeAndClose : Obligations.DisposeAndClose := by
  unfold Obligations.DisposeAndClose
  rintro s e rest (rfl | rfl) hin
  · exact ⟨step_of_cons hin rfl, rfl⟩
  · exact ⟨step_of_cons hin rfl, rfl⟩

/-- Settles O57: the event is never held, and the block is live. -/
theorem cancelTxDropsOutbound : Obligations.CancelTxDropsOutbound := by
  unfold Obligations.CancelTxDropsOutbound
  intro s rest hd hin
  rw [step_of_cons hin rfl, runEvent, cancelTx, unlessDisposed_of_live (by exact hd)]

/-- Settles O58: the event is never held, and the block is live. -/
theorem cancelRxDropsInbound : Obligations.CancelRxDropsInbound := by
  unfold Obligations.CancelRxDropsInbound
  intro s rest hd hin
  rw [step_of_cons hin rfl, runEvent, cancelRx, unlessDisposed_of_live (by exact hd)]

/-- Settles O59: TransportFailure is a per-connection kind, so raising it disposes. -/
theorem transportFailureDisposes : Obligations.TransportFailureDisposes := by
  unfold Obligations.TransportFailureDisposes
  intro s rest hd hin
  rw [step_of_cons hin rfl, runEvent, transportFailure, unlessDisposed_of_live (by exact hd)]
  rfl

/-! ### A disposed block -/

section
variable {s : State} (hd : s.disposed = true)
include hd

theorem onFrame_of_disposed (f : Frame) : onFrame f s = refuse .disposed s := by
  unfold onFrame sendFrame reassembleFrame fragStartFrame
  cases s.op <;> exact unlessDisposed_of_disposed hd _

theorem frameResult_of_disposed (op : FrameOp) (bs : Bytes) :
    ∃ o, frameResult op bs s = refuse .disposed { s with op := o } := by
  unfold frameResult
  cases decode bs with
  | ok i => exact ⟨op, onFrame_of_disposed (s := { s with op := op }) hd _⟩
  | raised k sid => exact ⟨s.op, unlessDisposed_of_disposed hd _⟩
  | refused r => exact ⟨s.op, unlessDisposed_of_disposed hd _⟩

end

/-- SEND_MANY on a disposed block leaves one mark a frame. -/
theorem foldl_send_of_disposed (frames : List Bytes) {s : State} (hd : s.disposed = true) :
    ∃ o, frames.foldl (fun t bs => frameResult .send bs t) s =
      { s with op := o, refusals := s.refusals ++ List.replicate frames.length .disposed } := by
  induction frames generalizing s with
  | nil => exact ⟨s.op, by simp⟩
  | cons bs rest ih =>
    obtain ⟨o, ho⟩ := frameResult_of_disposed hd .send bs
    obtain ⟨o', ho'⟩ := ih (s := refuse .disposed { s with op := o }) hd
    refine ⟨o', ?_⟩
    rw [List.foldl_cons, ho, ho']
    simp [refuse, List.replicate_succ]

/-- Settles O19: each of the three operations checks `DISPOSED` first. -/
theorem disposedRefusesEveryFrame : Obligations.DisposedRefusesEveryFrame := by
  unfold Obligations.DisposedRefusesEveryFrame
  intro i s hd
  rw [exec_eq, onFrame_of_disposed hd]
  rfl

/-- Settles O18: every operation checks `DISPOSED` first. -/
theorem disposedRefusesOperations : Obligations.DisposedRefusesOperations := by
  unfold Obligations.DisposedRefusesOperations
  intro s e hd he
  rw [runEvent_eq]
  have hmark : ∀ t : State, ∃ o, Host.Outcome.next (unlessDisposed s t) =
      (.next { s with op := o, refusals := s.refusals ++ [.disposed] } : Host.Outcome State Fault Refusal) :=
    fun t => ⟨s.op, congrArg _ (unlessDisposed_of_disposed hd t)⟩
  cases e with
  | send bs | reassemble bs | fragStart bs =>
    obtain ⟨o, ho⟩ := frameResult_of_disposed hd _ bs
    exact ⟨o, congrArg _ ho⟩
  | sendMany frames =>
    obtain ⟨o, ho⟩ := foldl_send_of_disposed frames hd
    exact ⟨o, congrArg _ ho⟩
  | receive buf => exact ⟨s.op, congrArg _ (if_pos hd)⟩
  | pull | fragNext | transportFailure | cancelTx | cancelRx => exact hmark _
  | close | dispose | isDisposed | codec c => exact he.elim

/-- A codec call changes no register of the block. -/
theorem callCodec_cases (c : CodecCall) (s : State) :
    ∃ replies refusals, callCodec c s = { s with replies := replies, refusals := refusals } := by
  unfold callCodec
  cases codecReply s.encodeLength c <;> exact ⟨_, _, rfl⟩

/-- Settles O17: what is not refused on a disposed block disposes it again or only answers. -/
theorem disposedIsForGood : Obligations.DisposedIsForGood := by
  unfold Obligations.DisposedIsForGood
  intro s t hi hd hstep
  obtain ⟨hr, hf, hq⟩ := hi.disposed hd
  rcases step_cases s with h | ⟨e, rest, h⟩
  · cases hstep.symm.trans h
    exact ⟨hd, hr, hf, hq, rfl, rfl, rfl⟩
  cases hstep.symm.trans h
  by_cases he : e = .close ∨ e = .dispose ∨ e = .isDisposed ∨ ∃ c, e = .codec c
  · rcases he with rfl | rfl | rfl | ⟨c, rfl⟩
    · exact ⟨rfl, rfl, rfl, rfl, rfl, rfl, rfl⟩
    · exact ⟨rfl, rfl, rfl, rfl, rfl, rfl, rfl⟩
    · exact ⟨hd, hr, hf, hq, rfl, rfl, rfl⟩
    · obtain ⟨replies, refusals, hc⟩ := callCodec_cases c { s with inbox := rest }
      rw [eventResult, hc]
      exact ⟨hd, hr, hf, hq, rfl, rfl, rfl⟩
  · obtain ⟨o, ho⟩ := disposedRefusesOperations { s with inbox := rest } e hd (by cases e <;> simp_all)
    rw [runEvent_eq] at ho
    rw [Host.Outcome.next.inj ho]
    exact ⟨hd, hr, hf, hq, rfl, rfl, rfl⟩

end Sys2Proof.Machine
end

section
/-!
PROOFS. What a frame given to an operation can do, in one inversion lemma, and what follows from it for every event and
step: the invariant of the block, the constant configuration, the queue and outbound contiguity (10_state.md
sections 2 to 6; 20_memory.md section 6).
-/

namespace Sys2Proof.Machine

theorem absurd_of_live {s : State} {P : Prop} (hd : s.disposed = false) (h : s.disposed = true) : P :=
  absurd (hd.symm.trans h) Bool.false_ne_true

/-! ### What a frame can do -/

theorem decode_wf {bs : Bytes} {i : Instr} (h : decode bs = .ok i) : encode i = bs ∧ i.wf = true :=
  encodeOfDecode bs i h

/-- The outcomes of a frame given to an operation, from `s` (44_adapter_ops.md R242; 43_reassembler.md R201;
42_fragmenter.md R171). Only a refusal is possible on a disposed block. -/
inductive FrameStep (s : State) : State → Prop
  | refused (o : FrameOp) (r : RefuseReason) : FrameStep s (refuse r { s with op := o })
  | raised (o : FrameOp) (k : ErrorKind) (sid : Option StreamId) (hd : s.disposed = false) :
    FrameStep s (raiseError k sid { s with op := o })
  | held (o : FrameOp) (hd : s.disposed = false) : FrameStep s { s with op := o }
  | enqueued (o : FrameOp) (bs : Bytes) (hd : s.disposed = false) (hs : Sendable s.mtu s.encodeLength bs) :
    FrameStep s { s with op := o, sq := s.sq ++ [bs] }
  | loaded (o : FrameOp) (q : FragSeq) (hd : s.disposed = false) (hf : s.fr = none) (hw : q.Wf s.mtu) :
    FrameStep s { s with op := o, fr := some q }
  | recorded (o : FrameOp) (sid : StreamId) (e : Entry) (hd : s.disposed = false)
    (hw : (∀ p ∈ s.reasm, p.2.Wf s.maxReassemblySize) → e.Wf s.maxReassemblySize) :
    FrameStep s { s with op := o, reasm := Table.insert sid e s.reasm }
  | handedUp (o : FrameOp) (out : Bytes) (t : Table) (hd : s.disposed = false)
    (ht : t = s.reasm ∨ ∃ sid, t = Table.erase sid s.reasm) :
    FrameStep s (emitUp out { s with op := o, reasm := t })

section
variable {s : State} (hd : s.disposed = false) (o : FrameOp)
include hd

theorem frameStep_sendFrame {bs : Bytes} {i : Instr} (h : decode bs = .ok i) :
    FrameStep s (sendFrame (frameOf i) { s with op := o }) := by
  rcases sendFrame_cases (frameOf i) { s with op := o } with ⟨r, e⟩ | e | ⟨-, hc, e⟩ <;> rw [e]
  · exact .refused o r
  · exact .raised o _ _ hd
  · rw [frameOf_bytes, (decode_wf h).1]
    exact .enqueued o bs hd ⟨_, parseFrame_of_decode h, hc⟩

theorem frameStep_fragStartFrame {i : Instr} (hw : i.wf = true) :
    FrameStep s (fragStartFrame (frameOf i) { s with op := o }) := by
  rcases fragStartFrame_cases (frameOf i) { s with op := o } with ⟨r, e⟩ | ⟨-, e⟩ | e | e | ⟨-, hf, q, hq, e⟩ <;>
    rw [e]
  · exact .refused o r
  · exact .held o hd
  · exact .raised o _ _ hd
  · exact .raised o _ _ hd
  · exact .loaded o q hd hf (of_loadSequence_frameOf hw hq).1

end

/-- OPEN records a well-formed entry (43_reassembler.md R204). -/
theorem wf_openEntry {i : Instr} (hw : i.wf = true) {t : FragType} {p : Parts} {cap : Nat}
    (hb : (frameOf i).body = .frag t (some p)) (hF : fSet (frameOf i).flags = true)
    (hl : tooLarge cap (openEntry t (frameOf i).flags p) = false) : (openEntry t (frameOf i).flags p).Wf cap := by
  obtain ⟨hpre, hmd, -⟩ := body_spell hw hb
  obtain ⟨hM, -⟩ := (metadataWf_iff _ _).mp hmd
  refine ⟨hpre, hl, fun hany => ?_, fun h => h, hF⟩
  have hnone : p.md = none := by
    rw [← Option.isNone_iff_eq_none, ← Option.isSome_eq_false_iff, hM, ← frameOf_flags]
    exact hany
  simp [openEntry, hnone]

/-- APPEND keeps an entry well formed (43_reassembler.md R208). -/
theorem wf_appendEntry {e : Entry} {cap : Nat} (he : e.Wf cap) {p : Parts}
    (hl : tooLarge cap (appendEntry e p) = false) : (appendEntry e p).Wf cap := by
  refine ⟨he.prefixLength, hl, fun hany => ?_, fun h => ?_, he.followed⟩
  · obtain ⟨h1, h2⟩ := Bool.or_eq_false_iff.mp hany
    rw [Option.isSome_eq_false_iff, Option.isNone_iff_eq_none] at h2
    simp [appendEntry, he.metadata h1, h2]
  · exact Bool.or_eq_true_iff.mpr (.inl (he.firstM h))

theorem frameStep_reassembleFrame {i : Instr} (hw : i.wf = true) {s : State} (hd : s.disposed = false)
    (o : FrameOp) : FrameStep s (reassembleFrame (frameOf i) { s with op := o }) := by
  rcases reassembleFrame_cases (frameOf i) { s with op := o } with ⟨-, e⟩ | ⟨-, -, e⟩ | ⟨-, en, hen, e⟩ <;> rw [e]
  · exact .refused o _
  · rcases reassembleIdle_cases (frameOf i) { s with op := o } with ⟨h, -⟩ | ⟨t, -, -, h⟩ | ⟨t, p, -, -, -, h⟩ |
      ⟨t, p, hb, hF, hl, h⟩ <;> rw [h]
    · exact .handedUp o _ _ hd (.inl rfl)
    · exact .raised o _ _ hd
    · exact .raised o _ _ hd
    · exact .recorded o _ _ hd fun _ => wf_openEntry hw hb hF hl
  · rcases reassembleCollecting_cases en (frameOf i) { s with op := o } with ⟨-, h⟩ | ⟨-, h⟩ | ⟨p, -, -, h⟩ |
      ⟨p, -, hl, -, h⟩ | ⟨p, -, -, -, ⟨out, -, h⟩ | ⟨r, -, h⟩⟩ <;> rw [h]
    · exact .raised o _ _ hd
    · exact .raised o _ _ hd
    · exact .raised o _ _ hd
    · exact .recorded o _ _ hd fun hall => wf_appendEntry (hall _ (Table.mem_of_lookup _ hen)) hl
    · exact .handedUp o _ _ hd (.inr ⟨_, rfl⟩)
    · exact .refused o r

/-- A frame given to an operation does one of the things `FrameStep` lists. -/
theorem frameStep_frameResult (op : FrameOp) (bs : Bytes) (s : State) : FrameStep s (frameResult op bs s) := by
  cases hd : s.disposed with
  | true =>
    obtain ⟨o, ho⟩ := frameResult_of_disposed hd op bs
    rw [ho]
    exact .refused o _
  | false =>
    unfold frameResult
    rcases decode_cases bs with ⟨i, h⟩ | h | ⟨sid, h⟩ <;> rw [h] <;> dsimp only
    · have hw := (decode_wf h).2
      cases op with
      | send => exact frameStep_sendFrame hd .send h
      | reassemble => exact frameStep_reassembleFrame hw hd .reassemble
      | fragStart => exact frameStep_fragStartFrame hd .fragStart hw
    · rw [unlessDisposed_of_live hd]
      exact .raised s.op _ _ hd
    · rw [unlessDisposed_of_live hd]
      exact .raised s.op _ _ hd

theorem frameStep_receiveResult (buf : Bytes) (s : State) : FrameStep s (receiveResult buf s) := by
  unfold receiveResult
  cases hd : s.disposed with
  | true => exact .refused s.op _
  | false =>
    rw [if_neg (by simp)]
    rcases unwrap_cases s.encodeLength buf with ⟨bs, h⟩ | h <;> rw [h]
    · exact frameStep_frameResult _ bs s
    · exact .raised s.op _ _ hd

/-- A relation that every frame keeps, and that composes, is kept by SEND_MANY. -/
theorem foldl_send_induction {R : State → State → Prop} (refl : ∀ s, R s s)
    (trans : ∀ {s t u}, R s t → R t u → R s u) (frame : ∀ {s t}, FrameStep s t → R s t) (frames : List Bytes)
    (s : State) : R s (frames.foldl (fun t bs => frameResult .send bs t) s) := by
  induction frames generalizing s with
  | nil => exact refl s
  | cons bs rest ih => exact trans (frame (frameStep_frameResult .send bs s)) (ih _)

/-! ### What PULL and FRAG_NEXT can do -/

/-- The outcomes of the two operations that hand buffers down, from `s` (44_adapter_ops.md R245;
42_fragmenter.md R174). -/
inductive EmitStep (s : State) : State → Prop
  | refused (r : RefuseReason) : EmitStep s (refuse r s)
  | nothing (hd : s.disposed = false) : EmitStep s s
  | raised (k : ErrorKind) (sid : Option StreamId) (hd : s.disposed = false) (hf : s.fr = none) :
    EmitStep s (raiseError k sid s)
  | continued (q : FragSeq) (buf : Bytes) (hd : s.disposed = false) (hf : s.fr = some q)
    (hb : fragmentBuffer s.mtu s.encodeLength q = .ok buf) :
    EmitStep s { s with down := s.down ++ [buf], fr := advance s.mtu q }
  | started (bs : Bytes) (rest : List Bytes) (q : FragSeq) (buf : Bytes) (hd : s.disposed = false) (hf : s.fr = none)
    (hq : s.sq = bs :: rest) (hw : q.Wf s.mtu) :
    EmitStep s { s with down := s.down ++ [buf], sq := rest, fr := advance s.mtu q }
  | wrote (bs : Bytes) (rest : List Bytes) (buf : Bytes) (hd : s.disposed = false) (hf : s.fr = none)
    (hq : s.sq = bs :: rest) : EmitStep s { s with down := s.down ++ [buf], sq := rest }

theorem emitStep_produceFragment {q : FragSeq} {s : State} (hd : s.disposed = false) (hf : s.fr = some q) :
    EmitStep s (produceFragment q s) := by
  rcases produceFragment_cases q s with ⟨buf, hb, e⟩ | ⟨r, -, e⟩ <;> rw [e]
  · exact .continued q buf hd hf hb
  · exact .refused r

theorem emitStep_fragNext (s : State) : EmitStep s (fragNext s) := by
  cases hd : s.disposed with
  | true =>
    rw [fragNext, unlessDisposed_of_disposed hd]
    exact .refused _
  | false =>
    cases hf : s.fr with
    | none =>
      rw [fragNext_of_idle hd hf]
      exact .refused _
    | some q =>
      rw [fragNext_of_busy hd hf]
      exact emitStep_produceFragment hd hf

theorem emitStep_pull (s : State) : EmitStep s (pull s) := by
  rcases pull_cases s with ⟨-, e⟩ | ⟨hd, q, hf, e⟩ | ⟨hd, -, -, e⟩ | ⟨hd, hf, bs, rest, hq, e⟩ <;> rw [e]
  · exact .refused _
  · exact emitStep_produceFragment hd hf
  · exact .nothing hd
  · cases hp : parseFrame bs with
    | raised k sid => exact .raised k sid hd hf
    | refused r => exact .refused r
    | ok f =>
      obtain ⟨i, hi, rfl⟩ := parseFrame_ok hp
      rw [onCodec_ok]
      rcases startQueued_cases (frameOf i) rest s with ⟨-, q, buf, hload, -, e⟩ | ⟨-, buf, -, e⟩ | ⟨r, e⟩ | ⟨-, e⟩ <;>
        rw [e]
      · exact .started bs rest q buf hd hf hq (of_loadSequence_frameOf (decode_wf hi).2 hload).1
      · exact .wrote bs rest buf hd hf hq
      · exact .refused r
      · exact .raised _ _ hd hf

/-! ### The invariant -/

theorem inv_dispose (s : State) : (dispose s).Inv := by
  constructor <;> simp

theorem inv_raiseError {s : State} (h : s.Inv) (k : ErrorKind) (sid : Option StreamId) : (raiseError k sid s).Inv := by
  rcases raiseError_cases k sid s with ⟨-, e⟩ | ⟨-, t, rfl | ⟨j, -, rfl⟩, e⟩ <;> rw [e]
  · obtain ⟨h1, h2, h3, h4, h5⟩ := inv_dispose s
    exact ⟨h1, h2, h3, h4, h5⟩
  · exact ⟨h.disposed, h.table, h.entries, h.sequence, h.queue⟩
  · refine ⟨fun hd => ?_, Table.wf_erase _ _ h.table, fun p hp => h.entries p (Table.mem_erase _ hp), h.sequence,
      h.queue⟩
    obtain ⟨hr, hf, hq⟩ := h.disposed hd
    exact ⟨by rw [hr]; rfl, hf, hq⟩

/-- A frame keeps the invariant, whatever it does. -/
theorem inv_of_frameStep {s t : State} (h : s.Inv) (hs : FrameStep s t) : t.Inv := by
  obtain ⟨h1, h2, h3, h4, h5⟩ := h
  cases hs with
  | refused o r => exact ⟨h1, h2, h3, h4, h5⟩
  | raised o k sid hd => exact inv_raiseError (s := { s with op := o }) ⟨h1, h2, h3, h4, h5⟩ k sid
  | held o hd => exact ⟨h1, h2, h3, h4, h5⟩
  | enqueued o bs hd hs =>
    refine ⟨absurd_of_live hd, h2, h3, h4, fun b hb => ?_⟩
    rcases List.mem_append.mp hb with hb | hb
    · exact h5 b hb
    · rw [List.mem_singleton.mp hb]; exact hs
  | loaded o q hd hf hw =>
    refine ⟨absurd_of_live hd, h2, h3, fun q' hq' => ?_, h5⟩
    cases hq'
    exact hw
  | recorded o sid e hd hw =>
    refine ⟨absurd_of_live hd, Table.wf_insert _ _ _ h2, fun p hp => ?_, h4, h5⟩
    rcases Table.mem_insert _ _ hp with rfl | hp
    · exact hw h3
    · exact h3 p hp
  | handedUp o out t hd ht =>
    rcases ht with rfl | ⟨sid, rfl⟩
    · exact ⟨h1, h2, h3, h4, h5⟩
    · exact ⟨absurd_of_live hd, Table.wf_erase _ _ h2, fun p hp => h3 p (Table.mem_erase _ hp), h4, h5⟩

/-- PULL and FRAG_NEXT keep the invariant. -/
theorem inv_of_emitStep {s t : State} (h : s.Inv) (hs : EmitStep s t) : t.Inv := by
  obtain ⟨h1, h2, h3, h4, h5⟩ := h
  cases hs with
  | refused r => exact ⟨h1, h2, h3, h4, h5⟩
  | nothing hd => exact ⟨h1, h2, h3, h4, h5⟩
  | raised k sid hd hf => exact inv_raiseError ⟨h1, h2, h3, h4, h5⟩ k sid
  | continued q buf hd hf hb => exact ⟨absurd_of_live hd, h2, h3, fun q' hq' => wf_of_advance_eq_some (h4 q hf) hq', h5⟩
  | started bs rest q buf hd hf hq hw =>
    exact ⟨absurd_of_live hd, h2, h3, fun q' hq' => wf_of_advance_eq_some hw hq',
      fun b hb => h5 b (hq ▸ List.mem_cons_of_mem _ hb)⟩
  | wrote bs rest buf hd hf hq =>
    exact ⟨absurd_of_live hd, h2, h3, h4, fun b hb => h5 b (hq ▸ List.mem_cons_of_mem _ hb)⟩

/-- What TRANSPORT_FAILURE, CANCEL_TX, CANCEL_RX and the other operations refused on a disposed block answer. -/
theorem unlessDisposed_cases (s t : State) :
    (s.disposed = true ∧ unlessDisposed s t = refuse .disposed s) ∨ (s.disposed = false ∧ unlessDisposed s t = t) := by
  cases hd : s.disposed with
  | true => exact .inl ⟨rfl, unlessDisposed_of_disposed hd t⟩
  | false => exact .inr ⟨rfl, unlessDisposed_of_live hd t⟩

theorem inv_unlessDisposed {s t : State} (h : s.Inv) (ht : s.disposed = false → t.Inv) : (unlessDisposed s t).Inv := by
  rcases unlessDisposed_cases s t with ⟨-, e⟩ | ⟨hd, e⟩ <;> rw [e]
  · exact ⟨h.disposed, h.table, h.entries, h.sequence, h.queue⟩
  · exact ht hd

/-- Every event keeps the invariant. -/
theorem inv_eventResult {s : State} (h : s.Inv) (e : Event) : (eventResult e s).Inv := by
  cases e with
  | send bs | reassemble bs | fragStart bs => exact inv_of_frameStep h (frameStep_frameResult _ bs s)
  | receive buf => exact inv_of_frameStep h (frameStep_receiveResult buf s)
  | sendMany frames =>
    exact foldl_send_induction (R := fun s t => s.Inv → t.Inv) (fun _ => id) (fun f g => g ∘ f)
      (fun hs hi => inv_of_frameStep hi hs) frames s h
  | pull => exact inv_of_emitStep h (emitStep_pull s)
  | fragNext => exact inv_of_emitStep h (emitStep_fragNext s)
  | close | dispose => exact inv_dispose s
  | isDisposed => exact ⟨h.disposed, h.table, h.entries, h.sequence, h.queue⟩
  | codec c =>
    obtain ⟨replies, refusals, hc⟩ := callCodec_cases c s
    rw [eventResult, hc]
    exact ⟨h.disposed, h.table, h.entries, h.sequence, h.queue⟩
  | transportFailure => exact inv_unlessDisposed h fun _ => inv_raiseError h _ _
  | cancelTx =>
    exact inv_unlessDisposed h fun hd => ⟨absurd_of_live hd, h.table, h.entries, nofun, nofun⟩
  | cancelRx =>
    exact inv_unlessDisposed h fun hd => ⟨absurd_of_live hd, rfl, nofun, h.sequence, h.queue⟩

/-- Settles O14: each outcome of an event keeps each clause of the invariant. -/
theorem stepKeepsInvariant : Obligations.StepKeepsInvariant := by
  unfold Obligations.StepKeepsInvariant
  intro s t h hstep
  rcases step_cases s with e | ⟨ev, rest, e⟩ <;> cases hstep.symm.trans e
  · exact h
  · exact inv_eventResult (s := { s with inbox := rest }) ⟨h.disposed, h.table, h.entries, h.sequence, h.queue⟩ ev

/-! ### The configuration -/

/-- The configuration registers of the two states agree. -/
def SameConfig (s t : State) : Prop :=
  t.mtu = s.mtu ∧ t.encodeLength = s.encodeLength ∧ t.maxReassemblySize = s.maxReassemblySize

theorem sameConfig_raiseError (k : ErrorKind) (sid : Option StreamId) (s : State) :
    SameConfig s (raiseError k sid s) :=
  ⟨raiseError_mtu k sid s, raiseError_encodeLength k sid s, raiseError_maxReassemblySize k sid s⟩

theorem sameConfig_of_frameStep {s t : State} (h : FrameStep s t) : SameConfig s t := by
  cases h with
  | raised o k sid hd => exact sameConfig_raiseError k sid { s with op := o }
  | _ => exact ⟨rfl, rfl, rfl⟩

theorem sameConfig_of_emitStep {s t : State} (h : EmitStep s t) : SameConfig s t := by
  cases h with
  | raised k sid hd hf => exact sameConfig_raiseError k sid s
  | _ => exact ⟨rfl, rfl, rfl⟩

theorem sameConfig_trans {s t u : State} (h : SameConfig s t) (h' : SameConfig t u) : SameConfig s u := by
  obtain ⟨h1, h2, h3⟩ := h
  obtain ⟨h1', h2', h3'⟩ := h'
  exact ⟨h1'.trans h1, h2'.trans h2, h3'.trans h3⟩

theorem sameConfig_unlessDisposed {s t : State} (h : SameConfig s t) : SameConfig s (unlessDisposed s t) := by
  rcases unlessDisposed_cases s t with ⟨-, e⟩ | ⟨-, e⟩ <;> rw [e]
  · exact ⟨rfl, rfl, rfl⟩
  · exact h

theorem sameConfig_eventResult (e : Event) (s : State) : SameConfig s (eventResult e s) := by
  cases e with
  | send bs | reassemble bs | fragStart bs => exact sameConfig_of_frameStep (frameStep_frameResult _ bs s)
  | receive buf => exact sameConfig_of_frameStep (frameStep_receiveResult buf s)
  | sendMany frames =>
    exact foldl_send_induction (R := SameConfig) (fun _ => ⟨rfl, rfl, rfl⟩) sameConfig_trans
      sameConfig_of_frameStep frames s
  | pull => exact sameConfig_of_emitStep (emitStep_pull s)
  | fragNext => exact sameConfig_of_emitStep (emitStep_fragNext s)
  | close | dispose | isDisposed => exact ⟨rfl, rfl, rfl⟩
  | codec c =>
    obtain ⟨replies, refusals, hc⟩ := callCodec_cases c s
    rw [eventResult, hc]
    exact ⟨rfl, rfl, rfl⟩
  | transportFailure => exact sameConfig_unlessDisposed (sameConfig_raiseError _ _ s)
  | cancelTx | cancelRx => exact sameConfig_unlessDisposed ⟨rfl, rfl, rfl⟩

/-- Settles O16: no outcome of an event writes the configuration. -/
theorem configurationIsConstant : Obligations.ConfigurationIsConstant := by
  unfold Obligations.ConfigurationIsConstant
  intro s t hstep
  rcases step_cases s with e | ⟨ev, rest, e⟩ <;> cases hstep.symm.trans e
  · exact ⟨rfl, rfl, rfl⟩
  · exact sameConfig_eventResult ev { s with inbox := rest }

/-! ### The queue and what is handed down -/

/-- Nothing is handed down, and the queue only grows at its end or the block is disposed and outbound work is gone. -/
structure OutboundKept (s t : State) : Prop where
  down   : t.down = s.down
  sticky : s.disposed = true → t.sq = s.sq ∧ t.fr = s.fr ∧ t.disposed = true
  queue  : (∃ more, t.sq = s.sq ++ more) ∨ (t.sq = [] ∧ t.fr = none ∧ t.disposed = true)

/-- Leaving queue, fragmenter, `DISPOSED` and the downstream output alone. -/
theorem outboundKept_of_eq {s t : State} (hdown : t.down = s.down) (hq : t.sq = s.sq) (hf : t.fr = s.fr)
    (hd : t.disposed = s.disposed) : OutboundKept s t :=
  ⟨hdown, fun h => ⟨hq, hf, hd.trans h⟩, .inl ⟨[], by rw [hq, List.append_nil]⟩⟩

theorem outboundKept_trans {s t u : State} (h : OutboundKept s t) (h' : OutboundKept t u) : OutboundKept s u := by
  refine ⟨h'.down.trans h.down, fun hd => ?_, ?_⟩
  · obtain ⟨hq, hf, ht⟩ := h.sticky hd
    obtain ⟨hq', hf', hu⟩ := h'.sticky ht
    exact ⟨hq'.trans hq, hf'.trans hf, hu⟩
  · rcases h.queue with ⟨more, hq⟩ | ⟨hq, hf, ht⟩
    · rcases h'.queue with ⟨more', hq'⟩ | hgone
      · exact .inl ⟨more ++ more', by rw [hq', hq, List.append_assoc]⟩
      · exact .inr hgone
    · obtain ⟨hq', hf', hu⟩ := h'.sticky ht
      exact .inr ⟨hq'.trans hq, hf'.trans hf, hu⟩

theorem outboundKept_raiseError {s : State} (hd : s.disposed = false) (k : ErrorKind) (sid : Option StreamId) :
    OutboundKept s (raiseError k sid s) := by
  rcases raiseError_cases k sid s with ⟨-, e⟩ | ⟨-, t, -, e⟩ <;> rw [e]
  · exact ⟨rfl, absurd_of_live hd, .inr ⟨rfl, rfl, rfl⟩⟩
  · exact outboundKept_of_eq rfl rfl rfl rfl

theorem outboundKept_of_frameStep {s t : State} (h : FrameStep s t) : OutboundKept s t := by
  cases h with
  | raised o k sid hd =>
    exact outboundKept_trans (outboundKept_of_eq (t := { s with op := o }) rfl rfl rfl rfl)
      (outboundKept_raiseError (s := { s with op := o }) hd k sid)
  | enqueued o bs hd hs => exact ⟨rfl, absurd_of_live hd, .inl ⟨[bs], rfl⟩⟩
  | loaded o q hd hf hw => exact ⟨rfl, absurd_of_live hd, .inl ⟨[], (List.append_nil _).symm⟩⟩
  | _ => exact outboundKept_of_eq rfl rfl rfl rfl

theorem outboundKept_unlessDisposed {s t : State} (h : s.disposed = false → OutboundKept s t) :
    OutboundKept s (unlessDisposed s t) := by
  rcases unlessDisposed_cases s t with ⟨-, e⟩ | ⟨hd, e⟩ <;> rw [e]
  · exact outboundKept_of_eq rfl rfl rfl rfl
  · exact h hd

/-- The events that are about outbound work: demand, cancelling it and disposing. -/
def Event.isOutbound : Event → Bool
  | .pull | .fragNext | .cancelTx | .dispose | .close => true
  | _ => false

theorem outboundKept_eventResult {e : Event} (he : e.isOutbound = false) (s : State) :
    OutboundKept s (eventResult e s) := by
  cases e with
  | send bs | reassemble bs | fragStart bs => exact outboundKept_of_frameStep (frameStep_frameResult _ bs s)
  | receive buf => exact outboundKept_of_frameStep (frameStep_receiveResult buf s)
  | sendMany frames =>
    exact foldl_send_induction (R := OutboundKept) (fun _ => outboundKept_of_eq rfl rfl rfl rfl) outboundKept_trans
      outboundKept_of_frameStep frames s
  | isDisposed => exact outboundKept_of_eq rfl rfl rfl rfl
  | codec c =>
    obtain ⟨replies, refusals, hc⟩ := callCodec_cases c s
    rw [eventResult, hc]
    exact outboundKept_of_eq rfl rfl rfl rfl
  | transportFailure => exact outboundKept_unlessDisposed fun hd => outboundKept_raiseError hd _ _
  | cancelRx => exact outboundKept_unlessDisposed fun _ => outboundKept_of_eq rfl rfl rfl rfl
  | pull | fragNext | cancelTx | dispose | close => cases he

theorem cancelTx_cases (s : State) :
    cancelTx s = refuse .disposed s ∨ cancelTx s = { s with fr := none, sq := [] } := by
  rcases unlessDisposed_cases s { s with fr := none, sq := [] } with ⟨-, e⟩ | ⟨-, e⟩
  · exact .inl e
  · exact .inr e

/-- The conclusion of outbound contiguity for an event that keeps outbound work. -/
theorem contiguous_of_outboundKept {e : Event} {s t : State} {q : FragSeq} (h : OutboundKept s t) :
    (t.down ≠ s.down → (e = .pull ∨ e = .fragNext) ∧
      ∃ buf, fragmentBuffer s.mtu s.encodeLength q = .ok buf ∧ t.down = s.down ++ [buf] ∧ t.fr = advance s.mtu q) ∧
    ((∃ more, t.sq = s.sq ++ more) ∨ t.sq = [] ∧ t.fr = none) := by
  refine ⟨fun hne => absurd h.down hne, ?_⟩
  rcases h.queue with hmore | ⟨hq, hf, -⟩
  · exact .inl hmore
  · exact .inr ⟨hq, hf⟩

/-- With a sequence in progress PULL and FRAG_NEXT hand down its next fragment or nothing. -/
theorem contiguous_of_emitStep {e : Event} (he : e = .pull ∨ e = .fragNext) {s t : State} {q : FragSeq}
    (hf : s.fr = some q) (h : EmitStep s t) :
    (t.down ≠ s.down → (e = .pull ∨ e = .fragNext) ∧
      ∃ buf, fragmentBuffer s.mtu s.encodeLength q = .ok buf ∧ t.down = s.down ++ [buf] ∧ t.fr = advance s.mtu q) ∧
    ((∃ more, t.sq = s.sq ++ more) ∨ t.sq = [] ∧ t.fr = none) := by
  cases h with
  | refused r => exact contiguous_of_outboundKept (outboundKept_of_eq rfl rfl rfl rfl)
  | nothing hd => exact contiguous_of_outboundKept (outboundKept_of_eq rfl rfl rfl rfl)
  | continued q' buf hd hf' hb =>
    cases hf.symm.trans hf'
    exact ⟨fun _ => ⟨he, buf, hb, rfl, rfl⟩, .inl ⟨[], (List.append_nil _).symm⟩⟩
  | raised k sid hd hf' | started bs rest q' buf hd hf' hq hw | wrote bs rest buf hd hf' hq =>
    cases hf.symm.trans hf'

/-- Settles O52: only PULL and FRAG_NEXT hand anything down, and CANCEL_TX and disposal empty queue and fragmenter
together. -/
theorem chainsAreContiguous : Obligations.ChainsAreContiguous := by
  unfold Obligations.ChainsAreContiguous
  intro e s t q hf he
  rw [runEvent_eq] at he
  cases he
  cases e with
  | pull => exact contiguous_of_emitStep (.inl rfl) hf (emitStep_pull s)
  | fragNext => exact contiguous_of_emitStep (.inr rfl) hf (emitStep_fragNext s)
  | cancelTx =>
    rcases cancelTx_cases s with h | h <;> rw [eventResult, h]
    · exact contiguous_of_outboundKept (outboundKept_of_eq rfl rfl rfl rfl)
    · exact ⟨fun hne => absurd rfl hne, .inr ⟨rfl, rfl⟩⟩
  | dispose | close => exact ⟨fun hne => absurd rfl hne, .inr ⟨rfl, rfl⟩⟩
  | _ => exact contiguous_of_outboundKept (outboundKept_eventResult (by rfl) s)

theorem fragNext_sq (s : State) : (fragNext s).sq = s.sq := by
  cases hd : s.disposed with
  | true => rw [fragNext, unlessDisposed_of_disposed hd, refuse_sq]
  | false =>
    cases hf : s.fr with
    | none => rw [fragNext_of_idle hd hf, refuse_sq]
    | some q =>
      rw [fragNext_of_busy hd hf]
      rcases produceFragment_cases q s with ⟨buf, -, e⟩ | ⟨r, -, e⟩ <;> rw [e]
      rw [refuse_sq]

/-- Settles O53: only a PULL that starts a frame takes one off the queue, and it takes the oldest. -/
theorem queueIsFifo : Obligations.QueueIsFifo := by
  unfold Obligations.QueueIsFifo
  intro e s t he
  rw [runEvent_eq] at he
  cases he
  have same : ∀ {t : State}, t.sq = s.sq → ∃ more, t.sq = s.sq ++ more := fun h => ⟨[], by rw [h, List.append_nil]⟩
  have kept : ∀ {t : State}, OutboundKept s t →
      (∃ more, t.sq = s.sq ++ more) ∨ (e = .pull ∧ s.fr = none ∧ ∃ bs, s.sq = bs :: t.sq) ∨
        (t.sq = [] ∧ t.fr = none ∧ (e = .cancelTx ∨ t.disposed = true)) := by
    intro t h
    rcases h.queue with hmore | ⟨hq, hf, hd⟩
    · exact .inl hmore
    · exact .inr (.inr ⟨hq, hf, .inr hd⟩)
  cases e with
  | pull =>
    have h := emitStep_pull s
    rw [eventResult]
    generalize pull s = t at h ⊢
    cases h with
    | refused r => exact .inl (same rfl)
    | nothing hd => exact .inl (same rfl)
    | raised k sid hd hf => exact kept (outboundKept_raiseError hd k sid)
    | continued q buf hd hf hb => exact .inl (same rfl)
    | started bs rest q buf hd hf hq hw => exact .inr (.inl ⟨rfl, hf, bs, hq⟩)
    | wrote bs rest buf hd hf hq => exact .inr (.inl ⟨rfl, hf, bs, hq⟩)
  | fragNext => exact .inl (same (fragNext_sq s))
  | cancelTx =>
    rcases cancelTx_cases s with h | h <;> rw [eventResult, h]
    · exact .inl (same rfl)
    · exact .inr (.inr ⟨rfl, rfl, .inl rfl⟩)
  | dispose | close => exact .inr (.inr ⟨rfl, rfl, .inr rfl⟩)
  | _ => exact kept (outboundKept_eventResult (by rfl) s)

end Sys2Proof.Machine
end

section
/-!
PROOFS. PULL (44_adapter_ops.md R245): what it does with the oldest queued frame, that it emits exactly one buffer, and
that PULLs drain the block, by induction over the elements of a sequence and over the queue.
-/

namespace Sys2Proof.Machine

/-! ### One PULL -/

theorem pull_of_busy {s : State} {q : FragSeq} (hd : s.disposed = false) (hf : s.fr = some q) :
    pull s = produceFragment q s := by
  rw [pull, unlessDisposed_of_live hd, hf]

section
variable {s : State} {bs : Bytes} {rest : List Bytes} {i : Instr} (hd : s.disposed = false) (hf : s.fr = none)
  (hq : s.sq = bs :: rest) (hdec : decode bs = .ok i)
include hd hf hq hdec

theorem pull_of_queued : pull s = startQueued (frameOf i) rest s := by
  rw [pull, unlessDisposed_of_live hd, hf, hq]
  dsimp only
  rw [parseFrame_of_decode hdec, onCodec_ok]

/-- A frame that needs no fragmenting is written whole. -/
theorem pull_of_whole (hu : useC2 s.mtu (frameOf i) = false) (hl : s.encodeLength = true → bs.length ≤ 0xFFFFFF) :
    pull s = { s with sq := rest, down := s.down ++ [wireBuffer s.encodeLength bs] } := by
  have hbytes : (frameOf i).bytes = bs := (frameOf_bytes i).trans (decode_wf hdec).1
  rw [pull_of_queued hd hf hq hdec, startQueued, hu, if_neg (by simp), hbytes, wrap_of_le hl]
  rfl

/-- A frame that needs fragmenting is loaded and its first fragment written. -/
theorem pull_of_long (hu : useC2 s.mtu (frameOf i) = true) {q : FragSeq}
    (hload : loadSequence s.mtu (frameOf i) = .ok q) {out : Bytes} (hout : fragmentFrame s.mtu q = .ok out)
    (hl : s.encodeLength = true → out.length ≤ 0xFFFFFF) :
    pull s = { s with sq := rest, fr := advance s.mtu q, down := s.down ++ [wireBuffer s.encodeLength out] } := by
  rw [pull_of_queued hd hf hq hdec, startQueued, if_pos hu, hload, Codec.bind_ok, fragmentBuffer, hout, Codec.bind_ok,
    wrap_of_le hl]
  rfl

end

/-- Settles O51: the frame at the head of the queue decodes to the instruction it encodes. -/
theorem pullStartsTheOldestFrame : Obligations.PullStartsTheOldestFrame := by
  unfold Obligations.PullStartsTheOldestFrame
  intro s i rest hd hf hw hq
  exact ⟨fun hu hl => pull_of_whole hd hf hq (decode_encode hw) hu hl,
    fun q out hu hload hout hl => pull_of_long hd hf hq (decode_encode hw) hu hload hout hl⟩

/-- A frame that passed SEND's checks is short enough to be written whole, or it loads (44_adapter_ops.md R242). -/
theorem sendable_cases {mtu : Nat} {enc : Bool} {bs : Bytes} (h : Sendable mtu enc bs) :
    ∃ i, decode bs = .ok i ∧
      ((useC2 mtu (frameOf i) = false ∧ (enc = true → bs.length ≤ 0xFFFFFF)) ∨
        (useC2 mtu (frameOf i) = true ∧ ∃ q, loadSequence mtu (frameOf i) = .ok q)) := by
  obtain ⟨f, hp, hc⟩ := h
  obtain ⟨i, hdec, rfl⟩ := parseFrame_ok hp
  refine ⟨i, hdec, ?_⟩
  cases hu : useC2 mtu (frameOf i) with
  | true =>
    refine .inr ⟨rfl, ?_⟩
    rw [sendCheck_of_useC2 hu] at hc
    cases hload : loadSequence mtu (frameOf i) with
    | ok q => exact ⟨q, rfl⟩
    | raised k sid => rw [hload] at hc; cases hc
    | refused r => rw [hload] at hc; cases hc
  | false =>
    refine .inl ⟨rfl, fun he => Nat.not_lt.mp fun hlong => ?_⟩
    rw [sendCheck_of_overflow hu he (by rwa [frameOf_bytes, (decode_wf hdec).1])] at hc
    cases hc

/-- PULL of a block in which something is pending hands down one buffer and moves only outbound work. -/
theorem pull_of_pending {s : State} (hi : s.Inv) (ha : s.Admitted) (hd : s.disposed = false)
    (hp : s.fr ≠ none ∨ s.sq ≠ []) :
    ∃ buf fr sq, pull s = { s with fr := fr, sq := sq, down := s.down ++ [buf] } := by
  cases hf : s.fr with
  | some q =>
    have hw := hi.sequence q hf
    obtain ⟨out, hout⟩ := exists_fragment hw
    exact ⟨_, _, s.sq, (pull_of_busy hd hf).trans (produceFragment_eq hw ha hout)⟩
  | none =>
    obtain ⟨bs, rest, hq⟩ := List.exists_cons_of_ne_nil (hp.resolve_left (not_not.mpr hf))
    obtain ⟨i, hdec, ⟨hu, hl⟩ | ⟨hu, q, hload⟩⟩ := sendable_cases (hi.queue bs (hq ▸ List.mem_cons_self))
    · exact ⟨_, s.fr, rest, pull_of_whole hd hf hq hdec hu hl⟩
    · have hw := (of_loadSequence_frameOf (decode_wf hdec).2 hload).1
      obtain ⟨out, hout⟩ := exists_fragment hw
      exact ⟨_, _, rest, pull_of_long hd hf hq hdec hu hload hout
        fun he => (length_fragment_le hw hout).trans (mtu_le_of_admitted ha he)⟩

/-- Settles O49: SEND's checks, kept by the invariant, rule out every refusal and error. -/
theorem pullEmitsExactlyOne : Obligations.PullEmitsExactlyOne := by
  unfold Obligations.PullEmitsExactlyOne
  intro s hi ha hd
  by_cases hp : s.fr ≠ none ∨ s.sq ≠ []
  · obtain ⟨buf, fr, sq, e⟩ := pull_of_pending hi ha hd hp
    rw [e]
    refine ⟨rfl, rfl, rfl, rfl, fun _ => ⟨buf, rfl⟩, fun hf hq => ?_⟩
    exact (hp.elim (absurd hf) (absurd hq))
  · obtain ⟨hf, hq⟩ := not_or.mp hp
    have e := idleStepDoesNothing.2 s hd (not_not.mp hf) (not_not.mp hq)
    rw [e]
    exact ⟨rfl, rfl, rfl, rfl, fun h => absurd h hp, fun _ _ => rfl⟩

/-! ### Runs of one event -/

theorem core_run_succ {s t : State} (h : step s = .next t) (n : Nat) : core.run (n + 1) s = core.run n t := by
  exact (Host.Core.run.eq_2 core s n).trans (by rw [show core.step s = .next t from h])

theorem core_run_add {m : Nat} {s t : State} (h : core.run m s = .next t) (n : Nat) :
    core.run (m + n) s = core.run n t := by
  induction m generalizing s with
  | zero =>
    cases h
    rw [Nat.zero_add]
  | succ m ih =>
    obtain ⟨s', hs⟩ := stepNeverStops.1 s
    rw [core_run_succ hs] at h
    rw [Nat.succ_add, core_run_succ hs, ih h]

/-- `n` events `e` at the head of the inbox lead from `s` to `t`, whatever waits behind them. -/
def RunsTo (e : Event) (n : Nat) (s t : State) : Prop :=
  ∀ rest, core.run n { s with inbox := List.replicate n e ++ rest } = .next { t with inbox := rest }

theorem runsTo_zero (e : Event) (s : State) : RunsTo e 0 s s := fun _ => rfl

theorem runsTo_add {e : Event} {m n : Nat} {s t u : State} (h : RunsTo e m s t) (h' : RunsTo e n t u) :
    RunsTo e (m + n) s u := by
  intro rest
  rw [List.replicate_add, List.append_assoc, core_run_add (h (List.replicate n e ++ rest)), h' rest]

theorem runsTo_one {e : Event} {s t : State} (hheld : ∀ s, held s e = false)
    (h : ∀ rest, runEvent e { s with inbox := rest } = .next { t with inbox := rest }) : RunsTo e 1 s t :=
  fun rest => core_run_succ ((step_of_cons (s := { s with inbox := e :: rest }) rfl (hheld _)).trans (h rest)) 0

/-! ### Emitting a whole sequence -/

/-- With a sequence in progress PULL and FRAG_NEXT both produce its next element. -/
theorem runsTo_one_of_busy {e : Event} (he : e = .pull ∨ e = .fragNext) {s : State} {q : FragSeq}
    (hd : s.disposed = false) (ha : s.Admitted) (hf : s.fr = some q) (hw : q.Wf s.mtu) {out : Bytes}
    (hout : fragmentFrame s.mtu q = .ok out) :
    RunsTo e 1 s { s with down := s.down ++ [wireBuffer s.encodeLength out], fr := advance s.mtu q } := by
  rcases he with rfl | rfl
  · refine runsTo_one (held_eq_false nofun) fun rest => congrArg Host.Outcome.next ?_
    exact (pull_of_busy (s := { s with inbox := rest }) hd hf).trans
      (produceFragment_eq (s := { s with inbox := rest }) hw ha hout)
  · refine runsTo_one (held_eq_false nofun) fun rest => congrArg Host.Outcome.next ?_
    exact (fragNext_of_busy (s := { s with inbox := rest }) hd hf).trans
      (produceFragment_eq (s := { s with inbox := rest }) hw ha hout)

/-- PULLs or FRAG_NEXTs, as many as the sequence has elements, hand them all down and leave the fragmenter idle. -/
theorem runsTo_elementsFrom {e : Event} (he : e = .pull ∨ e = .fragNext) {mtu : Nat} {q : FragSeq} (hw : q.Wf mtu)
    {s : State} (hm : s.mtu = mtu) (hd : s.disposed = false) (ha : s.Admitted) (hf : s.fr = some q) :
    RunsTo e (elementsFrom mtu q).length s
      { s with fr := none, down := s.down ++ (elementsFrom mtu q).map (wireBuffer s.encodeLength) } := by
  induction hw using FragSeq.Wf.sequenceInduction generalizing s with
  | last q hw hlast =>
    subst hm
    obtain ⟨out, hout⟩ := exists_fragment hw
    have h := runsTo_one_of_busy he hd ha hf hw hout
    rw [hlast] at h
    rwa [elementsFrom_of_last hout hlast]
  | more q q' hw hw' hmore ih =>
    subst hm
    obtain ⟨out, hout⟩ := exists_fragment hw
    have h := runsTo_one_of_busy he hd ha hf hw hout
    have h' := ih (s := { s with down := s.down ++ [wireBuffer s.encodeLength out], fr := advance s.mtu q }) rfl hd ha
      hmore
    rw [elementsFrom_of_more hw hout hmore, List.length_cons, Nat.add_comm]
    simpa using runsTo_add h h'

theorem length_elementsFrom_le {mtu : Nat} {q : FragSeq} (hw : q.Wf mtu) :
    (elementsFrom mtu q).length ≤ 1 + q.remaining := by
  obtain ⟨parsed, hp⟩ := exists_parsedFrom hw
  have hlen := congrArg List.length hp.splits
  rw [List.length_map, List.length_map] at hlen
  exact hlen.trans_le hp.count

theorem remaining_le (q : FragSeq) : q.remaining ≤ q.md.length + q.data.length := by
  rw [FragSeq.remaining]
  omega

/-! ### Draining the queue -/

/-- A loaded frame has no more elements than the frame has bytes. -/
theorem length_elementsFrom_le_length {mtu : Nat} {i : Instr} {q : FragSeq} (hwf : i.wf = true)
    (hload : loadSequence mtu (frameOf i) = .ok q) : (elementsFrom mtu q).length ≤ (encode i).length := by
  obtain ⟨hw, t, p, hb, hq⟩ := of_loadSequence_frameOf hwf hload
  obtain ⟨-, -, hspell⟩ := body_spell hwf hb
  have hle := length_elementsFrom_le hw
  have hrem := remaining_le q
  have hmd : q.md.length ≤ (metadataField p.md).length := by
    rw [hq]
    cases p.md <;> simp
  have hdata : q.data.length = p.data.length := by rw [hq]
  rw [length_encode, ← hspell, List.length_append, List.length_append]
  omega

/-- PULLs, at most one a byte, write out the frame that has waited longest. -/
theorem exists_runsTo_of_queued {s : State} {bs : Bytes} {rest : List Bytes} (hd : s.disposed = false)
    (ha : s.Admitted) (hf : s.fr = none) (hq : s.sq = bs :: rest) (hs : Sendable s.mtu s.encodeLength bs) :
    ∃ written : List Bytes, written.length ≤ bs.length ∧
      RunsTo .pull written.length s { s with sq := rest, down := s.down ++ written } := by
  obtain ⟨i, hdec, hcase⟩ := sendable_cases hs
  obtain ⟨hbytes, hwf⟩ := decode_wf hdec
  rcases hcase with ⟨hu, hl⟩ | ⟨hu, q, hload⟩
  · refine ⟨[wireBuffer s.encodeLength bs], ?_, runsTo_one (held_eq_false nofun) fun r => congrArg Host.Outcome.next ?_⟩
    · rw [← hbytes, length_encode, List.length_singleton]
      omega
    · exact pull_of_whole (s := { s with inbox := r }) hd hf hq hdec hu hl
  · obtain ⟨hw, -⟩ := of_loadSequence_frameOf hwf hload
    obtain ⟨out, hout⟩ := exists_fragment hw
    refine ⟨(elementsFrom s.mtu q).map (wireBuffer s.encodeLength), ?_, ?_⟩
    · rw [List.length_map, ← hbytes]
      exact length_elementsFrom_le_length hwf hload
    have hfirst : RunsTo .pull 1 s
        { s with sq := rest, fr := advance s.mtu q, down := s.down ++ [wireBuffer s.encodeLength out] } := by
      refine runsTo_one (held_eq_false nofun) fun r => congrArg Host.Outcome.next ?_
      exact pull_of_long (s := { s with inbox := r }) hd hf hq hdec hu hload hout fun he =>
        (length_fragment_le hw hout).trans (mtu_le_of_admitted ha he)
    cases hadv : advance s.mtu q with
    | none =>
      rw [hadv, ← hf] at hfirst
      rwa [elementsFrom_of_last hout hadv]
    | some q' =>
      have hrest := runsTo_elementsFrom (.inl rfl) (wf_of_advance_eq_some hw hadv)
        (s := { s with sq := rest, fr := advance s.mtu q, down := s.down ++ [wireBuffer s.encodeLength out] }) rfl hd ha
        hadv
      rw [elementsFrom_of_more hw hout hadv, List.map_cons, List.length_cons, List.length_map, Nat.add_comm]
      simpa [hf] using runsTo_add hfirst hrest

/-- PULLs, at most one a queued byte, empty the queue. -/
theorem exists_runsTo_of_queue {queue : List Bytes} {s : State} (hd : s.disposed = false) (ha : s.Admitted)
    (hf : s.fr = none) (hq : s.sq = queue) (hs : ∀ bs ∈ queue, Sendable s.mtu s.encodeLength bs) :
    ∃ written : List Bytes, written.length ≤ (queue.map List.length).sum ∧
      RunsTo .pull written.length s { s with sq := [], down := s.down ++ written } := by
  induction queue generalizing s with
  | nil =>
    have hsame : { s with sq := [], down := s.down ++ [] } = s := by rw [List.append_nil, ← hq]
    exact ⟨[], Nat.zero_le _, hsame.symm ▸ runsTo_zero .pull s⟩
  | cons bs rest ih =>
    obtain ⟨first, hle, hrun⟩ := exists_runsTo_of_queued hd ha hf hq (hs bs List.mem_cons_self)
    obtain ⟨others, hle', hrun'⟩ := ih (s := { s with sq := rest, down := s.down ++ first }) hd ha hf rfl
      fun b hb => hs b (List.mem_cons_of_mem _ hb)
    refine ⟨first ++ others, ?_, ?_⟩
    · rw [List.length_append, List.map_cons, List.sum_cons]
      omega
    · rw [List.length_append, ← List.append_assoc]
      exact runsTo_add hrun hrun'

/-- PULLs write out the sequence in progress, if there is one. -/
theorem exists_runsTo_of_sequence {s : State} (hi : s.Inv) (hd : s.disposed = false) (ha : s.Admitted) :
    ∃ written : List Bytes, written.length + (s.sq.map List.length).sum ≤ s.work ∧
      RunsTo .pull written.length s { s with fr := none, down := s.down ++ written } := by
  cases hf : s.fr with
  | none =>
    refine ⟨[], by simp [State.work, hf], ?_⟩
    rw [List.append_nil, ← hf]
    exact runsTo_zero .pull s
  | some q =>
    have hw := hi.sequence q hf
    refine ⟨(elementsFrom s.mtu q).map (wireBuffer s.encodeLength), ?_, ?_⟩
    · have hle := length_elementsFrom_le hw
      have hrem := remaining_le q
      rw [List.length_map, State.work, hf]
      dsimp only
      omega
    · rw [List.length_map]
      exact runsTo_elementsFrom (.inl rfl) hw rfl hd ha hf

/-- Settles O50: first the sequence in progress, then the queue, frame by frame. -/
theorem pullsDrainTheBlock : Obligations.PullsDrainTheBlock := by
  unfold Obligations.PullsDrainTheBlock
  intro s hi ha hd
  obtain ⟨first, hle, hrun⟩ := exists_runsTo_of_sequence hi hd ha
  obtain ⟨others, hle', hrun'⟩ := exists_runsTo_of_queue (s := { s with fr := none, down := s.down ++ first }) hd ha rfl
    rfl hi.queue
  have htotal := runsTo_add hrun hrun' []
  rw [List.append_nil] at htotal
  refine ⟨_, _, ?_, htotal, ⟨rfl, rfl⟩, hd, rfl, rfl, rfl, rfl, id, first ++ others, List.append_assoc _ _ _,
    List.length_append⟩
  dsimp only at hle'
  omega

end Sys2Proof.Machine
end

section
/-!
PROOFS. The round trip of 43_reassembler.md R220: a receiver's entry holds exactly what the sender's cursors have
passed, so the terminal fragment completes the frame that was loaded.
-/

namespace Sys2Proof.Machine

/-! ### A fragment as the receiver reads it -/

/-- A frame that SPLIT takes apart decodes to an instruction with those parts. -/
theorem decode_of_split {bs : Bytes} {h : Header} {t : FragType} {p : Parts} (hs : split bs = .ok (h, p))
    (ht : h.type = .frag t) :
    ∃ j, decode bs = .ok j ∧ j.head.sid = h.sid ∧ j.head.flags = h.flags ∧ (frameOf j).body = .frag t (some p) := by
  cases hp : parseHeader bs with
  | raised k sid => rw [split, hp] at hs; cases hs
  | refused r => rw [split, hp] at hs; cases hs
  | ok h' =>
    have hdec : decode bs = .ok (instrOf h' bs) := by rw [decode, hp, Codec.bind_ok]
    obtain ⟨hbytes, hw⟩ := decode_wf hdec
    generalize instrOf h' bs = j at hdec hbytes hw
    subst hbytes
    rw [split_eq (parseHeader_encode j)] at hs
    cases hparts : splitAt ⟨j.head.sid, j.type, j.head.flags⟩ (encode j) with
    | raised k sid => rw [hparts] at hs; cases hs
    | refused r => rw [hparts] at hs; cases hs
    | ok p' =>
      rw [hparts] at hs
      cases hs
      refine ⟨j, hdec, rfl, rfl, ?_⟩
      rcases frameOf_body_cases j with ⟨u, -, hu⟩ | ⟨u, parts, hb, hu⟩
      · cases ht.symm.trans hu
      · cases ht.symm.trans hu
        cases parts with
        | none =>
          have hcut := splitAt_cut (h := ⟨j.head.sid, j.type, j.head.flags⟩) ht
            (length_headerBytes j.head.reserved j.head.sid j.type.code j.head.flags) (body_cut hw hb)
          cases hparts.symm.trans hcut
        | some p' =>
          obtain ⟨hpre, hmd, hspell⟩ := body_spell hw hb
          have hwhole := split_whole j.head.reserved j.head.sid (data := p'.data) hpre hmd
          rw [hspell, ← ht] at hwhole
          cases hparts.symm.trans hwhole
          exact hb

/-- What a fragment holds beside its header. -/
def fragmentParts (mtu : Nat) (q : FragSeq) : Parts := ⟨fragmentPrefix q, (budget mtu q).fmd, (budget mtu q).fdata⟩

/-- The frame that the receiver reads from a fragment. -/
structure IsFragment (mtu : Nat) (q : FragSeq) (out : Bytes) (f : Frame) : Prop where
  bytes : f.bytes = out
  sid   : f.sid = q.sid
  flags : f.flags = writtenFlags mtu q
  body  : f.body = .frag (fragmentType q) (some (fragmentParts mtu q))

theorem decode_fragment {mtu : Nat} {q : FragSeq} (hw : q.Wf mtu) {out : Bytes} (h : fragmentFrame mtu q = .ok out) :
    ∃ j, decode out = .ok j ∧ IsFragment mtu q out (frameOf j) := by
  obtain ⟨j, hdec, hsid, hflags, hbody⟩ := decode_of_split (split_fragment hw h) rfl
  exact ⟨j, hdec, (frameOf_bytes j).trans (decode_wf hdec).1, (frameOf_sid j).trans hsid,
    (frameOf_flags j).trans hflags, hbody⟩

theorem unwrap_wireBuffer {enc : Bool} {bs : Bytes} (h : enc = true → bs.length ≤ 0xFFFFFF) :
    unwrap enc (wireBuffer enc bs) = .ok bs := by
  cases enc with
  | false => rfl
  | true => simpa [wireBuffer] using unwrap_prefixed rfl (h rfl) []

/-- RECEIVE of a wrapped frame is REASSEMBLE of it (44_adapter_ops.md R246). -/
theorem step_receive {b : State} (hd : b.disposed = false) {out : Bytes} {j : Instr} (hdec : decode out = .ok j)
    (hl : b.encodeLength = true → out.length ≤ 0xFFFFFF) (rest : List Event) :
    step { b with inbox := .receive (wireBuffer b.encodeLength out) :: rest } =
      .next (reassembleFrame (frameOf j) { b with op := .reassemble, inbox := rest }) := by
  calc step { b with inbox := .receive (wireBuffer b.encodeLength out) :: rest }
    _ = receive (wireBuffer b.encodeLength out) { b with inbox := rest } :=
      step_of_cons (s := { b with inbox := .receive (wireBuffer b.encodeLength out) :: rest }) rfl rfl
    _ = runFrame .reassemble out { b with inbox := rest } := receive_of_ok hd (unwrap_wireBuffer hl)
    _ = exec j { b with op := .reassemble, inbox := rest } := runFrame_ok hdec _ _
    _ = _ := exec_reassemble rfl j

/-! ### Runs that hand up nothing before their end -/

/-- Receiving the buffers `fs` one by one leads from `s` to `t`, and hands nothing up before the last of them. -/
def HandsUpLast (fs : List Bytes) (s t : State) : Prop :=
  (∀ n, n < fs.length → ∃ b, core.run n { s with inbox := fs.map .receive } = .next b ∧ b.up = s.up) ∧
  core.run fs.length { s with inbox := fs.map .receive } = .next { t with inbox := [] }

theorem handsUpLast_singleton {buf : Bytes} {s t : State}
    (h : step { s with inbox := [.receive buf] } = .next { t with inbox := [] }) : HandsUpLast [buf] s t := by
  refine ⟨fun n hn => ?_, core_run_succ h 0⟩
  obtain rfl : n = 0 := by simpa using hn
  exact ⟨_, rfl, rfl⟩

theorem handsUpLast_cons {buf : Bytes} {fs : List Bytes} {s u t : State}
    (h : ∀ rest, step { s with inbox := .receive buf :: rest } = .next { u with inbox := rest }) (hup : u.up = s.up)
    (hl : HandsUpLast fs u t) : HandsUpLast (buf :: fs) s t := by
  obtain ⟨hbefore, hend⟩ := hl
  have hrun := core_run_succ (h (fs.map .receive))
  refine ⟨fun n hn => ?_, (hrun _).trans hend⟩
  cases n with
  | zero => exact ⟨_, rfl, rfl⟩
  | succ n =>
    obtain ⟨b, hb, hbup⟩ := hbefore n (Nat.lt_of_succ_lt_succ hn)
    exact ⟨b, (hrun n).trans hb, hbup.trans hup⟩

/-! ### What the receiver has collected -/

/-- The frame that a sequence was loaded from, as it comes out of a reassembler: F and the reserved bit clear, M iff
`hasMetadata`. -/
def logicalFrame (hasMetadata : Bool) (q : FragSeq) : Bytes :=
  headerBytes false q.sid (WireType.frag q.type).code (withM (otherFlags q.oflags) hasMetadata) ++ q.pre ++
    metadataField (if hasMetadata then some q.md else none) ++ q.data

/-- The entry `e` holds what the cursors of `q` have passed. -/
structure Collected (hasMetadata : Bool) (q : FragSeq) (e : Entry) : Prop where
  type   : e.type = q.type
  pre    : e.pre = q.pre
  flags  : q.type ≠ .payload → otherFlags e.flags = otherFlags q.oflags
  md     : e.mdAcc = q.md.take q.mdOff
  data   : e.dataAcc = q.data.take q.dataOff
  anyMd  : e.anyMd = hasMetadata
  opened : q.mdOpen = true → hasMetadata = true

/-- The sequence after a fragment: the cursors BUDGET gives. -/
def afterBudget (mtu : Nat) (q : FragSeq) : FragSeq :=
  { q with mdOff := (budget mtu q).mdOff, mdOpen := (budget mtu q).mdOpen, dataOff := (budget mtu q).dataOff
           isFirst := false }

theorem take_append_of_drop_eq {xs ys : Bytes} {a : Nat} (h : xs.drop a = ys ++ xs.drop (a + ys.length)) :
    xs.take a ++ ys = xs.take (a + ys.length) := by
  rw [List.take_add, h, List.take_left]

/-- The bytes a cursor has passed, and those of the fragment, are what it passes next. -/
theorem take_append_fragment {mtu : Nat} {q : FragSeq} (hw : q.Wf mtu) :
    q.md.take q.mdOff ++ (budget mtu q).fmd.getD [] = q.md.take (budget mtu q).mdOff ∧
      q.data.take q.dataOff ++ (budget mtu q).fdata = q.data.take (budget mtu q).dataOff := by
  have hb := budget_spec hw
  have hmd := hb.mdBytes
  have hdata := hb.dataBytes
  rw [hb.mdOff] at hmd ⊢
  rw [hb.dataOff] at hdata ⊢
  exact ⟨take_append_of_drop_eq hmd, take_append_of_drop_eq hdata⟩

theorem opened_afterBudget {mtu : Nat} {q : FragSeq} (hw : q.Wf mtu) (h : (afterBudget mtu q).mdOpen = true) :
    q.mdOpen = true := by
  have h : (budget mtu q).mdOpen = true := h
  rw [(budget_spec hw).mdOpen, Bool.and_eq_true] at h
  exact h.1

/-- OPEN of a first fragment collects it (43_reassembler.md R204). -/
theorem collected_openEntry {mtu : Nat} {q : FragSeq} (hw : q.Wf mtu) (hfirst : q.isFirst = true) :
    Collected q.mdOpen (afterBudget mtu q) (openEntry q.type (writtenFlags mtu q) (fragmentParts mtu q)) := by
  obtain ⟨hmd, hdata⟩ := take_append_fragment hw
  obtain ⟨hmd0, hdata0⟩ := hw.fresh hfirst
  rw [hmd0, List.take_zero, List.nil_append] at hmd
  rw [hdata0, List.take_zero, List.nil_append] at hdata
  refine ⟨rfl, ?_, fun hne => ?_, hmd, hdata, mSet_writtenFlags mtu q, opened_afterBudget hw⟩
  · change fragmentPrefix q = q.pre
    rw [fragmentPrefix, if_pos hfirst]
  · have hne : q.type ≠ .payload := hne
    have hcarries : carriesOther q.type q.isFirst (advance mtu q).isSome = true := by
      rw [carriesOther_eq, if_neg hne, hfirst]
    exact (otherFlags_writtenFlags mtu q).trans (if_pos hcarries)

/-- APPEND collects the next fragment (43_reassembler.md R208). -/
theorem collected_appendEntry {mtu : Nat} {q : FragSeq} (hw : q.Wf mtu) {m : Bool} {e : Entry} (hc : Collected m q e) :
    Collected m (afterBudget mtu q) (appendEntry e (fragmentParts mtu q)) := by
  obtain ⟨hmd, hdata⟩ := take_append_fragment hw
  refine ⟨hc.type, hc.pre, hc.flags, ?_, ?_, ?_, fun h => hc.opened (opened_afterBudget hw h)⟩
  · rw [← hc.md] at hmd
    exact hmd
  · rw [← hc.data] at hdata
    exact hdata
  · change (e.anyMd || (budget mtu q).fmd.isSome) = m
    rw [hc.anyMd, (budget_spec hw).hasMetadata]
    cases ho : q.mdOpen with
    | true => rw [hc.opened ho]; rfl
    | false => rw [Bool.or_false]

/-- What has been collected stays within a cap that admits the whole frame. -/
theorem tooLarge_of_collected {mtu cap : Nat} {q : FragSeq} (hw : q.Wf mtu) {m : Bool} {e : Entry}
    (hcap : cap = 0 ∨ q.md.length + q.data.length ≤ cap) (hc : Collected m (afterBudget mtu q) e) :
    tooLarge cap e = false := by
  have hmd : e.mdAcc.length ≤ q.md.length := hc.md ▸ List.length_take_le' _ _
  have hdata : e.dataAcc.length ≤ q.data.length := hc.data ▸ List.length_take_le' _ _
  have hlen := hw.metadataLength
  rw [tooLarge_eq_false_iff]
  simp only [Config.maxU24_eq] at hlen
  omega

/-- EMIT at the terminal fragment gives the frame that was loaded (43_reassembler.md R209 to R212). -/
theorem reassembledFrame_of_collected {mtu : Nat} {q : FragSeq} (hw : q.Wf mtu) (ha : advance mtu q = none) {m : Bool}
    {e : Entry} (hc : Collected m (afterBudget mtu q) e) :
    reassembledFrame q.sid e (writtenFlags mtu q) = .ok (logicalFrame m q) := by
  obtain ⟨hmdAll, hdataAll⟩ := exhausted_of_last hw ha
  have htype : e.type = q.type := hc.type
  have hpre : e.pre = q.pre := hc.pre
  have hmd : e.mdAcc = q.md := hc.md.trans (by rw [afterBudget, hmdAll, List.take_length])
  have hdata : e.dataAcc = q.data := hc.data.trans (by rw [afterBudget, hdataAll, List.take_length])
  have hflags : emittedFlags q.type e.flags (writtenFlags mtu q) = otherFlags q.oflags := by
    by_cases hp : q.type = .payload
    · rw [hp, emittedFlags, otherFlags_writtenFlags, ha, hp]
      rfl
    · exact (emittedFlags_of_ne_payload hp _ _).trans (hc.flags hp)
  rw [reassembledFrame_ok (by rw [hpre, htype, hw.prefixLength]) (by rw [hmd]; exact hw.metadataLength), htype, hflags,
    hc.anyMd, hpre, hmd, hdata]
  rfl

/-- A frame that is one fragment is written as it was loaded (42_fragmenter.md R180). -/
theorem fragment_eq_logicalFrame {mtu : Nat} {q : FragSeq} (hw : q.Wf mtu) (hfirst : q.isFirst = true)
    (ha : advance mtu q = none) {out : Bytes} (hout : fragmentFrame mtu q = .ok out) :
    out = logicalFrame q.mdOpen q := by
  obtain ⟨hmdAll, hdataAll⟩ := exhausted_of_last hw ha
  obtain ⟨hmd0, hdata0⟩ := hw.fresh hfirst
  have hfmd : (budget mtu q).fmd = if q.mdOpen then some q.md else none := by
    refine budget_fmd_eq hw (by cases q.mdOpen <;> rfl) ?_
    rw [budget_fmd_of_exhausted hw hmdAll, hmd0, List.drop_zero]
    cases ho : q.mdOpen with
    | true => rfl
    | false => exact List.length_eq_zero_iff.mp (by rw [← hw.closed ho, hmd0])
  have hflags : writtenFlags mtu q = withM (otherFlags q.oflags) q.mdOpen := by
    rw [writtenFlags, moreAfter_eq, ha, hfirst]
    cases q.type <;> simp [fragmentFlags, carriesOther]
  rw [fragmentFrame_eq hw, hflags, hfmd, budget_fdata_of_exhausted hw hdataAll, hdata0, List.drop_zero, fragmentType,
    fragmentPrefix, if_pos hfirst, if_pos hfirst] at hout
  cases hout
  simp [logicalFrame]

/-! ### The receiver -/

/-- The receiver while the stream is COLLECTING with entry `e`, before the next buffer. -/
def collectingState (b : State) (sid : StreamId) (e : Entry) : State :=
  { b with op := .reassemble, reasm := Table.insert sid e b.reasm }

/-- The receiver after it has handed up `out`. -/
def handedUpState (b : State) (out : Bytes) : State := { b with op := .reassemble, up := b.up ++ [out] }

section
variable {mtu : Nat} {q : FragSeq} (hw : q.Wf mtu) {b : State} (hd : b.disposed = false)
  (hmtu : b.encodeLength = true → mtu ≤ 0xFFFFFF)
  (hcap : b.maxReassemblySize = 0 ∨ q.md.length + q.data.length ≤ b.maxReassemblySize)
  {out : Bytes} (hout : fragmentFrame mtu q = .ok out)
include hw hd hmtu hcap hout

/-- A continuation that more follow is appended. -/
theorem step_receive_continuation {e : Entry} {m : Bool} (hc : Collected m q e) (hfirst : q.isFirst = false)
    {q' : FragSeq} (ha : advance mtu q = some q') (rest : List Event) :
    step { collectingState b q.sid e with inbox := .receive (wireBuffer b.encodeLength out) :: rest } =
      .next { collectingState b q.sid (appendEntry e (fragmentParts mtu q)) with inbox := rest } := by
  obtain ⟨j, hdec, hj⟩ := decode_fragment hw hout
  have hl : Table.lookup (frameOf j).sid (collectingState b q.sid e).reasm = some e :=
    hj.sid ▸ Table.lookup_insert_self _ _ _
  have hbody : (frameOf j).body = .frag .payload (some (fragmentParts mtu q)) := by
    rw [hj.body, fragmentType, hfirst]
    rfl
  have hF : fSet (frameOf j).flags = true := by rw [hj.flags, fSet_writtenFlags, ha]; rfl
  have hfits := tooLarge_of_collected hw hcap (collected_appendEntry hw hc)
  refine (step_receive (b := collectingState b q.sid e) hd hdec fun he =>
    (length_fragment_le hw hout).trans (hmtu he)) _ |>.trans (congrArg Host.Outcome.next ?_)
  rw [reassembleFrame_of_collecting (by exact hd) (by exact hl), reassembleCollecting_of_payload hbody,
    continueChain_of_follows (by exact hfits) hF, hj.sid]
  simp only [collectingState, Table.insert_insert]

/-- The terminal fragment completes the frame and leaves the table as it was before the chain. -/
theorem step_receive_terminal {e : Entry} {m : Bool} (hc : Collected m q e) (hfirst : q.isFirst = false)
    (hidle : Table.lookup q.sid b.reasm = none) (ha : advance mtu q = none) :
    step { collectingState b q.sid e with inbox := [.receive (wireBuffer b.encodeLength out)] } =
      .next { handedUpState b (logicalFrame m q) with inbox := [] } := by
  obtain ⟨j, hdec, hj⟩ := decode_fragment hw hout
  have hl : Table.lookup (frameOf j).sid (collectingState b q.sid e).reasm = some e :=
    hj.sid ▸ Table.lookup_insert_self _ _ _
  have hbody : (frameOf j).body = .frag .payload (some (fragmentParts mtu q)) := by
    rw [hj.body, fragmentType, hfirst]
    rfl
  have hF : fSet (frameOf j).flags = false := by rw [hj.flags, fSet_writtenFlags, ha]; rfl
  have hc' := collected_appendEntry hw hc
  have hfits := tooLarge_of_collected hw hcap hc'
  refine (step_receive (b := collectingState b q.sid e) hd hdec fun he =>
    (length_fragment_le hw hout).trans (hmtu he)) _ |>.trans (congrArg Host.Outcome.next ?_)
  rw [reassembleFrame_of_collecting (by exact hd) (by exact hl), reassembleCollecting_of_payload hbody,
    continueChain_of_terminal (by exact hfits) hF, hj.sid, hj.flags, reassembledFrame_of_collected hw ha hc',
    onCodec_ok]
  simp only [collectingState, Table.erase_insert_of_lookup_none _ _ hidle]
  rfl

/-- A first fragment that more follow opens the chain. -/
theorem step_receive_first (hidle : Table.lookup q.sid b.reasm = none) (hfirst : q.isFirst = true)
    {q' : FragSeq} (ha : advance mtu q = some q') (rest : List Event) :
    step { b with inbox := .receive (wireBuffer b.encodeLength out) :: rest } =
      .next { collectingState b q.sid (openEntry q.type (writtenFlags mtu q) (fragmentParts mtu q)) with
        inbox := rest } := by
  obtain ⟨j, hdec, hj⟩ := decode_fragment hw hout
  have hbody : (frameOf j).body = .frag q.type (some (fragmentParts mtu q)) := by
    rw [hj.body, fragmentType, hfirst]
    rfl
  have hF : fSet (frameOf j).flags = true := by rw [hj.flags, fSet_writtenFlags, ha]; rfl
  have hfits := tooLarge_of_collected hw hcap (collected_openEntry hw hfirst)
  rw [← hj.flags] at hfits
  refine (step_receive hd hdec fun he => (length_fragment_le hw hout).trans (hmtu he)) _ |>.trans
    (congrArg Host.Outcome.next ?_)
  rw [reassembleFrame_of_idle (by exact hd) (by rw [hj.sid]; exact hidle), reassembleIdle_of_first hbody hF,
    openChain_of_fits (by exact hfits), hj.sid, hj.flags]
  rfl

omit hcap in
/-- A fragment that is the whole frame passes up. -/
theorem step_receive_only (hidle : Table.lookup q.sid b.reasm = none) (hfirst : q.isFirst = true)
    (ha : advance mtu q = none) :
    step { b with inbox := [.receive (wireBuffer b.encodeLength out)] } =
      .next { handedUpState b (logicalFrame q.mdOpen q) with inbox := [] } := by
  obtain ⟨j, hdec, hj⟩ := decode_fragment hw hout
  have hF : fSet (frameOf j).flags = false := by rw [hj.flags, fSet_writtenFlags, ha]; rfl
  refine (step_receive hd hdec fun he => (length_fragment_le hw hout).trans (hmtu he)) _ |>.trans
    (congrArg Host.Outcome.next ?_)
  rw [reassembleFrame_of_idle (by exact hd) (by rw [hj.sid]; exact hidle), reassembleIdle_of_pass (.inl hF), hj.bytes,
    ← fragment_eq_logicalFrame hw hfirst ha hout]
  rfl

end

/-- The rest of a chain, received while COLLECTING, hands up the frame at its end. -/
theorem handsUpLast_of_collecting {mtu : Nat} {q : FragSeq} (hw : q.Wf mtu) {b : State} (hd : b.disposed = false)
    (hmtu : b.encodeLength = true → mtu ≤ 0xFFFFFF)
    (hcap : b.maxReassemblySize = 0 ∨ q.md.length + q.data.length ≤ b.maxReassemblySize)
    (hidle : Table.lookup q.sid b.reasm = none) (hfirst : q.isFirst = false) {e : Entry} {m : Bool}
    (hc : Collected m q e) :
    HandsUpLast ((elementsFrom mtu q).map (wireBuffer b.encodeLength)) (collectingState b q.sid e)
      (handedUpState b (logicalFrame m q)) := by
  induction hw using FragSeq.Wf.sequenceInduction generalizing e with
  | last q hw ha =>
    obtain ⟨out, hout⟩ := exists_fragment hw
    rw [elementsFrom_of_last hout ha]
    exact handsUpLast_singleton (step_receive_terminal hw hd hmtu hcap hout hc hfirst hidle ha)
  | more q q' hw hw' ha ih =>
    obtain ⟨out, hout⟩ := exists_fragment hw
    have hstep := step_receive_continuation hw hd hmtu hcap hout hc hfirst ha
    have hc' := collected_appendEntry hw hc
    rw [elementsFrom_of_more hw hout ha]
    obtain ⟨-, rfl⟩ := eq_of_advance_eq_some hw ha
    exact handsUpLast_cons hstep rfl (ih hcap hidle rfl hc')

/-- A whole sequence, received on an IDLE stream, hands up the frame that was loaded, at its end. -/
theorem handsUpLast_of_idle {mtu : Nat} {q : FragSeq} (hw : q.Wf mtu) {b : State} (hd : b.disposed = false)
    (hmtu : b.encodeLength = true → mtu ≤ 0xFFFFFF)
    (hcap : b.maxReassemblySize = 0 ∨ q.md.length + q.data.length ≤ b.maxReassemblySize)
    (hidle : Table.lookup q.sid b.reasm = none) (hfirst : q.isFirst = true) :
    HandsUpLast ((elementsFrom mtu q).map (wireBuffer b.encodeLength)) b
      (handedUpState b (logicalFrame q.mdOpen q)) := by
  obtain ⟨out, hout⟩ := exists_fragment hw
  cases ha : advance mtu q with
  | none =>
    rw [elementsFrom_of_last hout ha]
    exact handsUpLast_singleton (step_receive_only hw hd hmtu hout hidle hfirst ha)
  | some q' =>
    have hw' := wf_of_advance_eq_some hw ha
    have hstep := step_receive_first hw hd hmtu hcap hout hidle hfirst ha
    have hc := collected_openEntry hw hfirst
    rw [elementsFrom_of_more hw hout ha]
    obtain ⟨-, rfl⟩ := eq_of_advance_eq_some hw ha
    exact handsUpLast_cons hstep rfl (handsUpLast_of_collecting hw' hd hmtu hcap hidle rfl hc)

/-! ### Sender and receiver together -/

/-- FRAG_START and as many FRAG_NEXTs as the sequence has elements hand them all down. -/
theorem run_fragStart_fragNext {i : Instr} (hwf : i.wf = true) {t : FragType} {p : Parts}
    (hb : (frameOf i).body = .frag t (some p)) {a : State} (hd : a.disposed = false) (hf : a.fr = none)
    (ha : a.Admitted) (hm : mtuFloor t ≤ a.mtu) {q : FragSeq} (hq : q = loadedSequence (frameOf i) t p)
    (hw : q.Wf a.mtu) :
    core.run (1 + (elementsFrom a.mtu q).length)
        { a with inbox := .fragStart (encode i) :: List.replicate (elementsFrom a.mtu q).length .fragNext } =
      .next { a with op := .fragStart, inbox := [], fr := none
                     down := a.down ++ (elementsFrom a.mtu q).map (wireBuffer a.encodeLength) } := by
  have hload : ∀ rest, step { a with inbox := .fragStart (encode i) :: rest } =
      .next { a with op := .fragStart, inbox := rest, fr := some q } := by
    intro rest
    rw [step_of_cons rfl (held_fragStart _ (by exact hf)), runEvent, runFrame_ok (decode_encode hwf),
      exec_fragStart rfl, fragStartFrame_of_idle (by exact hd) (by exact hf), loadSequence_of_whole hb (by exact hm),
      onCodec_ok, hq]
  have hrun := runsTo_elementsFrom (.inr rfl) hw (s := { a with op := .fragStart, fr := some q }) rfl hd ha rfl []
  rw [List.append_nil] at hrun
  rw [Nat.add_comm, core_run_succ (hload _)]
  exact hrun

/-- The frame that comes out is the one that went in, F and the reserved bit clear. -/
theorem logicalFrame_loadedSequence {i : Instr} (hwf : i.wf = true) {t : FragType} {p : Parts}
    (hb : (frameOf i).body = .frag t (some p)) :
    logicalFrame (mSet i.head.flags) (loadedSequence (frameOf i) t p) =
      headerBytes false i.head.sid i.type.code (i.head.flags &&& 0x37F#10) ++ i.body := by
  obtain ⟨-, hmd, hspell⟩ := body_spell hwf hb
  obtain ⟨hM, -⟩ := (metadataWf_iff _ _).mp hmd
  have hbits : ∀ fl : Flags, withM (otherFlags fl) (mSet fl) = fl &&& 0x37F#10 := by
    unfold withM otherFlags mSet flagM; decide
  have hfield : (if mSet i.head.flags then some (p.md.getD []) else none) = p.md := by
    rw [← hM]
    cases p.md <;> rfl
  simp only [logicalFrame, loadedSequence, frameOf_sid, frameOf_flags, hbits, hfield]
  rw [List.append_assoc, List.append_assoc, ← List.append_assoc p.pre, hspell, type_of_body_frag hb]

theorem elementsFrom_ne_nil {mtu : Nat} {q : FragSeq} (hw : q.Wf mtu) : elementsFrom mtu q ≠ [] := by
  obtain ⟨out, hout⟩ := exists_fragment hw
  rw [elementsFrom, sequenceFrom_succ hout]
  exact List.cons_ne_nil _ _

/-- Settles O48: the sender emits the sequence of the loaded frame, and the receiver hands that frame up at its end. -/
theorem roundTrip : Obligations.RoundTrip := by
  unfold Obligations.RoundTrip
  intro i t p a b hwf hb had haf haa hm hbd henc hidle hcap
  have hw := (of_loadSequence_frameOf hwf (loadSequence_of_whole hb hm)).1
  have hsend := run_fragStart_fragNext hwf hb had haf haa hm rfl hw
  have hframe := logicalFrame_loadedSequence hwf hb
  rw [phase_eq_idle_iff, ← frameOf_sid] at hidle
  have hreceive := handsUpLast_of_idle hw hbd (fun he => mtu_le_of_admitted haa (henc ▸ he)) hcap hidle rfl
  rw [show wireBuffer b.encodeLength = wireBuffer a.encodeLength from congrArg wireBuffer henc] at hreceive
  obtain ⟨hbefore, hend⟩ := hreceive
  generalize hfs : (elementsFrom a.mtu (loadedSequence (frameOf i) t p)).map (wireBuffer a.encodeLength) = fs at *
  have hlen : (elementsFrom a.mtu (loadedSequence (frameOf i) t p)).length = fs.length := by rw [← hfs, List.length_map]
  rw [hlen] at hsend
  rw [← hframe, ← frameOf_flags]
  refine ⟨fs, _, hsend, rfl, rfl, ?_, hbefore, hend⟩
  rw [← hfs]
  exact mt List.map_eq_nil_iff.mp (elementsFrom_ne_nil hw)

end Sys2Proof.Machine
end
